-- ==== Sys2Proof/Word.lean ====
section
/-!
DEFINITION. The two widths in which values travel: the 32-bit command and response words (spec/30_encoding.md R70, R77)
and the 8-bit buffer element (spec/20_memory.md R52).
-/

namespace Sys2Proof

/-- A command word or a response word (R70, R77). -/
abbrev Word := BitVec 32

/-- One buffer element, character, or converter group (R8 `ELEMW`, R52). -/
abbrev Byte := BitVec 8

end Sys2Proof
end

