-- ==== Sys2Proof/Config.lean ====
section
/-!
DEFINITION. What is fixed for one block but left open by the spec: the parameter `CAP` (spec/00_scope.md R8), and the
values the spec leaves unspecified (spec/93_implementation_defined.md U1, U2, U3).
-/

namespace Sys2Proof

/-- The implementation parameters that R8 leaves OPEN: only `CAP`. Every other row of R8 is a fixed number. -/
structure Config where
  /-- `CAP`: the number of elements in each of the four buffers, also the longest string. -/
  cap : Nat
deriving DecidableEq, Repr

/-- R8: "an integer with 8 <= CAP <= 16383". -/
abbrev Config.legal (c : Config) : Prop := 8 ≤ c.cap ∧ c.cap ≤ 16383

/-- A value the spec calls unspecified: `freeValue w n` is the n-th one drawn, of width `w`. It has no body, so nothing
can be proved about what it is (U1, U2, U3; log 6). -/
opaque Config.freeValue (w n : Nat) : BitVec w

end Sys2Proof
end

