-- ==== Sys2Proof/Syntax.lean ====
section
/-!
DEFINITION. The 25 commands (spec/30_encoding.md R73), one constructor a row of spec/opcode_table.json, with the operands
of R70 at the widths the command word gives them.
-/

namespace Sys2Proof

/-- The four buffers (spec/10_state.md R29). -/
inductive Buf where
  | hrp | dat | sym | str
deriving DecidableEq, Repr

/-- A command with its operands (R71, R73, R80). Operands are unsigned (R72). -/
inductive Instr where
  /-- SRST, R214 -/
  | srst
  /-- LD buf, idx, R210 -/
  | ld (buf : Buf) (idx : BitVec 14)
  /-- ST buf, idx, val, R211 -/
  | st (buf : Buf) (idx : BitVec 14) (val : Byte)
  /-- GETLEN buf, R212 -/
  | getlen (buf : Buf)
  /-- SETLEN buf, n, R213 -/
  | setlen (buf : Buf) (n : BitVec 14)
  /-- CV.CFG from, to, pad, dir, R101 -/
  | cvCfg (fromBits toBits : BitVec 4) (pad dir : Bool)
  /-- CV.INIT, R103 -/
  | cvInit
  /-- CV.PUSH val, R104 -/
  | cvPush (val : Byte)
  /-- CV.FLUSH, R108 -/
  | cvFlush
  /-- CV.RUN, R110 -/
  | cvRun
  /-- CV.RD, R112 -/
  | cvRd
  /-- CV.RDCFG, R102 -/
  | cvRdcfg
  /-- PM.INIT, R130 -/
  | pmInit
  /-- PM.STEP sym, R131 -/
  | pmStep (sym : BitVec 5)
  /-- PM.RD, R132 -/
  | pmRd
  /-- PM.HRP, R134 -/
  | pmHrp
  /-- PM.SYM, R135 -/
  | pmSym
  /-- CK.CREATE, R137 -/
  | ckCreate
  /-- CK.VERIFY, R138 -/
  | ckVerify
  /-- CK.RD i, R139 -/
  | ckRd (num : BitVec 3)
  /-- AL.ENC sym, R162 -/
  | alEnc (sym : BitVec 5)
  /-- AL.DEC val, R164 -/
  | alDec (val : Byte)
  /-- AL.FOLD val, R163 -/
  | alFold (val : Byte)
  /-- ENCODE, R180 -/
  | encode
  /-- DECODE, R190 -/
  | decode
deriving DecidableEq, Repr

end Sys2Proof
end

