-- ==== Sys2Proof/Machine/State.lean ====
section
/-!
DEFINITION. The state of the engine as plain data (spec/10_state.md R20), the reset state (R36, spec/70_reset_and_hazards.md
R260), the errors of spec/60_exceptions.md R230 and R231 as data, and the two reasons for which a step could stop.
-/

namespace Sys2Proof.Machine

/-- Why the machine would stop with a fault: there is no such reason. Every command is defined in every state (R7, R262)
and a failing command is answered by a failure word (R79, R235), which is a next state. Safe: nothing is hidden behind a
fault. (log 12) -/
inductive Fault where
deriving DecidableEq, Repr

/-- Why the model would refuse a command. -/
inductive Refusal where
  /-- Raised by an arm of `exec` for an instruction that has no meaning yet; no arm raises it now. Safe. -/
  | notModelled (mnemonic : String)
deriving DecidableEq, Repr

/-- The error kinds of R230. -/
inductive Kind where
  | invalidRange | decoding | invalidChecksum | encoding | outOfRange | bitConversion | command
deriving DecidableEq, Repr

/-- The causes of R231, one for each pair of a kind and a sub-code. -/
inductive Cause where
  /-- 1.0: a character outside 0x21..0x7E (DECODE step 1, AL.FOLD) -/
  | invalidRange
  /-- 2.1 `NO_SEPARATOR` -/
  | noSeparator
  /-- 2.2 `EMPTY_HRP` (DECODE) -/
  | separatorFirst
  /-- 2.3 `SHORT_BODY` -/
  | shortBody
  /-- 2.4 `BAD_CHAR` -/
  | badChar
  /-- 2.5 `RESIDUAL` (DECODE) -/
  | decodeResidual
  /-- 2.6 `NONZERO_PAD` (DECODE) -/
  | decodeNonzeroPad
  /-- 3.0: the checksum does not verify -/
  | invalidChecksum
  /-- 4.1 `EMPTY_HRP` (ENCODE) -/
  | emptyHrp
  /-- 4.2 `HRP_RANGE` -/
  | hrpRange
  /-- 4.3 `CAPACITY` (ENCODE) -/
  | stringCapacity
  /-- 5.0: an input value exceeds its declared bit width -/
  | outOfRange
  /-- 6.1 `RESIDUAL` (converter) -/
  | residual
  /-- 6.2 `NONZERO_PAD` (converter) -/
  | nonzeroPad
  /-- 7.1 `ILLEGAL_OPCODE` -/
  | illegalOpcode
  /-- 7.2 `RESERVED_BITS` -/
  | reservedBits
  /-- 7.3 `BAD_OPERAND` -/
  | badOperand
  /-- 7.4 `BAD_INDEX` -/
  | badIndex
  /-- 7.5 `CAPACITY` (converter) -/
  | capacity
deriving DecidableEq, Repr

/-- What `raise Kind(sub, idx, val)` reports (R79, R231). -/
structure Failure where
  cause : Cause
  idx : BitVec 14
  val : Byte
deriving DecidableEq, Repr

/-- The converter configuration (R25), by its four fields. -/
structure Cfg where
  /-- `CFG.FROM` -/
  fromBits : BitVec 4
  /-- `CFG.TO` -/
  toBits : BitVec 4
  /-- `CFG.PAD` -/
  pad : Bool
  /-- `CFG.DIR` -/
  dir : Bool
deriving DecidableEq, Repr

/-- One value for each of the four buffers (R29). -/
structure Banks (α : Type) where
  hrp : α
  dat : α
  sym : α
  str : α
deriving DecidableEq, Repr

/-- The elements of one buffer that hold a known value, as (index, element) pairs with indexes strictly rising. An index
that is not listed is an element that no command has written since reset, or that R241 made unspecified: it has no value
(R30, U1 to U3; log 4), so no listed entry can equal what an unlisted index reads as. -/
abbrev Memory := List Host.Cell

/-- The canonical form of a memory: the indexes are strictly rising. -/
abbrev Memory.wf (m : Memory) : Prop := m.Pairwise (fun a b => a.1 < b.1)

/-- What the world outside the block can do to it: present a command word (R6), or assert the hardware reset (R260). -/
inductive Input where
  | command (w : Word)
  | hardReset
deriving DecidableEq, Repr

/-- The state. The fields `chk` to `mem` are the architectural state of R20; the others are the model's own. -/
structure State where
  /-- `CAP` (R8): fixed for the block, written by nothing (log 1). -/
  config : Config
  /-- `CHK`, the checksum register (R22). -/
  chk : BitVec 30
  /-- `ACC`, the converter's accumulator (R23). -/
  acc : BitVec 16
  /-- `BITS`, the converter's bit counter (R24). -/
  bits : BitVec 4
  /-- `CFG` (R25). -/
  cfg : Cfg
  /-- `LEN[b]` (R26). -/
  len : Banks (BitVec 14)
  /-- `CKS[0..5]` (R27). -/
  cks : Vector (BitVec 5) 6
  /-- The buffers HRP, DAT, SYM, STR (R29, R30). -/
  mem : Banks Memory
  /-- What the host and the platform are going to present, first one first (R6, R260; logs 2 and 3). -/
  inputs : List Input
  /-- The response word of the last command, none before the first (R77; log 2). -/
  resp : Option Word
  /-- How many free values have been drawn (log 6). -/
  draws : Nat
deriving DecidableEq, Repr

/-- The state after reset (R36, R260). The capacity is the one the spec's test vectors use (log 1). -/
def State.reset : State where
  config := ⟨128⟩
  chk := 1#30
  acc := 0#16
  bits := 0#4
  cfg := ⟨8#4, 5#4, true, false⟩
  len := ⟨0#14, 0#14, 0#14, 0#14⟩
  cks := #v[0#5, 0#5, 0#5, 0#5, 0#5, 0#5]
  mem := ⟨[], [], [], []⟩
  inputs := []
  resp := none
  draws := 0

end Sys2Proof.Machine
end

