-- ==== Sys2Proof/Machine/Flags.lean ====
section
/-!
DEFINITION. The hardware has no condition codes and no status flags (spec/10_state.md R28). Its two flag-like results live
in the response word: bit 31 `E`, and bit 0 of CK.VERIFY's data. This file builds the response words
(spec/30_encoding.md R77 to R79, spec/60_exceptions.md R230, R231).
-/

namespace Sys2Proof.Machine

/-- The kind of a cause (R231). -/
def causeKind : Cause → Kind
  | .invalidRange => .invalidRange
  | .noSeparator => .decoding
  | .separatorFirst => .decoding
  | .shortBody => .decoding
  | .badChar => .decoding
  | .decodeResidual => .decoding
  | .decodeNonzeroPad => .decoding
  | .invalidChecksum => .invalidChecksum
  | .emptyHrp => .encoding
  | .hrpRange => .encoding
  | .stringCapacity => .encoding
  | .outOfRange => .outOfRange
  | .residual => .bitConversion
  | .nonzeroPad => .bitConversion
  | .illegalOpcode => .command
  | .reservedBits => .command
  | .badOperand => .command
  | .badIndex => .command
  | .capacity => .command

/-- The code of a kind (R230). -/
def kindCode : Kind → BitVec 3
  | .invalidRange => 1#3
  | .decoding => 2#3
  | .invalidChecksum => 3#3
  | .encoding => 4#3
  | .outOfRange => 5#3
  | .bitConversion => 6#3
  | .command => 7#3

/-- The sub-code of a cause within its kind (R231). -/
def causeSub : Cause → BitVec 4
  | .invalidRange => 0#4
  | .noSeparator => 1#4
  | .separatorFirst => 2#4
  | .shortBody => 3#4
  | .badChar => 4#4
  | .decodeResidual => 5#4
  | .decodeNonzeroPad => 6#4
  | .invalidChecksum => 0#4
  | .emptyHrp => 1#4
  | .hrpRange => 2#4
  | .stringCapacity => 3#4
  | .outOfRange => 0#4
  | .residual => 1#4
  | .nonzeroPad => 2#4
  | .illegalOpcode => 1#4
  | .reservedBits => 2#4
  | .badOperand => 3#4
  | .badIndex => 4#4
  | .capacity => 5#4

/-- The failure word `1 : kind(3) : sub(4) : 00 : idx(14) : val(8)` (R79). -/
def failureWord (f : Failure) : Word :=
  0x80000000#32 ||| (kindCode (causeKind f.cause)).setWidth 32 <<< 28 ||| (causeSub f.cause).setWidth 32 <<< 24
    ||| f.idx.setWidth 32 <<< 8 ||| f.val.setWidth 32

/-- The success word: bits 31 and 30 are 0, the data is bits 29:0 (R78). -/
def successWord (data : BitVec 30) : Word := data.setWidth 32

/-- CK.VERIFY's verdict, data bit 0: 1 when the polymod is 1 (R138). -/
def verdictData (chk : BitVec 30) : BitVec 30 := if chk = 1#30 then 1#30 else 0#30

end Sys2Proof.Machine
end

