-- ==== Sys2Proof/Machine/Operands.lean ====
section
/-!
DEFINITION. Operands: the operand-range checks of spec/30_encoding.md R74 step 3 with the failure each reports
(spec/60_exceptions.md R231), the layout of `CFG` and the buffers it selects (spec/10_state.md R25), the widening of
operands (R72), and the helper functions of spec/00_scope.md R11 on characters and symbols.
-/

namespace Sys2Proof.Machine

/-! ### Widening (R72, R78): always with zeros -/

/-- `zext_30`. -/
def zext30 {w : Nat} (v : BitVec w) : BitVec 30 := v.setWidth 30

/-- `zext_8` of a symbol. -/
def zext8 (v : BitVec 5) : Byte := v.setWidth 8

/-- A number as response data; every command's result fits (R78). -/
def data30 (n : Nat) : BitVec 30 := BitVec.ofNat 30 n

/-! ### Failures as rules write them -/

/-- `Kind(sub, idx, val)` with the position and the value given as numbers. -/
def failureAt (c : Cause) (idx val : Nat) : Failure := ⟨c, BitVec.ofNat 14 idx, BitVec.ofNat 8 val⟩

/-! ### Operand ranges (R74 step 3) -/

/-- `idx < CAP` (R210, R211). -/
abbrev indexOk (cap : Nat) (idx : BitVec 14) : Prop := idx.toNat < cap

/-- `n <= CAP` (R213). -/
abbrev lengthOk (cap : Nat) (n : BitVec 14) : Prop := n.toNat ≤ cap

/-- A converter width lies in 1..8 (R101). -/
abbrev widthOk (n : BitVec 4) : Prop := 1 ≤ n.toNat ∧ n.toNat ≤ 8

/-! ### CFG (R25) -/

/-- `CFG` as one 10-bit value, `DIR << 9 | PAD << 8 | TO << 4 | FROM`. -/
def cfgWord (c : Cfg) : BitVec 10 :=
  (BitVec.ofBool c.dir).setWidth 10 <<< 9 ||| (BitVec.ofBool c.pad).setWidth 10 <<< 8 ||| c.toBits.setWidth 10 <<< 4
    ||| c.fromBits.setWidth 10

/-- The low byte of a CV.CFG word, `w[7:0]`: `to` above `from` (R71). -/
def widthsByte (fromBits toBits : BitVec 4) : Byte := toBits.setWidth 8 <<< 4 ||| fromBits.setWidth 8

/-- `src(CFG)`. -/
def srcBuf (c : Cfg) : Buf := if c.dir then .sym else .dat

/-- `dst(CFG)`. -/
def dstBuf (c : Cfg) : Buf := if c.dir then .dat else .sym

/-! ### Characters and symbols (R11) -/

/-- `is_printable(c)`. -/
abbrev isPrintable (c : Byte) : Prop := 0x21 ≤ c.toNat ∧ c.toNat ≤ 0x7E

/-- `fold(c)`: 'A'..'Z' become 'a'..'z'. -/
def fold (c : Byte) : Byte := if 0x41 ≤ c.toNat ∧ c.toNat ≤ 0x5A then c + 0x20#8 else c

/-- `SEP`, the separator '1' (R8). -/
def separator : Byte := 0x31#8

/-- The high part of an HRP byte, `h >> 5`. -/
def hrpHigh (c : Byte) : BitVec 5 := (c >>> 5).setWidth 5

/-- The low part of an HRP byte, `h & 0x1F`. -/
def hrpLow (c : Byte) : BitVec 5 := (c &&& 0x1F#8).setWidth 5

/-- `expand(h)`. -/
def expand (h : List Byte) : List (BitVec 5) := h.map hrpHigh ++ [0#5] ++ h.map hrpLow

/-- Symbol `i` of a packed checksum, `(p >> (5*(5-i))) & 0x1F`. -/
def packedSymbol (p : BitVec 30) (i : Nat) : BitVec 5 := (p >>> (5 * (5 - i))).setWidth 5

/-- `unpack6(p)`, most significant symbol first. -/
def unpack6 (p : BitVec 30) : Vector (BitVec 5) 6 :=
  #v[packedSymbol p 0, packedSymbol p 1, packedSymbol p 2, packedSymbol p 3, packedSymbol p 4, packedSymbol p 5]

/-- The first unprintable element of a sequence, with its index counted from `k`. -/
def firstUnprintable : List Byte → Nat → Option (Nat × Byte)
  | [], _ => none
  | c :: cs, k => if isPrintable c then firstUnprintable cs (k + 1) else some (k, c)

end Sys2Proof.Machine
end

