-- ==== Sys2Proof/Machine/Ops.lean ====
section
/-!
DEFINITION. The named operations over the buffers, the length registers and the response: one element access
(spec/20_memory.md R52), free values (spec/93_implementation_defined.md U1 to U3), answering a command
(spec/30_encoding.md R78) and raising an error (spec/00_scope.md R10, spec/60_exceptions.md R234 to R242).
-/

namespace Sys2Proof.Machine

/-! ### One of the four -/

/-- The value that belongs to a buffer. -/
def Banks.get {α : Type} (x : Banks α) : Buf → α
  | .hrp => x.hrp
  | .dat => x.dat
  | .sym => x.sym
  | .str => x.str

/-- Replace the value that belongs to a buffer. -/
def Banks.set {α : Type} (x : Banks α) (b : Buf) (v : α) : Banks α :=
  match b with
  | .hrp => { x with hrp := v }
  | .dat => { x with dat := v }
  | .sym => { x with sym := v }
  | .str => { x with str := v }

/-! ### One buffer's elements -/

/-- The known value of an element, none where there is none. -/
def Memory.read (m : Memory) (i : Nat) : Option Byte := (m.find? (fun c => c.1 == i)).map (fun c => c.2)

/-- Replace one element, keeping the indexes strictly rising. -/
def Memory.write : Memory → Nat → Byte → Memory
  | [], i, v => [(i, v)]
  | c :: m, i, v =>
    if i < c.1 then (i, v) :: c :: m
    else if i = c.1 then (i, v) :: m
    else c :: Memory.write m i v

/-- Replace the elements `i`, `i + 1`, … by the values of a list, in index order. -/
def Memory.writeSeq : Memory → Nat → List Byte → Memory
  | m, _, [] => m
  | m, i, v :: vs => Memory.writeSeq (Memory.write m i v) (i + 1) vs

/-! ### Free values -/

/-- Draw an unspecified value of width `w` (log 6). -/
def State.draw (s : State) (w : Nat) : BitVec w × State :=
  (Config.freeValue w s.draws, { s with draws := s.draws + 1 })

/-! ### Element access (R52) -/

/-- The known value of element `(b, i)`, none when it is unspecified. -/
def State.element (s : State) (b : Buf) (i : Nat) : Option Byte := (s.mem.get b).read i

/-- `MemRead((b, i), 1)`: an element that nothing has written reads as a free value, drawn anew at every read
(R30, R53, U2; log 4). -/
def State.memRead (s : State) (b : Buf) (i : Nat) : Byte × State :=
  match s.element b i with
  | some v => (v, s)
  | none => s.draw 8

/-- `MemWrite((b, i), 1, v)`. -/
def State.memWrite (s : State) (b : Buf) (i : Nat) (v : Byte) : State :=
  { s with mem := s.mem.set b ((s.mem.get b).write i v) }

/-- Read `n` elements of buffer `b` from index `i` on, in index order. -/
def State.readSeq (b : Buf) : Nat → Nat → State → List Byte × State
  | 0, _, s => ([], s)
  | n + 1, i, s =>
    let (v, t) := s.memRead b i
    let (vs, u) := State.readSeq b n (i + 1) t
    (v :: vs, u)

/-- `b[0 .. LEN[b])` as a loop over the buffer reads it, each element once (log 5). -/
def State.readBuf (s : State) (b : Buf) : List Byte × State := State.readSeq b (s.len.get b).toNat 0 s

/-- `b[i] <- v[0]`, `b[i+1] <- v[1]`, … -/
def State.writeSeq (s : State) (b : Buf) (i : Nat) (vs : List Byte) : State :=
  { s with mem := s.mem.set b ((s.mem.get b).writeSeq i vs) }

/-! ### Length registers (R26) -/

/-- `LEN[b]` as a number. -/
def State.lenOf (s : State) (b : Buf) : Nat := (s.len.get b).toNat

/-- `LEN[b] <- n`. -/
def State.setLen (s : State) (b : Buf) (n : Nat) : State := { s with len := s.len.set b (BitVec.ofNat 14 n) }

/-! ### Making state unspecified (R241; DESIGN CHOICE, log 7) -/

/-- Every element of a buffer becomes unspecified; from then on it counts as never written (U3). -/
def State.forgetBuf (s : State) (b : Buf) : State := { s with mem := s.mem.set b [] }

/-- `CHK` becomes unspecified. -/
def State.forgetChk (s : State) : State :=
  let (v, t) := s.draw 30
  { t with chk := v }

/-- `ACC` and `BITS` become unspecified, with `BITS <= 7`. -/
def State.forgetConverter (s : State) : State :=
  let (a, t) := s.draw 16
  let (n, u) := t.draw 3
  { u with acc := a, bits := n.setWidth 4 }

/-- `CKS[0..5]` become unspecified. -/
def State.forgetCks (s : State) : State :=
  let (c0, s0) := s.draw 5
  let (c1, s1) := s0.draw 5
  let (c2, s2) := s1.draw 5
  let (c3, s3) := s2.draw 5
  let (c4, s4) := s3.draw 5
  let (c5, s5) := s4.draw 5
  { s5 with cks := #v[c0, c1, c2, c3, c4, c5] }

/-! ### Answering a command -/

/-- `return v`: the command succeeds with response data `v` (R10, R78). -/
def State.respond (s : State) (data : BitVec 30) : State := { s with resp := some (successWord data) }

/-- `raise`: the response is the failure word and nothing is saved, masked or redirected (R10, R79, R235). `s` is the state
the failure leaves: the state before the command for a primitive command (R240), the state R241 gives for a buffer-walking
one. There is nothing to return from (R242). -/
def State.raise (s : State) (f : Failure) : State := { s with resp := some (failureWord f) }

/-- How a piece of a command's pseudocode ends: with the state it leaves and a value, or raising an error, with the state
in which it is raised. -/
inductive Res (α : Type) where
  | ok (s : State) (a : α)
  | fail (s : State) (f : Failure)
deriving Repr

/-! ### Reset (R260) -/

/-- The effect that hardware reset and SRST share (R214, R260): the reset state. What the host is going to present, the
capacity, and the count of free values are not the block's and stay. -/
def State.resetBlock (s : State) : State :=
  { State.reset with config := s.config, inputs := s.inputs, resp := s.resp, draws := s.draws }

end Sys2Proof.Machine
end

