-- ==== Sys2Proof/Machine/Tables.lean ====
section
/-!
DEFINITION. The constant ROMs `GEN`, `ALPHA` and `REV` (spec/10_state.md R32 to R34, spec/42_alphabet.md R160, R161).
They are no state: no command and no reset changes them (spec/70_reset_and_hazards.md R261).
-/

namespace Sys2Proof.Machine

/-- `GEN[0..4]` (R32). -/
def genRom : List (BitVec 30) := [0x3b6a57b2#30, 0x26508e6d#30, 0x1ea119fa#30, 0x3d4233dd#30, 0x2a1462b3#30]

/-- `ALPHA[0..31]`, as character codes (R33, R160). -/
def alphaRom : Vector Byte 32 :=
  #v[0x71#8, 0x70#8, 0x7A#8, 0x72#8, 0x79#8, 0x39#8, 0x78#8, 0x38#8,
     0x67#8, 0x66#8, 0x32#8, 0x74#8, 0x76#8, 0x64#8, 0x77#8, 0x30#8,
     0x73#8, 0x33#8, 0x6A#8, 0x6E#8, 0x35#8, 0x34#8, 0x6B#8, 0x68#8,
     0x63#8, 0x65#8, 0x36#8, 0x6D#8, 0x75#8, 0x61#8, 0x37#8, 0x6C#8]

/-- `ALPHA[s]`. -/
def alphaChar (s : BitVec 5) : Byte := alphaRom[s.toNat]'s.isLt

/-- The valid entries of `REV`, as R161 lists them, sorted by code. -/
def revRom : List (Byte × BitVec 5) :=
  [(0x30#8, 15#5), (0x32#8, 10#5), (0x33#8, 17#5), (0x34#8, 21#5), (0x35#8, 20#5), (0x36#8, 26#5), (0x37#8, 30#5),
   (0x38#8, 7#5)] ++
  [(0x39#8, 5#5), (0x61#8, 29#5), (0x63#8, 24#5), (0x64#8, 13#5), (0x65#8, 25#5), (0x66#8, 9#5), (0x67#8, 8#5),
   (0x68#8, 23#5)] ++
  [(0x6A#8, 18#5), (0x6B#8, 22#5), (0x6C#8, 31#5), (0x6D#8, 27#5), (0x6E#8, 19#5), (0x70#8, 1#5), (0x71#8, 0#5),
   (0x72#8, 3#5)] ++
  [(0x73#8, 16#5), (0x74#8, 11#5), (0x75#8, 28#5), (0x76#8, 12#5), (0x77#8, 14#5), (0x78#8, 6#5), (0x79#8, 4#5),
   (0x7A#8, 2#5)]

/-- `REV[c]`: the symbol of a character, none for a code that is not in the table, among them 128..255 (R34, R161). -/
def revLookup (c : Byte) : Option (BitVec 5) := (revRom.find? (fun e => e.1 == c)).map (fun e => e.2)

end Sys2Proof.Machine
end

