-- ==== Sys2Proof/Machine/Alphabet.lean ====
section
/-!
DEFINITION. The Alphabet unit: AL.ENC, AL.DEC, AL.FOLD (spec/42_alphabet.md).
-/

namespace Sys2Proof.Machine

/-- AL.ENC sym (R162). -/
def execAlEnc (sym : BitVec 5) (s : State) : Host.Outcome State Fault Refusal :=
  .next (s.respond (zext30 (alphaChar sym)))

/-- AL.DEC val (R164). The look-up does not fold. -/
def execAlDec (val : Byte) (s : State) : Host.Outcome State Fault Refusal :=
  match revLookup val with
  | some sym => .next (s.respond (zext30 sym))
  | none => .next (s.raise ⟨.badChar, 0#14, val⟩)

/-- AL.FOLD val (R163). -/
def execAlFold (val : Byte) (s : State) : Host.Outcome State Fault Refusal :=
  if isPrintable val then .next (s.respond (zext30 (fold val)))
  else .next (s.raise ⟨.invalidRange, 0#14, val⟩)

end Sys2Proof.Machine
end

