-- ==== Sys2Proof/Machine/Buffers.lean ====
section
/-!
DEFINITION. Buffer access and the system command: LD, ST, GETLEN, SETLEN, SRST (spec/45_buffer_and_system.md).
-/

namespace Sys2Proof.Machine

/-- SRST (R214): the state of R36, response data 0. -/
def execSrst (s : State) : Host.Outcome State Fault Refusal :=
  .next (s.resetBlock.respond 0#30)

/-- LD buf, idx (R210). -/
def execLd (b : Buf) (idx : BitVec 14) (s : State) : Host.Outcome State Fault Refusal :=
  if indexOk s.config.cap idx then
    let (v, t) := s.memRead b idx.toNat
    .next (t.respond (zext30 v))
  else .next (s.raise ⟨.badIndex, idx, 0#8⟩)

/-- ST buf, idx, val (R211). -/
def execSt (b : Buf) (idx : BitVec 14) (val : Byte) (s : State) : Host.Outcome State Fault Refusal :=
  if indexOk s.config.cap idx then .next ((s.memWrite b idx.toNat val).respond 0#30)
  else .next (s.raise ⟨.badIndex, idx, val⟩)

/-- GETLEN buf (R212). -/
def execGetlen (b : Buf) (s : State) : Host.Outcome State Fault Refusal :=
  .next (s.respond (zext30 (s.len.get b)))

/-- SETLEN buf, n (R213). -/
def execSetlen (b : Buf) (n : BitVec 14) (s : State) : Host.Outcome State Fault Refusal :=
  if lengthOk s.config.cap n then .next ((s.setLen b n.toNat).respond 0#30)
  else .next (s.raise ⟨.badOperand, n, 0#8⟩)

end Sys2Proof.Machine
end

