-- ==== Sys2Proof/Machine/Checksum.lean ====
section
/-!
DEFINITION. The Checksum Engine: PM.INIT, PM.STEP, PM.RD, PM.HRP, PM.SYM, CK.CREATE, CK.VERIFY, CK.RD
(spec/41_checksum_engine.md).
-/

namespace Sys2Proof.Machine

/-! ### The step (R131) and its iteration (R133) -/

/-- `step(b)`: the value of `CHK` after one symbol. -/
def polyStep (chk : BitVec 30) (b : BitVec 5) : BitVec 30 :=
  let top := chk >>> 25
  let c := ((chk &&& 0x1FFFFFF#30) <<< 5) ^^^ b.setWidth 30
  genRom.zipIdx.foldl (fun c g => if top.getLsbD g.2 then c ^^^ g.1 else c) c

/-- The value of `CHK` after a sequence of symbols. -/
def polyFeed (chk : BitVec 30) (xs : List (BitVec 5)) : BitVec 30 := xs.foldl polyStep chk

/-- `polymod(x)` (R133). -/
def polymod (xs : List (BitVec 5)) : BitVec 30 := polyFeed 1#30 xs

/-- Feed SYM elements, from index `k`: an element above 31 ends the feed with its index and value (R135). -/
def feedSymbols : List Byte → Nat → BitVec 30 → Except (Nat × Byte) (BitVec 30)
  | [], _, chk => .ok chk
  | v :: vs, k, chk => if v.toNat > 31 then .error (k, v) else feedSymbols vs (k + 1) (polyStep chk (v.setWidth 5))

/-! ### Feeding buffers -/

/-- The pseudocode of PM.HRP (R134): the high parts, a zero, the low parts, in two loops over HRP as stored. -/
def State.feedHrp (s : State) : State :=
  let (his, t) := s.readBuf .hrp
  let (los, u) := t.readBuf .hrp
  { u with chk := polyFeed s.chk (his.map hrpHigh ++ [0#5] ++ los.map hrpLow) }

/-- The pseudocode of PM.SYM (R135). -/
def State.feedSym (s : State) : Res Unit :=
  let (vs, t) := s.readBuf .sym
  match feedSymbols vs 0 s.chk with
  | .ok chk => .ok { t with chk := chk } ()
  | .error (k, v) => .fail t ⟨.outOfRange, BitVec.ofNat 14 k, v⟩

/-! ### The commands -/

/-- PM.INIT (R130). -/
def execPmInit (s : State) : Host.Outcome State Fault Refusal :=
  .next (({ s with chk := 1#30 } : State).respond 0#30)

/-- PM.STEP sym (R131). -/
def execPmStep (sym : BitVec 5) (s : State) : Host.Outcome State Fault Refusal :=
  .next (({ s with chk := polyStep s.chk sym } : State).respond (polyStep s.chk sym))

/-- PM.RD (R132). -/
def execPmRd (s : State) : Host.Outcome State Fault Refusal := .next (s.respond s.chk)

/-- PM.HRP (R134). -/
def execPmHrp (s : State) : Host.Outcome State Fault Refusal :=
  let t := s.feedHrp
  .next (t.respond t.chk)

/-- PM.SYM (R135). On a failure `CHK` is unspecified (R241). -/
def execPmSym (s : State) : Host.Outcome State Fault Refusal :=
  match s.feedSym with
  | .ok t _ => .next (t.respond t.chk)
  | .fail t f => .next (t.forgetChk.raise f)

/-- CK.CREATE (R137). On a failure `CHK` and `CKS` are unspecified (R241). -/
def execCkCreate (s : State) : Host.Outcome State Fault Refusal :=
  match ({ s with chk := 1#30 } : State).feedHrp.feedSym with
  | .fail t f => .next (t.forgetChk.forgetCks.raise f)
  | .ok t _ =>
    let chk := polyFeed t.chk (List.replicate 6 0#5)
    let p := chk ^^^ 1#30
    .next (({ t with chk := chk, cks := unpack6 p } : State).respond p)

/-- CK.VERIFY (R138). On a failure `CHK` is unspecified (R241). -/
def execCkVerify (s : State) : Host.Outcome State Fault Refusal :=
  match ({ s with chk := 1#30 } : State).feedHrp.feedSym with
  | .fail t f => .next (t.forgetChk.raise f)
  | .ok t _ => .next (t.respond (verdictData t.chk))

/-- CK.RD i (R139). -/
def execCkRd (num : BitVec 3) (s : State) : Host.Outcome State Fault Refusal :=
  if h : num.toNat < 6 then .next (s.respond (zext30 s.cks[num.toNat]))
  else .next (s.raise (failureAt .badOperand 0 num.toNat))

end Sys2Proof.Machine
end

