-- ==== Sys2Proof/Machine/Converter.lean ====
section
/-!
DEFINITION. The Bit Converter: CV.CFG, CV.RDCFG, CV.INIT, CV.PUSH, CV.FLUSH, CV.RUN, CV.RD, and the pure function `convert`
that ENCODE and DECODE use (spec/40_bit_converter.md). Shifts and masks are on naturals, as spec/00_scope.md R9 has them;
`ACC` is truncated to 16 bits where R104 says so.
-/

namespace Sys2Proof.Machine

/-! ### Groups -/

/-- `maxv = (1 << T) - 1`. -/
def maxGroup (T : Nat) : Nat := 2 ^ T - 1

/-- `zext_8((acc >> bits) & maxv)`: "extract the top toBits bits". -/
def topGroup (T acc bits : Nat) : Byte := BitVec.ofNat 8 ((acc >>> bits) &&& maxGroup T)

/-- `(acc << (T - bits)) & maxv`: the residual at the high side of a group, zeros below (R56). -/
def paddedGroup (T acc bits : Nat) : Nat := (acc <<< (T - bits)) &&& maxGroup T

/-- `while bits >= T: bits <- bits - T; emit (acc >> bits) & maxv`: the groups emitted and the bits left. The first number
bounds the turns of the loop; `bits` itself is always enough, since each turn takes at least one bit (R266). With `T = 0`, which no run reaches, the bound ends the
loop (DESIGN CHOICE, log 10). -/
def emitGroups (T acc : Nat) : Nat → Nat → List Byte × Nat
  | 0, bits => ([], bits)
  | fuel + 1, bits =>
    if T ≤ bits then
      let rest := emitGroups T acc fuel (bits - T)
      (topGroup T acc (bits - T) :: rest.1, rest.2)
    else ([], bits)

/-! ### The function (R100) -/

/-- How `convert` fails. -/
inductive ConvError where
  /-- `OutOfRangeError` at index `k`, on value `v` -/
  | outOfRange (k : Nat) (v : Byte)
  /-- `BitConversionError` (residual), with the residual bit count -/
  | residual (bits : Nat)
  /-- `BitConversionError` (non-zero padding), with the padded residual -/
  | nonzeroPad (r : Nat)
deriving DecidableEq, Repr

/-- The loop of R100 over the input, from index `k`: the accumulator, the bit count and the output at its end. The
accumulator has no width here. -/
def convertLoop (F T : Nat) : List Byte → Nat → Nat → Nat → Except ConvError (Nat × Nat × List Byte)
  | [], _, acc, bits => .ok (acc, bits, [])
  | v :: vs, k, acc, bits =>
    if v.toNat >>> F ≠ 0 then .error (.outOfRange k v)
    else
      let acc' := (acc <<< F) ||| v.toNat
      let e := emitGroups T acc' (bits + F) (bits + F)
      match convertLoop F T vs (k + 1) acc' e.2 with
      | .error err => .error err
      | .ok (a, n, out) => .ok (a, n, e.1 ++ out)

/-- `convert(in, F, T, pad)` (R100). -/
def convert (F T : Nat) (pad : Bool) (input : List Byte) : Except ConvError (List Byte) :=
  match convertLoop F T input 0 0 0 with
  | .error err => .error err
  | .ok (acc, bits, out) =>
    if pad then
      if bits > 0 then .ok (out ++ [BitVec.ofNat 8 (paddedGroup T acc bits)]) else .ok out
    else if F ≤ bits then .error (.residual bits)
    else if paddedGroup T acc bits ≠ 0 then .error (.nonzeroPad (paddedGroup T acc bits))
    else .ok out

/-! ### The per-group step (R104) -/

/-- The pseudocode of CV.PUSH: the number of groups emitted, also where an unspecified `BITS` is `TO` or more (DEDUCED,
log 9). -/
def pushGroup (s : State) (val : Byte) : Res Nat :=
  let F := s.cfg.fromBits.toNat
  let T := s.cfg.toBits.toNat
  let d := dstBuf s.cfg
  if val.toNat >>> F ≠ 0 then .fail s ⟨.outOfRange, 0#14, val⟩
  else
    let g := (s.bits.toNat + F) / T
    if s.lenOf d + g > s.config.cap then .fail s ⟨.capacity, 0#14, 0#8⟩
    else
      let acc : BitVec 16 := BitVec.ofNat 16 ((s.acc.toNat <<< F) ||| val.toNat)
      let e := emitGroups T acc.toNat (s.bits.toNat + F) (s.bits.toNat + F)
      let t := (s.writeSeq d (s.lenOf d) e.1).setLen d (s.lenOf d + e.1.length)
      .ok { t with acc := acc, bits := BitVec.ofNat 4 e.2 } g

/-! ### End of input (R108) -/

/-- `(ACC << (T - BITS)) & maxv`. The spec has `BITS <= T` here; where an unspecified `BITS` is larger (R241), it states no
value, and a free value of `T` bits stands for it (DESIGN CHOICE, log 8). -/
def paddedResidual (s : State) : Nat × State :=
  let T := s.cfg.toBits.toNat
  if s.bits.toNat ≤ T then (paddedGroup T s.acc.toNat s.bits.toNat, s)
  else
    let (v, t) := s.draw 8
    (v.toNat &&& maxGroup T, t)

/-- `ACC <- 0; BITS <- 0`. -/
def State.clearConverter (s : State) : State := { s with acc := 0#16, bits := 0#4 }

/-- The pseudocode of CV.FLUSH: the number of groups emitted. -/
def flushGroup (s : State) : Res Nat :=
  let F := s.cfg.fromBits.toNat
  let d := dstBuf s.cfg
  if s.cfg.pad then
    if s.bits.toNat > 0 then
      if s.lenOf d + 1 > s.config.cap then .fail s ⟨.capacity, 0#14, 0#8⟩
      else
        let (r, t) := paddedResidual s
        .ok ((t.memWrite d (s.lenOf d) (BitVec.ofNat 8 r)).setLen d (s.lenOf d + 1)).clearConverter 1
    else .ok s.clearConverter 0
  else if F ≤ s.bits.toNat then .fail s (failureAt .residual 0 s.bits.toNat)
  else
    let (r, t) := paddedResidual s
    if r ≠ 0 then .fail t (failureAt .nonzeroPad 0 r)
    else .ok t.clearConverter 0

/-! ### The commands -/

/-- CV.CFG from, to, pad, dir (R101). -/
def execCvCfg (fromBits toBits : BitVec 4) (pad dir : Bool) (s : State) : Host.Outcome State Fault Refusal :=
  if widthOk fromBits ∧ widthOk toBits then
    .next (({ s with cfg := ⟨fromBits, toBits, pad, dir⟩ } : State).clearConverter.respond 0#30)
  else .next (s.raise ⟨.badOperand, 0#14, widthsByte fromBits toBits⟩)

/-- CV.RDCFG (R102). -/
def execCvRdcfg (s : State) : Host.Outcome State Fault Refusal := .next (s.respond (zext30 (cfgWord s.cfg)))

/-- The pseudocode of CV.INIT (R103). -/
def State.initConverter (s : State) : State := s.clearConverter.setLen (dstBuf s.cfg) 0

/-- CV.INIT (R103). -/
def execCvInit (s : State) : Host.Outcome State Fault Refusal := .next (s.initConverter.respond 0#30)

/-- CV.PUSH val (R104). On a failure no state changes (R240). -/
def execCvPush (val : Byte) (s : State) : Host.Outcome State Fault Refusal :=
  match pushGroup s val with
  | .ok t g => .next (t.respond (data30 g))
  | .fail t f => .next (t.raise f)

/-- CV.FLUSH (R108). On a failure no state changes (R240). -/
def execCvFlush (s : State) : Host.Outcome State Fault Refusal :=
  match flushGroup s with
  | .ok t g => .next (t.respond (data30 g))
  | .fail t f => .next (t.raise f)

/-- CV.RUN's loop over the source elements from index `k`: CV.PUSH's pseudocode on each, an `OutOfRangeError` reported at
its index (R110). -/
def pushAll : List Byte → Nat → State → Res Unit
  | [], _, s => .ok s ()
  | v :: vs, k, s =>
    match pushGroup s v with
    | .ok t _ => pushAll vs (k + 1) t
    | .fail t f => if f.cause = .outOfRange then .fail t { f with idx := BitVec.ofNat 14 k } else .fail t f

/-- What a failing CV.RUN leaves (R241): `LEN[d] = 0`; the elements of `d`, `ACC` and `BITS` unspecified. -/
def State.runFailed (s : State) : State :=
  ((s.setLen (dstBuf s.cfg) 0).forgetBuf (dstBuf s.cfg)).forgetConverter

/-- CV.RUN (R110). -/
def execCvRun (s : State) : Host.Outcome State Fault Refusal :=
  let (xs, s1) := s.readBuf (srcBuf s.cfg)
  match pushAll xs 0 s1.initConverter with
  | .fail t f => .next (t.runFailed.raise f)
  | .ok t _ =>
    match flushGroup t with
    | .fail u f => .next (u.runFailed.raise f)
    | .ok u _ => .next (u.respond (zext30 (u.len.get (dstBuf u.cfg))))

/-- CV.RD (R112): `BITS << 16 | ACC`. -/
def execCvRd (s : State) : Host.Outcome State Fault Refusal :=
  .next (s.respond (zext30 s.bits <<< 16 ||| zext30 s.acc))

end Sys2Proof.Machine
end

