-- ==== Sys2Proof/Machine/Encoder.lean ====
section
/-!
DEFINITION. ENCODE (spec/43_encoder.md R180 to R187).
-/

namespace Sys2Proof.Machine

/-- The number of data symbols of an `n`-byte payload, `ceil(8n/5)`. -/
def symbolCount (n : Nat) : Nat := (8 * n + 4) / 5

/-- The number of characters of the encoded string, `L + 1 + m + 6` (R180). -/
def stringLength (L n : Nat) : Nat := L + 1 + symbolCount n + 6

/-- The symbol that a SYM element of value 0..31 holds. -/
def symbolOf (v : Byte) : BitVec 5 := v.setWidth 5

/-- The failure that an error of `convert` would be inside ENCODE or DECODE where the rules say that it cannot occur
(R180, R190, R232; log 11). -/
def convErrorFailure : ConvError → Failure
  | .outOfRange k v => ⟨.outOfRange, BitVec.ofNat 14 k, v⟩
  | .residual n => failureAt .residual 0 n
  | .nonzeroPad r => failureAt .nonzeroPad 0 r

/-- The polymod of an encode: `expand(h)`, the data symbols, six zeros (R180, R183). -/
def encodePolymod (h : List Byte) (syms : List (BitVec 5)) : BitVec 30 :=
  polymod (expand h ++ syms ++ List.replicate 6 0#5)

/-- The characters of an encoded string: the lower-cased HRP, the separator, the data symbols, the checksum (R184). -/
def encodedString (h : List Byte) (syms cks : List (BitVec 5)) : List Byte :=
  h ++ [separator] ++ syms.map alphaChar ++ cks.map alphaChar

/-- What a failing ENCODE leaves (R186, R241). -/
def State.encodeFailed (s : State) : State :=
  (((((s.setLen .str 0).setLen .sym 0).forgetBuf .str).forgetBuf .sym).forgetChk.forgetConverter).forgetCks

/-- The results of an ENCODE that has succeeded: `m` data symbols `ds`, the lower-cased HRP `h` (R180, R185),
written at once (DEDUCED, log 14). -/
def State.encodeResults (s : State) (h ds : List Byte) (m T : Nat) : State :=
  let syms := ds.map symbolOf
  let chk := encodePolymod h syms
  let cks := unpack6 (chk ^^^ 1#30)
  let t := ((s.writeSeq .sym 0 ds).setLen .sym m).clearConverter
  let u := ({ t with chk := chk, cks := cks } : State)
  (u.writeSeq .str 0 (encodedString h syms cks.toList)).setLen .str T

/-- ENCODE (R180). -/
def execEncode (s : State) : Host.Outcome State Fault Refusal :=
  let L := s.lenOf .hrp
  let n := s.lenOf .dat
  let m := symbolCount n
  let T := stringLength L n
  if L = 0 then .next (s.encodeFailed.raise ⟨.emptyHrp, 0#14, 0#8⟩)
  else if T > s.config.cap then .next (s.encodeFailed.raise ⟨.stringCapacity, 0#14, 0#8⟩)
  else
    let (seen, s1) := s.readBuf .hrp
    match firstUnprintable seen 0 with
    | some (k, c) => .next (s1.encodeFailed.raise ⟨.hrpRange, BitVec.ofNat 14 k, c⟩)
    | none =>
      let (copy, s2) := s1.readBuf .hrp
      let (payload, s3) := s2.readBuf .dat
      match convert 8 5 true payload with
      | .error e => .next (s3.encodeFailed.raise (convErrorFailure e))
      | .ok ds => .next ((s3.encodeResults (copy.map fold) ds m T).respond (data30 T))

end Sys2Proof.Machine
end

