-- ==== Sys2Proof/Machine/Decoder.lean ====
section
/-!
DEFINITION. DECODE (spec/44_decoder.md R190 to R202): the five steps on the folded string as one pure function, and the
command around it.
-/

namespace Sys2Proof.Machine

/-- "the last occurrence of '1'" from index `k` on, where `best` is the last one before `k` (R193). -/
def lastSeparator : List Byte → Nat → Option Nat → Option Nat
  | [], _, best => best
  | c :: cs, k, best => lastSeparator cs (k + 1) (if c = separator then some k else best)

/-- Step 3 from string index `k` on: the symbols of the characters, or the first one not in the alphabet (R194). -/
def mapCharacters : List Byte → Nat → Except Failure (List (BitVec 5))
  | [], _ => .ok []
  | c :: cs, k =>
    match revLookup c with
    | none => .error ⟨.badChar, BitVec.ofNat 14 k, c⟩
    | some v =>
      match mapCharacters cs (k + 1) with
      | .error f => .error f
      | .ok vs => .ok (v :: vs)

/-- How DECODE reports an error of the strict 5→8 conversion (R190, R196, R232). -/
def decodeConvFailure : ConvError → Failure
  | .outOfRange k v => convErrorFailure (.outOfRange k v)
  | .residual n => failureAt .decodeResidual 0 n
  | .nonzeroPad r => failureAt .decodeNonzeroPad 0 r

/-- What the five steps find: the HRP, all symbols after the separator, the polymod, the payload. -/
structure Decoded where
  hrp : List Byte
  syms : List (BitVec 5)
  chk : BitVec 30
  payload : List Byte
deriving DecidableEq, Repr

/-- Steps 3 to 5 on the HRP `h`, and the characters `body` that stand after the separator from string index `k` on. -/
def decodeBody (h body : List Byte) (k : Nat) : Except Failure Decoded :=
  match mapCharacters body k with
  | .error f => .error f
  | .ok syms =>
    let chk := polymod (expand h ++ syms)
    if chk ≠ 1#30 then .error ⟨.invalidChecksum, 0#14, 0#8⟩
    else
      match convert 5 8 false ((syms.take (syms.length - 6)).map zext8) with
      | .error e => .error (decodeConvFailure e)
      | .ok payload => .ok ⟨h, syms, chk, payload⟩

/-- Steps 2 to 5 on the folded string (R193 to R196). -/
def decodeString (f : List Byte) : Except Failure Decoded :=
  match lastSeparator f 0 none with
  | none => .error ⟨.noSeparator, 0#14, 0#8⟩
  | some p =>
    if p = 0 then .error ⟨.separatorFirst, 0#14, 0#8⟩
    else if f.length - 1 - p < 6 then .error (failureAt .shortBody p (f.length - 1 - p))
    else decodeBody (f.take p) (f.drop (p + 1)) (p + 1)

/-- What a failing DECODE leaves (R199, R241). -/
def State.decodeFailed (s : State) : State :=
  ((((((s.setLen .hrp 0).setLen .dat 0).setLen .sym 0).forgetBuf .hrp).forgetBuf .dat).forgetBuf .sym).forgetChk.forgetConverter

/-- The results of a DECODE that has succeeded (R197, R198), written at once (DEDUCED, log 14). -/
def State.decodeResults (s : State) (r : Decoded) : State :=
  let t := (s.writeSeq .sym 0 (r.syms.map zext8)).setLen .sym (r.syms.length - 6)
  let u := ({ t with chk := r.chk } : State).clearConverter
  let v := (u.writeSeq .dat 0 r.payload).setLen .dat r.payload.length
  (v.writeSeq .hrp 0 r.hrp).setLen .hrp r.hrp.length

/-- DECODE (R190). -/
def execDecode (s : State) : Host.Outcome State Fault Refusal :=
  let (seen, s1) := s.readBuf .str
  match firstUnprintable seen 0 with
  | some (k, c) => .next (s1.decodeFailed.raise ⟨.invalidRange, BitVec.ofNat 14 k, c⟩)
  | none =>
    let (copy, s2) := s1.readBuf .str
    match decodeString (copy.map fold) with
    | .error f => .next (s2.decodeFailed.raise f)
    | .ok r =>
      .next ((s2.decodeResults r).respond (data30 ((r.hrp.length <<< 14) ||| r.payload.length)))

end Sys2Proof.Machine
end

