-- ==== Sys2Proof/Machine/Dispatch.lean ====
section
/-!
DEFINITION. What a command does: one arm for each constructor of `Instr` (spec/30_encoding.md R73).
-/

namespace Sys2Proof.Machine

def exec (i : Instr) (s : State) : Host.Outcome State Fault Refusal :=
  match i with
  | .srst => Sys2Proof.Machine.execSrst s
  | .ld buf idx => Sys2Proof.Machine.execLd buf idx s
  | .st buf idx val => Sys2Proof.Machine.execSt buf idx val s
  | .getlen buf => Sys2Proof.Machine.execGetlen buf s
  | .setlen buf n => Sys2Proof.Machine.execSetlen buf n s
  | .cvCfg fromBits toBits pad dir => Sys2Proof.Machine.execCvCfg fromBits toBits pad dir s
  | .cvInit => Sys2Proof.Machine.execCvInit s
  | .cvPush val => Sys2Proof.Machine.execCvPush val s
  | .cvFlush => Sys2Proof.Machine.execCvFlush s
  | .cvRun => Sys2Proof.Machine.execCvRun s
  | .cvRd => Sys2Proof.Machine.execCvRd s
  | .cvRdcfg => Sys2Proof.Machine.execCvRdcfg s
  | .pmInit => Sys2Proof.Machine.execPmInit s
  | .pmStep sym => Sys2Proof.Machine.execPmStep sym s
  | .pmRd => Sys2Proof.Machine.execPmRd s
  | .pmHrp => Sys2Proof.Machine.execPmHrp s
  | .pmSym => Sys2Proof.Machine.execPmSym s
  | .ckCreate => Sys2Proof.Machine.execCkCreate s
  | .ckVerify => Sys2Proof.Machine.execCkVerify s
  | .ckRd num => Sys2Proof.Machine.execCkRd num s
  | .alEnc sym => Sys2Proof.Machine.execAlEnc sym s
  | .alDec val => Sys2Proof.Machine.execAlDec val s
  | .alFold val => Sys2Proof.Machine.execAlFold val s
  | .encode => Sys2Proof.Machine.execEncode s
  | .decode => Sys2Proof.Machine.execDecode s

end Sys2Proof.Machine
end

