-- ==== Sys2Proof/Decode.lean ====
section
/-!
DEFINITION. Command words (spec/30_encoding.md): the fields of R70, the formats of R71, the opcode map of R73, the decoder
of R74 steps 1 and 2 (steps 3 and 4 belong to the commands), and the encoder, written from the same tables.
-/

namespace Sys2Proof

/-! ### Fields (R70, R72) -/

/-- `op = w[31:24]`. -/
def fieldOp (w : Word) : BitVec 8 := w.extractLsb' 24 8
/-- `buf = w[23:22]`. -/
def fieldBuf (w : Word) : BitVec 2 := w.extractLsb' 22 2
/-- `idx`, or a length `n`: `w[21:8]`. -/
def fieldIdx (w : Word) : BitVec 14 := w.extractLsb' 8 14
/-- `val = w[7:0]`. -/
def fieldVal (w : Word) : Byte := w.extractLsb' 0 8
/-- `sym = w[4:0]`. -/
def fieldSym (w : Word) : BitVec 5 := w.extractLsb' 0 5
/-- `i = w[2:0]`. -/
def fieldNum (w : Word) : BitVec 3 := w.extractLsb' 0 3
/-- `from = w[3:0]`. -/
def fieldFrom (w : Word) : BitVec 4 := w.extractLsb' 0 4
/-- `to = w[7:4]`. -/
def fieldTo (w : Word) : BitVec 4 := w.extractLsb' 4 4
/-- `pad = w[8]`. -/
def fieldPad (w : Word) : Bool := w.getLsbD 8
/-- `dir = w[9]`. -/
def fieldDir (w : Word) : Bool := w.getLsbD 9

/-- The buffer a `buf` field selects (R29). -/
def bufOfCode (c : BitVec 2) : Buf :=
  if c = 0#2 then .hrp else if c = 1#2 then .dat else if c = 2#2 then .sym else .str

/-- The `buf` field of a buffer (R29). -/
def bufCode : Buf → BitVec 2
  | .hrp => 0#2
  | .dat => 1#2
  | .sym => 2#2
  | .str => 3#2

/-! ### Formats (R71) -/

/-- The nine formats of R71. -/
inductive Format where
  | z | v8 | v5 | v3 | bx | bi | bn | b | cf
deriving DecidableEq, Repr

/-- The reserved bits of a format: the bits of `w[23:0]` that R71 marks `0`. -/
def reservedMask : Format → Word
  | .z => 0x00FFFFFF#32
  | .v8 => 0x00FFFF00#32
  | .v5 => 0x00FFFFE0#32
  | .v3 => 0x00FFFFF8#32
  | .bx => 0x00000000#32
  | .bi => 0x000000FF#32
  | .bn => 0x000000FF#32
  | .b => 0x003FFFFF#32
  | .cf => 0x00FFFC00#32

/-! ### The opcode map (R73) -/

/-- One row of R73: the opcode, its format, and the command its operand fields make. -/
structure Row where
  op : BitVec 8
  fmt : Format
  build : Word → Instr

/-- The units SYSTEM and BUFFERS of R73. -/
def rowsBuffers : List Row :=
  [ ⟨0x01#8, .z, fun _ => .srst⟩,
    ⟨0x10#8, .bi, fun w => .ld (bufOfCode (fieldBuf w)) (fieldIdx w)⟩,
    ⟨0x11#8, .bx, fun w => .st (bufOfCode (fieldBuf w)) (fieldIdx w) (fieldVal w)⟩,
    ⟨0x12#8, .b, fun w => .getlen (bufOfCode (fieldBuf w))⟩,
    ⟨0x13#8, .bn, fun w => .setlen (bufOfCode (fieldBuf w)) (fieldIdx w)⟩ ]

/-- The unit BIT CONVERTER of R73. -/
def rowsConverter : List Row :=
  [ ⟨0x20#8, .cf, fun w => .cvCfg (fieldFrom w) (fieldTo w) (fieldPad w) (fieldDir w)⟩,
    ⟨0x21#8, .z, fun _ => .cvInit⟩,
    ⟨0x22#8, .v8, fun w => .cvPush (fieldVal w)⟩,
    ⟨0x23#8, .z, fun _ => .cvFlush⟩,
    ⟨0x24#8, .z, fun _ => .cvRun⟩,
    ⟨0x25#8, .z, fun _ => .cvRd⟩,
    ⟨0x26#8, .z, fun _ => .cvRdcfg⟩ ]

/-- The unit CHECKSUM ENGINE of R73. -/
def rowsChecksum : List Row :=
  [ ⟨0x30#8, .z, fun _ => .pmInit⟩,
    ⟨0x31#8, .v5, fun w => .pmStep (fieldSym w)⟩,
    ⟨0x32#8, .z, fun _ => .pmRd⟩,
    ⟨0x33#8, .z, fun _ => .pmHrp⟩,
    ⟨0x34#8, .z, fun _ => .pmSym⟩,
    ⟨0x35#8, .z, fun _ => .ckCreate⟩,
    ⟨0x36#8, .z, fun _ => .ckVerify⟩,
    ⟨0x37#8, .v3, fun w => .ckRd (fieldNum w)⟩ ]

/-- The units ALPHABET and ENCODER/DECODER of R73. -/
def rowsAlphabet : List Row :=
  [ ⟨0x40#8, .v5, fun w => .alEnc (fieldSym w)⟩,
    ⟨0x41#8, .v8, fun w => .alDec (fieldVal w)⟩,
    ⟨0x42#8, .v8, fun w => .alFold (fieldVal w)⟩,
    ⟨0x50#8, .z, fun _ => .encode⟩,
    ⟨0x51#8, .z, fun _ => .decode⟩ ]

/-- The opcode map, 25 rows. -/
def opcodeMap : List Row := rowsBuffers ++ rowsConverter ++ rowsChecksum ++ rowsAlphabet

/-! ### The decoder (R74) -/

/-- Why a word is no command: R74 steps 1 and 2. -/
inductive DecodeError where
  /-- `op` is not one of the 25 opcodes (R75). -/
  | illegalOpcode
  /-- a reserved bit of the format is 1 (R76). -/
  | reservedBits
deriving DecidableEq, Repr

/-- The row of an opcode. -/
def rowOf (op : BitVec 8) : Option Row := opcodeMap.find? (fun r => r.op == op)

/-- R74 steps 1 and 2, in that order. -/
def decode (w : Word) : Except DecodeError Instr :=
  match rowOf (fieldOp w) with
  | none => .error .illegalOpcode
  | some r => if w &&& reservedMask r.fmt = 0#32 then .ok (r.build w) else .error .reservedBits

/-! ### The encoder -/

/-- The opcode of a command (R73). -/
def opcodeOf : Instr → BitVec 8
  | .srst => 0x01#8
  | .ld _ _ => 0x10#8
  | .st _ _ _ => 0x11#8
  | .getlen _ => 0x12#8
  | .setlen _ _ => 0x13#8
  | .cvCfg _ _ _ _ => 0x20#8
  | .cvInit => 0x21#8
  | .cvPush _ => 0x22#8
  | .cvFlush => 0x23#8
  | .cvRun => 0x24#8
  | .cvRd => 0x25#8
  | .cvRdcfg => 0x26#8
  | .pmInit => 0x30#8
  | .pmStep _ => 0x31#8
  | .pmRd => 0x32#8
  | .pmHrp => 0x33#8
  | .pmSym => 0x34#8
  | .ckCreate => 0x35#8
  | .ckVerify => 0x36#8
  | .ckRd _ => 0x37#8
  | .alEnc _ => 0x40#8
  | .alDec _ => 0x41#8
  | .alFold _ => 0x42#8
  | .encode => 0x50#8
  | .decode => 0x51#8

/-- A field of a command word: a value with its lowest bit at bit `low` of the word. -/
def place {w : Nat} (v : BitVec w) (low : Nat) : Word := v.setWidth 32 <<< low

/-- The operand fields of a command at their places, zeros in the reserved bits (R70, R71). -/
def operandBits : Instr → Word
  | .ld b idx => place (bufCode b) 22 ||| place idx 8
  | .st b idx val => place (bufCode b) 22 ||| place idx 8 ||| place val 0
  | .getlen b => place (bufCode b) 22
  | .setlen b n => place (bufCode b) 22 ||| place n 8
  | .cvCfg fromBits toBits pad dir =>
    place (BitVec.ofBool dir) 9 ||| place (BitVec.ofBool pad) 8 ||| place toBits 4 ||| place fromBits 0
  | .cvPush val => place val 0
  | .pmStep sym => place sym 0
  | .ckRd num => place num 0
  | .alEnc sym => place sym 0
  | .alDec val => place val 0
  | .alFold val => place val 0
  | .srst => 0#32
  | .cvInit => 0#32
  | .cvFlush => 0#32
  | .cvRun => 0#32
  | .cvRd => 0#32
  | .cvRdcfg => 0#32
  | .pmInit => 0#32
  | .pmRd => 0#32
  | .pmHrp => 0#32
  | .pmSym => 0#32
  | .ckCreate => 0#32
  | .ckVerify => 0#32
  | .encode => 0#32
  | .decode => 0#32

/-- The command word of a command: its opcode in bits 31:24, its operand fields below. -/
def encode (i : Instr) : Word := place (opcodeOf i) 24 ||| operandBits i

/-- The command this decoder reads from a word given as a number of `nbits` bits. A command is one 32-bit word (R70). -/
def decodeTableWord (nbits w : Nat) : Option Instr :=
  match decode (BitVec.ofNat 32 (w % 2 ^ nbits)) with
  | .ok i => some i
  | .error _ => none

end Sys2Proof
end

