-- ==== Sys2Proof/Machine/Port.lean ====
section
/-!
DEFINITION. The command port: what a step does around a command (spec/00_scope.md R6, spec/30_encoding.md R74).
-/

namespace Sys2Proof.Machine

/-- The failure of a word that is no command (R74 steps 1 and 2, R231): `val` is the opcode. -/
def decodeFailure (e : DecodeError) (w : Word) : Failure :=
  match e with
  | .illegalOpcode => ⟨.illegalOpcode, 0#14, fieldOp w⟩
  | .reservedBits => ⟨.reservedBits, 0#14, fieldOp w⟩

/-- The state once the first input has been taken. -/
def State.take (s : State) (rest : List Input) : State := { s with inputs := rest }

/-- The state after a hardware reset has been taken (R260): the block is in its reset state, and no response of a command
is at the port (log 3). -/
def State.hardReset (s : State) (rest : List Input) : State := { s.resetBlock with inputs := rest, resp := none }

/-- A word given as a number of `nbits` bits, the bits above them zero. -/
def commandWord (nbits w : Nat) : Word := BitVec.ofNat 32 (w % 2 ^ nbits)

end Sys2Proof.Machine
end

