-- ==== Sys2Proof/Machine/Step.lean ====
section
/-!
DEFINITION. One step: take what the host or the platform presents next, and act on it (spec/00_scope.md R6, R7,
spec/70_reset_and_hazards.md R260). The engine has no program counter and fetches nothing (spec/10_state.md R21).
-/

namespace Sys2Proof.Machine

/-- One step. A command word is decoded and executed, or answered by `ILLEGAL_OPCODE` or `RESERVED_BITS` (R74). A hardware
reset resets the block. With nothing presented, nothing happens (DESIGN CHOICE, log 2). A step has no duration (DESIGN CHOICE,
log 13). -/
def step (s : State) : Host.Outcome State Fault Refusal :=
  match s.inputs with
  | [] => .next s
  | .hardReset :: rest => .next (s.hardReset rest)
  | .command w :: rest =>
    match decode w with
    | .ok i => exec i (s.take rest)
    | .error e => .next ((s.take rest).raise (decodeFailure e w))

/-- `s` with the command word given as `nbits` bits being the next thing the host presents (log 2). -/
def State.withFetchWord (s : State) (nbits w : Nat) : State :=
  { s with inputs := .command (commandWord nbits w) :: s.inputs }

end Sys2Proof.Machine
end

