-- ==== Sys2Proof/Safety.lean ====
section
/-!
DEFINITION. What counts as a sound state of the engine, and the terms in which claims speak: which buffers hold known
values, what a loop over a buffer may read, and runs of several commands.
-/

namespace Sys2Proof.Machine

/-- A buffer is in canonical form and lists only elements that exist (R50, R51). -/
abbrev Memory.within (cap : Nat) (m : Memory) : Prop := m.wf ∧ ∀ c ∈ m, c.1 < cap

/-- What always holds between commands, whatever the host does. -/
structure State.Inv (s : State) : Prop where
  /-- R8: "an integer with 8 <= CAP <= 16383". -/
  cap_legal : s.config.legal
  /-- R25: "`CFG` never holds an illegal value". -/
  from_legal : 1 ≤ s.cfg.fromBits.toNat ∧ s.cfg.fromBits.toNat ≤ 8
  /-- R25, the other width. -/
  to_legal : 1 ≤ s.cfg.toBits.toNat ∧ s.cfg.toBits.toNat ≤ 8
  /-- R24, R106: `BITS <= 7`. -/
  bits_small : s.bits.toNat ≤ 7
  /-- R26: "`0 <= LEN[b] <= CAP` always holds". -/
  len_legal : ∀ b, s.lenOf b ≤ s.config.cap
  /-- R50, R51: the elements of a buffer are those of index 0..CAP-1. -/
  mem_legal : ∀ b, (s.mem.get b).within s.config.cap

/-- Every element that a loop over buffer `b` reads holds a known value. -/
def State.Written (s : State) (b : Buf) : Prop := ∀ k, k < s.lenOf b → (s.element b k).isSome

/-- `xs` is what a loop over buffer `b` may read: as long as `LEN[b]`, and equal to the elements that hold a known value. An
element that nothing has written may read as anything (R30, R53). -/
def State.ReadsAs (s : State) (b : Buf) (xs : List Byte) : Prop :=
  xs.length = s.lenOf b ∧ ∀ k v, k < s.lenOf b → s.element b k = some v → xs[k]? = some v

/-- Buffer `b` holds exactly the sequence `xs` in `b[0..LEN[b])`. -/
def State.Holds (s : State) (b : Buf) (xs : List Byte) : Prop :=
  s.lenOf b = xs.length ∧ ∀ k, k < xs.length → s.element b k = xs[k]?

/-- Commands executed one after the other (R60), without the port around them: the state they leave. -/
def execAll : List Instr → State → Host.Outcome State Fault Refusal
  | [], s => .next s
  | i :: is, s =>
    match exec i s with
    | .next t => execAll is t
    | .fault f => .fault f
    | .refused r => .refused r

/-- A run of the machine that has not stopped after `k` steps (R7: it never does). -/
def State.Runs (s : State) (k : Nat) : Prop := ∃ t, Host.Core.run Sys2Proof.core k s = .next t

end Sys2Proof.Machine
end

