-- ==== Sys2Proof/Certificates/Slice0/Obligations.lean ====
section
/-!
DEFINITION. The statements for the provers. The helpers of the first part are the spec's words in their own right, so that
a statement does not lean on the model's own tables where the spec gives them.
-/

namespace Sys2Proof.Claims

open Sys2Proof Sys2Proof.Machine

/-- The success word with data `d` (R78): bits 31 and 30 are 0. -/
def okWord (d : BitVec 30) : Word := d.setWidth 32

/-- The failure word `E = 1`, kind 30:28, sub 27:24, 0 23:22, idx 21:8, val 7:0 (R79). -/
def failWord (kind : BitVec 3) (sub : BitVec 4) (idx : BitVec 14) (val : Byte) : Word :=
  0x80000000#32 ||| kind.setWidth 32 <<< 28 ||| sub.setWidth 32 <<< 24 ||| idx.setWidth 32 <<< 8 ||| val.setWidth 32

/-- The last command failed: bit 31 of its response is 1 (R77). -/
def Failed (t : State) : Prop := ∃ r, t.resp = some r ∧ r.getLsbD 31 = true

/-- The last command succeeded (R77). -/
def Succeeded (t : State) : Prop := ∃ r, t.resp = some r ∧ r.getLsbD 31 = false

/-- The encoding a command rule gives: opcode `op`, the reserved bits of its format, its operands from the word; a set
reserved bit is `RESERVED_BITS` (R71, R73, R74, R76). -/
def DecodesAs (op : BitVec 8) (reserved : Word) (command : Word → Instr) : Prop :=
  ∀ w : Word, w.extractLsb' 24 8 = op →
    decode w = if w &&& reserved = 0#32 then .ok (command w) else .error .reservedBits

/-- The buffer that a `buf` field names (R29). -/
def bufNamed (c : BitVec 2) : Buf :=
  match c.toNat with
  | 0 => .hrp
  | 1 => .dat
  | 2 => .sym
  | _ => .str

/-- `match` and `mask` of the 25 rows of R73. -/
def opcodeTable : List (Word × Word) :=
  [(0x01000000#32, 0xFFFFFFFF#32), (0x10000000#32, 0xFF0000FF#32), (0x11000000#32, 0xFF000000#32),
   (0x12000000#32, 0xFF3FFFFF#32), (0x13000000#32, 0xFF0000FF#32), (0x20000000#32, 0xFFFFFC00#32),
   (0x21000000#32, 0xFFFFFFFF#32), (0x22000000#32, 0xFFFFFF00#32), (0x23000000#32, 0xFFFFFFFF#32)] ++
  [(0x24000000#32, 0xFFFFFFFF#32), (0x25000000#32, 0xFFFFFFFF#32), (0x26000000#32, 0xFFFFFFFF#32),
   (0x30000000#32, 0xFFFFFFFF#32), (0x31000000#32, 0xFFFFFFE0#32), (0x32000000#32, 0xFFFFFFFF#32),
   (0x33000000#32, 0xFFFFFFFF#32), (0x34000000#32, 0xFFFFFFFF#32), (0x35000000#32, 0xFFFFFFFF#32)] ++
  [(0x36000000#32, 0xFFFFFFFF#32), (0x37000000#32, 0xFFFFFFF8#32), (0x40000000#32, 0xFFFFFFE0#32),
   (0x41000000#32, 0xFFFFFF00#32), (0x42000000#32, 0xFFFFFF00#32), (0x50000000#32, 0xFFFFFFFF#32),
   (0x51000000#32, 0xFFFFFFFF#32)]

/-- The pairs (kind, sub) of R231. -/
def errorPairs : List (Nat × Nat) :=
  [(1, 0), (2, 1), (2, 2), (2, 3), (2, 4), (2, 5), (2, 6), (3, 0), (4, 1), (4, 2), (4, 3), (5, 0), (6, 1), (6, 2),
   (7, 1), (7, 2), (7, 3), (7, 4), (7, 5)]

/-- The alphabet string (R33) as character codes. -/
def alphabetCodes : List Nat := "qpzry9x8gf2tvdw0s3jn54khce6mua7l".toList.map Char.toNat

/-- `dst(CFG)` and `src(CFG)` (R25). -/
def dstOf (s : State) : Buf := if s.cfg.dir then .dat else .sym
def srcOf (s : State) : Buf := if s.cfg.dir then .sym else .dat

/-- The number that a sequence of `w`-bit groups spells, first group most significant (R56). -/
def groupsValue (w : Nat) (xs : List Byte) : Nat := xs.foldl (fun a x => a * 2 ^ w + x.toNat) 0

/-- `fold` (R11), on numbers. -/
def lower (c : Byte) : Byte := if 0x41 ≤ c.toNat ∧ c.toNat ≤ 0x5A then BitVec.ofNat 8 (c.toNat + 0x20) else c

/-- `is_printable` (R11). -/
def Printable (c : Byte) : Prop := 0x21 ≤ c.toNat ∧ c.toNat ≤ 0x7E

/-- `expand` (R11): the high parts, a zero, the low parts. -/
def expansion (h : List Byte) : List (BitVec 5) :=
  h.map (fun c => BitVec.ofNat 5 (c.toNat / 32)) ++ [0#5] ++ h.map (fun c => BitVec.ofNat 5 (c.toNat % 32))

/-- `CHK` after a sequence of steps (R133). -/
def feed (chk : BitVec 30) (xs : List (BitVec 5)) : BitVec 30 := xs.foldl polyStep chk

/-- Symbol `i` of the packed value `p`, most significant first (R57). -/
def checksumSymbol (p : BitVec 30) (i : Nat) : BitVec 5 := BitVec.ofNat 5 (p.toNat / 2 ^ (5 * (5 - i)) % 32)

/-- `p` is the index of the last `'1'` of `f` (R193). -/
def LastOne (f : List Byte) (p : Nat) : Prop := f[p]? = some 0x31#8 ∧ ∀ k, p < k → f[k]? ≠ some 0x31#8

/-- `k` is the lowest index of `xs` whose element satisfies `bad`, and `v` that element. -/
def LowestBad (bad : Byte → Prop) (xs : List Byte) (k : Nat) (v : Byte) : Prop :=
  xs[k]? = some v ∧ bad v ∧ ∀ j x, j < k → xs[j]? = some x → ¬ bad x

/-- The symbols as SYM elements. -/
def asElements (syms : List (BitVec 5)) : List Byte := syms.map (fun x => BitVec.ofNat 8 x.toNat)

/-- The "written by" column of R20, with SRST for the buffers (R214). -/
def writesChk : Instr → Bool
  | .pmInit | .pmStep _ | .pmHrp | .pmSym | .ckCreate | .ckVerify | .encode | .decode | .srst => true
  | _ => false
def writesAccBits : Instr → Bool
  | .cvCfg .. | .cvInit | .cvPush _ | .cvFlush | .cvRun | .encode | .decode | .srst => true
  | _ => false
def writesCfg : Instr → Bool
  | .cvCfg .. | .srst => true
  | _ => false
def writesLen : Instr → Bool
  | .setlen .. | .cvInit | .cvPush _ | .cvFlush | .cvRun | .encode | .decode | .srst => true
  | _ => false
def writesCks : Instr → Bool
  | .ckCreate | .encode | .srst => true
  | _ => false
def writesBuffers : Instr → Bool
  | .st .. | .cvPush _ | .cvFlush | .cvRun | .encode | .decode | .srst => true
  | _ => false

/-- The primitive commands (R240). -/
def isPrimitive : Instr → Bool
  | .cvRun | .pmHrp | .pmSym | .ckCreate | .ckVerify | .encode | .decode => false
  | _ => true

/-- Storing a list of elements at `i`, `i + 1`, … of a buffer, one ST each. -/
def storeAll (b : Buf) : Nat → List Byte → List Instr
  | _, [] => []
  | i, v :: vs => .st b (BitVec.ofNat 14 i) v :: storeAll b (i + 1) vs

end Sys2Proof.Claims

open Sys2Proof Sys2Proof.Machine Sys2Proof.Claims

/-! ### Encoding -/

/-- R70 to R73: no operand bit is dropped or moved by the encoding, for every command and every operand value. -/
def Obligations.DecodeInvertsEncode : Prop := ∀ i : Instr, decode (encode i) = .ok i

/-- R73, R74: each word that is a command is the word of one command only. -/
def Obligations.EncodeInvertsDecode : Prop := ∀ (w : Word) (i : Instr), decode w = .ok i → encode i = w

/-- R74, "Equivalently, from the table alone": which words are commands, which fail at the reserved bits, which at the
opcode. -/
def Obligations.DecodeFollowsOpcodeTable : Prop :=
  ∀ w : Word,
    ((∃ i, decode w = .ok i) ↔ ∃ r ∈ opcodeTable, w &&& r.2 = r.1) ∧
    (decode w = .error .reservedBits ↔
      (∀ r ∈ opcodeTable, w &&& r.2 ≠ r.1) ∧ ∃ r ∈ opcodeTable, w >>> 24 = r.1 >>> 24) ∧
    (decode w = .error .illegalOpcode ↔ ∀ r ∈ opcodeTable, w >>> 24 ≠ r.1 >>> 24)

/-- R82, the worked encodings. -/
def Obligations.WorkedEncodings : Prop :=
  decode 0x11C00355#32 = .ok (.st .str 3#14 0x55#8) ∧ decode 0x10401300#32 = .ok (.ld .dat 19#14) ∧
  decode 0x13000100#32 = .ok (.setlen .hrp 1#14) ∧ decode 0x12C00000#32 = .ok (.getlen .str) ∧
  decode 0x31000003#32 = .ok (.pmStep 3#5) ∧ decode 0x37000005#32 = .ok (.ckRd 5#3) ∧
  decode 0x41000071#32 = .ok (.alDec 0x71#8) ∧ decode 0x51000000#32 = .ok .decode ∧
  encode (.st .str 3#14 0x55#8) = 0x11C00355#32 ∧ encode (.ld .dat 19#14) = 0x10401300#32 ∧
  encode (.setlen .hrp 1#14) = 0x13000100#32 ∧ encode (.getlen .str) = 0x12C00000#32 ∧
  encode (.pmStep 3#5) = 0x31000003#32 ∧ encode (.ckRd 5#3) = 0x37000005#32 ∧
  encode (.alDec 0x71#8) = 0x41000071#32 ∧ encode .decode = 0x51000000#32

/-! ### The port and a step -/

/-- R75, R76: a word with an unknown opcode, or with a reserved bit set, is answered by the failure word that carries the
opcode, and changes no state. -/
def Obligations.WordsThatAreNoCommandFail : Prop :=
  ∀ (s : State) (w : Word) (rest : List Input), s.inputs = .command w :: rest →
    ((∀ r ∈ opcodeTable, w >>> 24 ≠ r.1 >>> 24) →
      step s = .next { s with inputs := rest, resp := some (failWord 7#3 1#4 0#14 (w.extractLsb' 24 8)) }) ∧
    ((∃ r ∈ opcodeTable, w >>> 24 = r.1 >>> 24) → (∀ r ∈ opcodeTable, w &&& r.2 ≠ r.1) →
      step s = .next { s with inputs := rest, resp := some (failWord 7#3 2#4 0#14 (w.extractLsb' 24 8)) })

/-- R6, R74: a step on a word that decodes is `exec` of its command, the word being taken from the port first. -/
def Obligations.StepRunsDecodedCommand : Prop :=
  ∀ (s : State) (w : Word) (rest : List Input) (i : Instr),
    s.inputs = .command w :: rest → decode w = .ok i → step s = exec i { s with inputs := rest }

/-- R77: a command word is answered by one response word, in every state; bit 31 tells failure from success. A success word
has bit 30 clear (R78), a failure word a kind that is not 0 and bits 23:22 clear (R79). The response is this command's own:
with no response at the port before it the step is the same. (The port's old response is a field of the model's, log 2: with
and without it the block is in one and the same state.) -/
def Obligations.EveryCommandWordIsAnswered : Prop :=
  ∀ (s : State) (w : Word) (rest : List Input), s.inputs = .command w :: rest →
    ∃ t r, step s = .next t ∧ step { s with resp := none } = .next t ∧ t.inputs = rest ∧ t.resp = some r ∧
      (r.getLsbD 31 = false → r.getLsbD 30 = false) ∧
      (r.getLsbD 31 = true → r.extractLsb' 28 3 ≠ 0#3 ∧ r.extractLsb' 22 2 = 0#2)

/-- R79: the places of the fields of a failure word, and `kind = 0` never occurs. -/
def Obligations.FailureWordLayout : Prop :=
  ∀ f : Failure,
    (failureWord f).getLsbD 31 = true ∧ (failureWord f).extractLsb' 28 3 = kindCode (causeKind f.cause) ∧
    (failureWord f).extractLsb' 24 4 = causeSub f.cause ∧ (failureWord f).extractLsb' 22 2 = 0#2 ∧
    (failureWord f).extractLsb' 8 14 = f.idx ∧ (failureWord f).extractLsb' 0 8 = f.val ∧
    kindCode (causeKind f.cause) ≠ 0#3

/-- R231: "A pair not listed never occurs". -/
def Obligations.OnlyListedErrorsOccur : Prop :=
  ∀ (i : Instr) (s t : State) (r : Word), exec i s = .next t → t.resp = some r → r.getLsbD 31 = true →
    ((r.extractLsb' 28 3).toNat, (r.extractLsb' 24 4).toNat) ∈ errorPairs

/-- R232: DECODE fails with kinds 1, 2, 3 only, ENCODE with kind 4 only. -/
def Obligations.KindsOfEncodeAndDecode : Prop :=
  (∀ (s t : State) (r : Word), exec .decode s = .next t → t.resp = some r → r.getLsbD 31 = true →
    (r.extractLsb' 28 3 = 1#3 ∨ r.extractLsb' 28 3 = 2#3 ∨ r.extractLsb' 28 3 = 3#3)) ∧
  (∀ (s t : State) (r : Word), exec .encode s = .next t → t.resp = some r → r.getLsbD 31 = true →
    r.extractLsb' 28 3 = 4#3)

/-- R7, R262: every command is defined in every state, so a run of any length never stops. -/
def Obligations.RunsNeverStop : Prop := ∀ (s : State) (k : Nat), s.Runs k

/-! ### Reset and the invariant -/

/-- R36, R260: the reset values. -/
def Obligations.ResetValues : Prop :=
  State.reset.chk = 1#30 ∧ State.reset.acc = 0#16 ∧ State.reset.bits = 0#4 ∧
  State.reset.cfg.fromBits = 8#4 ∧ State.reset.cfg.toBits = 5#4 ∧ State.reset.cfg.pad = true ∧
  State.reset.cfg.dir = false ∧ (∀ b, State.reset.lenOf b = 0) ∧ (∀ i : Fin 6, State.reset.cks[i] = 0#5) ∧
  (∀ b k, State.reset.element b k = none)

/-- R260: the hardware reset and SRST have the same effect, the reset state; a response belongs to SRST only. -/
def Obligations.HardwareResetIsSrst : Prop :=
  (∀ s, exec .srst s = .next { State.reset with
    config := s.config, inputs := s.inputs, draws := s.draws, resp := some (okWord 0#30) }) ∧
  (∀ s rest, s.inputs = .hardReset :: rest → ∃ t u, step s = .next t ∧ exec .srst s = .next u ∧
    t = { u with inputs := rest, resp := t.resp })

/-- The reset state meets the invariant. -/
def Obligations.ResetMeetsInvariant : Prop := State.reset.Inv

/-- R24, R25, R26, R50, R106: in every state that meets it, a step keeps the invariant: legal widths, `BITS <= 7`, lengths
within the capacity, buffers in canonical form within their range. -/
def Obligations.StepKeepsInvariant : Prop := ∀ s t : State, s.Inv → step s = .next t → t.Inv

/-! ### System and buffers -/

/-- R214. -/
def Obligations.SrstRestoresReset : Prop :=
  DecodesAs 0x01#8 0x00FFFFFF#32 (fun _ => .srst) ∧
  ∀ s, ∃ t, exec .srst s = .next t ∧ t.resp = some (okWord 0#30) ∧
    t.chk = 1#30 ∧ t.acc = 0#16 ∧ t.bits = 0#4 ∧ t.cfg = ⟨8#4, 5#4, true, false⟩ ∧ (∀ b, t.lenOf b = 0) ∧
    (∀ i : Fin 6, t.cks[i] = 0#5) ∧ (∀ b k, t.element b k = none)

/-- R210. An element that nothing has written reads as some value (log 4). -/
def Obligations.LdReadsElement : Prop :=
  DecodesAs 0x10#8 0x000000FF#32 (fun w => .ld (bufNamed (w.extractLsb' 22 2)) (w.extractLsb' 8 14)) ∧
  ∀ (s : State) (b : Buf) (idx : BitVec 14),
    (idx.toNat ≥ s.config.cap → exec (.ld b idx) s = .next { s with resp := some (failWord 7#3 4#4 idx 0#8) }) ∧
    (idx.toNat < s.config.cap → ∀ v, s.element b idx.toNat = some v →
      exec (.ld b idx) s = .next { s with resp := some (okWord (v.setWidth 30)) }) ∧
    (idx.toNat < s.config.cap → s.element b idx.toNat = none →
      ∃ (v : Byte) (d : Nat), exec (.ld b idx) s = .next { s with draws := d, resp := some (okWord (v.setWidth 30)) })

/-- R211. -/
def Obligations.StWritesElement : Prop :=
  DecodesAs 0x11#8 0#32 (fun w => .st (bufNamed (w.extractLsb' 22 2)) (w.extractLsb' 8 14) (w.extractLsb' 0 8)) ∧
  ∀ (s : State) (b : Buf) (idx : BitVec 14) (v : Byte),
    (idx.toNat ≥ s.config.cap → exec (.st b idx v) s = .next { s with resp := some (failWord 7#3 4#4 idx v) }) ∧
    (idx.toNat < s.config.cap → ∃ t, exec (.st b idx v) s = .next t ∧
      t = { s with mem := t.mem, resp := some (okWord 0#30) } ∧
      ∀ b' k, t.element b' k = if b' = b ∧ k = idx.toNat then some v else s.element b' k)

/-- R212. -/
def Obligations.GetlenReadsLength : Prop :=
  DecodesAs 0x12#8 0x003FFFFF#32 (fun w => .getlen (bufNamed (w.extractLsb' 22 2))) ∧
  ∀ (s : State) (b : Buf),
    exec (.getlen b) s = .next { s with resp := some (okWord (BitVec.ofNat 30 (s.lenOf b))) }

/-- R213. -/
def Obligations.SetlenWritesLength : Prop :=
  DecodesAs 0x13#8 0x000000FF#32 (fun w => .setlen (bufNamed (w.extractLsb' 22 2)) (w.extractLsb' 8 14)) ∧
  ∀ (s : State) (b : Buf) (n : BitVec 14),
    (n.toNat > s.config.cap → exec (.setlen b n) s = .next { s with resp := some (failWord 7#3 3#4 n 0#8) }) ∧
    (n.toNat ≤ s.config.cap → ∃ t, exec (.setlen b n) s = .next t ∧
      t = { s with len := t.len, resp := some (okWord 0#30) } ∧
      ∀ b', t.lenOf b' = if b' = b then n.toNat else s.lenOf b')

/-! ### The Bit Converter -/

/-- R101. -/
def Obligations.CvCfgConfigures : Prop :=
  DecodesAs 0x20#8 0x00FFFC00#32
    (fun w => .cvCfg (w.extractLsb' 0 4) (w.extractLsb' 4 4) (w.getLsbD 8) (w.getLsbD 9)) ∧
  ∀ (s : State) (f t : BitVec 4) (pad dir : Bool),
    ((1 ≤ f.toNat ∧ f.toNat ≤ 8) ∧ (1 ≤ t.toNat ∧ t.toNat ≤ 8) →
      exec (.cvCfg f t pad dir) s =
        .next { s with cfg := ⟨f, t, pad, dir⟩, acc := 0#16, bits := 0#4, resp := some (okWord 0#30) }) ∧
    (¬ ((1 ≤ f.toNat ∧ f.toNat ≤ 8) ∧ (1 ≤ t.toNat ∧ t.toNat ≤ 8)) →
      exec (.cvCfg f t pad dir) s =
        .next { s with resp := some (failWord 7#3 3#4 0#14 (BitVec.ofNat 8 (16 * t.toNat + f.toNat))) })

/-- R102, R112: the two read commands of the converter. -/
def Obligations.ConverterReadCommands : Prop :=
  DecodesAs 0x26#8 0x00FFFFFF#32 (fun _ => .cvRdcfg) ∧ DecodesAs 0x25#8 0x00FFFFFF#32 (fun _ => .cvRd) ∧
  ∀ s : State,
    exec .cvRdcfg s = .next { s with resp := some (okWord (BitVec.ofNat 30
      (512 * s.cfg.dir.toNat + 256 * s.cfg.pad.toNat + 16 * s.cfg.toBits.toNat + s.cfg.fromBits.toNat))) } ∧
    exec .cvRd s = .next { s with resp := some (okWord (BitVec.ofNat 30 (65536 * s.bits.toNat + s.acc.toNat))) }

/-- R103. -/
def Obligations.CvInitClears : Prop :=
  DecodesAs 0x21#8 0x00FFFFFF#32 (fun _ => .cvInit) ∧
  ∀ s : State, ∃ t, exec .cvInit s = .next t ∧
    t = { s with acc := 0#16, bits := 0#4, len := t.len, resp := some (okWord 0#30) } ∧
    ∀ b, t.lenOf b = if b = dstOf s then 0 else s.lenOf b

/-- R104: the groups a push emits, in closed form, and its two failures. The statement covers every `BITS` up to 7; that a
push follows the pseudocode also where an unspecified `BITS` is `TO` or more, and can then emit more than 8 groups, is the
model's deduction (log 9). -/
def Obligations.CvPushEmitsGroups : Prop :=
  DecodesAs 0x22#8 0x00FFFF00#32 (fun w => .cvPush (w.extractLsb' 0 8)) ∧
  ∀ (s : State) (v : Byte) (F T g L : Nat), s.Inv → F = s.cfg.fromBits.toNat → T = s.cfg.toBits.toNat →
    g = (s.bits.toNat + F) / T → L = s.lenOf (dstOf s) →
    (v.toNat ≥ 2 ^ F → exec (.cvPush v) s = .next { s with resp := some (failWord 5#3 0#4 0#14 v) }) ∧
    (v.toNat < 2 ^ F → L + g > s.config.cap →
      exec (.cvPush v) s = .next { s with resp := some (failWord 7#3 5#4 0#14 0#8) }) ∧
    (v.toNat < 2 ^ F → L + g ≤ s.config.cap → ∃ t, exec (.cvPush v) s = .next t ∧
      t = { s with acc := t.acc, bits := t.bits, len := t.len, mem := t.mem,
                   resp := some (okWord (BitVec.ofNat 30 g)) } ∧
      t.acc = s.acc <<< F ||| v.setWidth 16 ∧ t.bits.toNat = (s.bits.toNat + F) % T ∧
      (∀ b, t.lenOf b = if b = dstOf s then L + g else s.lenOf b) ∧
      ∀ b k, t.element b k =
        if b = dstOf s ∧ L ≤ k ∧ k < L + g then
          some (BitVec.ofNat 8 (t.acc.toNat / 2 ^ (s.bits.toNat + F - (k - L + 1) * T) % 2 ^ T))
        else s.element b k)

/-- R108: the live residual `ACC[BITS-1:0]` moved to the top of a group, emitted (padding) or tested (strict). -/
def Obligations.CvFlushEndsInput : Prop :=
  DecodesAs 0x23#8 0x00FFFFFF#32 (fun _ => .cvFlush) ∧
  ∀ (s : State) (F T B L r : Nat), s.Inv → F = s.cfg.fromBits.toNat → T = s.cfg.toBits.toNat → B = s.bits.toNat →
    L = s.lenOf (dstOf s) → B ≤ T → r = s.acc.toNat % 2 ^ B * 2 ^ (T - B) →
    (s.cfg.pad = true → B = 0 →
      exec .cvFlush s = .next { s with acc := 0#16, bits := 0#4, resp := some (okWord 0#30) }) ∧
    (s.cfg.pad = true → 0 < B → L + 1 > s.config.cap →
      exec .cvFlush s = .next { s with resp := some (failWord 7#3 5#4 0#14 0#8) }) ∧
    (s.cfg.pad = true → 0 < B → L + 1 ≤ s.config.cap → ∃ t, exec .cvFlush s = .next t ∧
      t = { s with acc := 0#16, bits := 0#4, len := t.len, mem := t.mem, resp := some (okWord 1#30) } ∧
      (∀ b, t.lenOf b = if b = dstOf s then L + 1 else s.lenOf b) ∧
      ∀ b k, t.element b k = if b = dstOf s ∧ k = L then some (BitVec.ofNat 8 r) else s.element b k) ∧
    (s.cfg.pad = false → F ≤ B →
      exec .cvFlush s = .next { s with resp := some (failWord 6#3 1#4 0#14 (BitVec.ofNat 8 B)) }) ∧
    (s.cfg.pad = false → B < F → r ≠ 0 →
      exec .cvFlush s = .next { s with resp := some (failWord 6#3 2#4 0#14 (BitVec.ofNat 8 r)) }) ∧
    (s.cfg.pad = false → B < F → r = 0 →
      exec .cvFlush s = .next { s with acc := 0#16, bits := 0#4, resp := some (okWord 0#30) })

/-- The model's choice (log 8): where an unspecified `BITS` is larger than `TO`, the padded residual is some value of `TO`
bits, and the rest of R108 holds as it stands. -/
def Obligations.CvFlushOfUnspecifiedBits : Prop :=
  ∀ (s : State) (F T B L : Nat), s.Inv → F = s.cfg.fromBits.toNat → T = s.cfg.toBits.toNat → B = s.bits.toNat →
    L = s.lenOf (dstOf s) → T < B →
    (s.cfg.pad = true → L + 1 > s.config.cap →
      exec .cvFlush s = .next { s with resp := some (failWord 7#3 5#4 0#14 0#8) }) ∧
    (s.cfg.pad = true → L + 1 ≤ s.config.cap → ∃ t r d, r < 2 ^ T ∧ exec .cvFlush s = .next t ∧
      t = { s with acc := 0#16, bits := 0#4, len := t.len, mem := t.mem, draws := d, resp := some (okWord 1#30) } ∧
      (∀ b, t.lenOf b = if b = dstOf s then L + 1 else s.lenOf b) ∧
      ∀ b k, t.element b k = if b = dstOf s ∧ k = L then some (BitVec.ofNat 8 r) else s.element b k) ∧
    (s.cfg.pad = false → F ≤ B →
      exec .cvFlush s = .next { s with resp := some (failWord 6#3 1#4 0#14 (BitVec.ofNat 8 B)) }) ∧
    (s.cfg.pad = false → B < F → ∃ r d, r < 2 ^ T ∧
      exec .cvFlush s = .next
        (if r = 0 then { s with acc := 0#16, bits := 0#4, draws := d, resp := some (okWord 0#30) }
         else { s with draws := d, resp := some (failWord 6#3 2#4 0#14 (BitVec.ofNat 8 r)) }))

/-- R100, R56: `convert` regroups the bits of its input, most significant first: it fails at the lowest value that does not
fit `F` bits; with padding the output spells the input followed by zeros; in strict mode the left-over bits must be fewer
than `F` and all zero, and the output spells the rest. -/
def Obligations.ConvertRegroupsBits : Prop :=
  ∀ (F T n q r N : Nat) (xs : List Byte), 1 ≤ F → F ≤ 8 → 1 ≤ T → T ≤ 8 →
    n = xs.length → q = n * F / T → r = n * F % T → N = groupsValue F xs →
    (∀ pad k v, LowestBad (fun x => 2 ^ F ≤ x.toNat) xs k v → convert F T pad xs = .error (.outOfRange k v)) ∧
    ((∀ x ∈ xs, x.toNat < 2 ^ F) →
      (∃ out, convert F T true xs = .ok out ∧ out.length = (n * F + T - 1) / T ∧ (∀ x ∈ out, x.toNat < 2 ^ T) ∧
        groupsValue T out = N * 2 ^ (T * out.length - n * F)) ∧
      (F ≤ r → convert F T false xs = .error (.residual r)) ∧
      (r < F → N % 2 ^ r ≠ 0 → convert F T false xs = .error (.nonzeroPad (N % 2 ^ r * 2 ^ (T - r)))) ∧
      (r < F → N % 2 ^ r = 0 → ∃ out, convert F T false xs = .ok out ∧ out.length = q ∧
        (∀ x ∈ out, x.toNat < 2 ^ T) ∧ groupsValue T out = N / 2 ^ r))

/-- R111: CV.RUN computes `convert` of the source into the destination; it fails exactly when `convert` fails or the result
is longer than the capacity. A source element that nothing has written stands for one value, read once (the model's choice,
logs 4 and 5). -/
def Obligations.CvRunComputesConvert : Prop :=
  DecodesAs 0x24#8 0x00FFFFFF#32 (fun _ => .cvRun) ∧
  ∀ s : State, s.Inv → ∃ xs t, s.ReadsAs (srcOf s) xs ∧ exec .cvRun s = .next t ∧
    (∀ out, convert s.cfg.fromBits.toNat s.cfg.toBits.toNat s.cfg.pad xs = .ok out → out.length ≤ s.config.cap →
      t = { s with acc := 0#16, bits := 0#4, len := t.len, mem := t.mem, draws := t.draws,
                   resp := some (okWord (BitVec.ofNat 30 out.length)) } ∧
      (∀ b, t.lenOf b = if b = dstOf s then out.length else s.lenOf b) ∧
      ∀ b k, t.element b k = if b = dstOf s ∧ k < out.length then out[k]? else s.element b k) ∧
    (∀ out, convert s.cfg.fromBits.toNat s.cfg.toBits.toNat s.cfg.pad xs = .ok out → out.length > s.config.cap →
      t.resp = some (failWord 7#3 5#4 0#14 0#8)) ∧
    (∀ e, convert s.cfg.fromBits.toNat s.cfg.toBits.toNat s.cfg.pad xs = .error e → Failed t)

/-- R110, R231, R243: which error a failing CV.RUN reports, element by element. The `k` elements before the lowest bad one
emit `k * F / T` groups: where they do not fit, `CAPACITY` comes first, where they do, the bad element. Without a bad
element: `CAPACITY` where the groups of the pushes, or with padding the last one, do not fit; else the flush's errors. -/
def Obligations.CvRunReportsConvertErrors : Prop :=
  ∀ (s : State) (xs : List Byte) (F T n : Nat), s.Inv → s.Holds (srcOf s) xs → F = s.cfg.fromBits.toNat →
    T = s.cfg.toBits.toNat → n = xs.length →
    ∃ t, exec .cvRun s = .next t ∧
      (∀ k v, LowestBad (fun x => 2 ^ F ≤ x.toNat) xs k v → s.config.cap < k * F / T →
        t.resp = some (failWord 7#3 5#4 0#14 0#8)) ∧
      (∀ k v, LowestBad (fun x => 2 ^ F ≤ x.toNat) xs k v → k * F / T ≤ s.config.cap →
        t.resp = some (failWord 5#3 0#4 (BitVec.ofNat 14 k) v)) ∧
      ((∀ x ∈ xs, x.toNat < 2 ^ F) → s.config.cap < n * F / T → t.resp = some (failWord 7#3 5#4 0#14 0#8)) ∧
      ((∀ x ∈ xs, x.toNat < 2 ^ F) → s.cfg.pad = true → s.config.cap < (n * F + T - 1) / T →
        t.resp = some (failWord 7#3 5#4 0#14 0#8)) ∧
      (∀ m, convert F T s.cfg.pad xs = .error (.residual m) → n * F / T ≤ s.config.cap →
        t.resp = some (failWord 6#3 1#4 0#14 (BitVec.ofNat 8 m))) ∧
      (∀ r, convert F T s.cfg.pad xs = .error (.nonzeroPad r) → n * F / T ≤ s.config.cap →
        t.resp = some (failWord 6#3 2#4 0#14 (BitVec.ofNat 8 r)))

/-- R105, R109: the length laws of a conversion made of CV.INIT, pushes, and a flush that succeeds. -/
def Obligations.ConversionLengthLaws : Prop :=
  ∀ (s : State) (xs : List Byte) (F T n : Nat), s.Inv → F = s.cfg.fromBits.toNat → T = s.cfg.toBits.toNat →
    n = xs.length → (∀ x ∈ xs, x.toNat < 2 ^ F) → n * F / T ≤ s.config.cap →
    ∃ t, execAll (.cvInit :: xs.map .cvPush) s = .next t ∧ t.lenOf (dstOf s) = n * F / T ∧
      t.bits.toNat = n * F % T ∧
      ∀ u, exec .cvFlush t = .next u → Succeeded u →
        u.lenOf (dstOf s) = if s.cfg.pad then (n * F + T - 1) / T else n * F / T

/-- R107: what the converter emits and tests does not depend on the dead bits of `ACC`. -/
def Obligations.DeadBitsDoNotMatter : Prop :=
  ∀ (s : State) (a : BitVec 16) (i : Instr), s.Inv → s.bits.toNat ≤ s.cfg.toBits.toNat →
    a.toNat % 2 ^ s.bits.toNat = s.acc.toNat % 2 ^ s.bits.toNat → i = .cvFlush ∨ (∃ v, i = .cvPush v) →
    ∃ t u, exec i s = .next t ∧ exec i { s with acc := a } = .next u ∧ u = { t with acc := u.acc } ∧
      u.acc.toNat % 2 ^ u.bits.toNat = t.acc.toNat % 2 ^ u.bits.toNat

/-! ### The Checksum Engine -/

/-- R130, R132. -/
def Obligations.PmInitAndPmRd : Prop :=
  DecodesAs 0x30#8 0x00FFFFFF#32 (fun _ => .pmInit) ∧ DecodesAs 0x32#8 0x00FFFFFF#32 (fun _ => .pmRd) ∧
  ∀ s : State, exec .pmInit s = .next { s with chk := 1#30, resp := some (okWord 0#30) } ∧
    exec .pmRd s = .next { s with resp := some (okWord s.chk) }

/-- R131, with the generators of R32: the low 25 bits move up by 5, the symbol fills the low 5 bits, and each of the top 5
bits that is set applies its generator. -/
def Obligations.PmStepAppliesGenerators : Prop :=
  DecodesAs 0x31#8 0x00FFFFE0#32 (fun w => .pmStep (w.extractLsb' 0 5)) ∧
  ∀ (s : State) (b : BitVec 5) (c : BitVec 30),
    c = BitVec.ofNat 30 (s.chk.toNat % 2 ^ 25 * 32 + b.toNat)
      ^^^ (if s.chk.getLsbD 25 then 0x3b6a57b2#30 else 0#30) ^^^ (if s.chk.getLsbD 26 then 0x26508e6d#30 else 0#30)
      ^^^ (if s.chk.getLsbD 27 then 0x1ea119fa#30 else 0#30) ^^^ (if s.chk.getLsbD 28 then 0x3d4233dd#30 else 0#30)
      ^^^ (if s.chk.getLsbD 29 then 0x2a1462b3#30 else 0#30) →
    exec (.pmStep b) s = .next { s with chk := c, resp := some (okWord c) }

/-- R134: the HRP expansion, of the bytes as stored. An element that nothing has written feeds as some byte, each of the
two loops reading it anew (logs 4 and 5). -/
def Obligations.PmHrpFeedsExpansion : Prop :=
  DecodesAs 0x33#8 0x00FFFFFF#32 (fun _ => .pmHrp) ∧
  (∀ (s : State) (h : List Byte), s.Holds .hrp h →
    exec .pmHrp s =
      .next { s with chk := feed s.chk (expansion h), resp := some (okWord (feed s.chk (expansion h))) }) ∧
  (∀ s : State, ∃ his los d c, s.ReadsAs .hrp his ∧ s.ReadsAs .hrp los ∧
    c = feed s.chk (his.map (fun x => BitVec.ofNat 5 (x.toNat / 32)) ++ [0#5] ++
      los.map (fun x => BitVec.ofNat 5 (x.toNat % 32))) ∧
    exec .pmHrp s = .next { s with chk := c, draws := d, resp := some (okWord c) })

/-- R135. -/
def Obligations.PmSymFeedsSymbols : Prop :=
  DecodesAs 0x34#8 0x00FFFFFF#32 (fun _ => .pmSym) ∧
  ∀ (s : State) (vs : List Byte), s.Holds .sym vs →
    ((∀ v ∈ vs, v.toNat ≤ 31) → ∀ c, c = feed s.chk (vs.map (fun v => BitVec.ofNat 5 v.toNat)) →
      exec .pmSym s = .next { s with chk := c, resp := some (okWord c) }) ∧
    (∀ k v, LowestBad (fun x => 31 < x.toNat) vs k v →
      ∃ t, exec .pmSym s = .next t ∧
        t = { s with chk := t.chk, draws := t.draws, resp := some (failWord 5#3 0#4 (BitVec.ofNat 14 k) v) })

/-- R137, R57. -/
def Obligations.CkCreateUnpacksChecksum : Prop :=
  DecodesAs 0x35#8 0x00FFFFFF#32 (fun _ => .ckCreate) ∧
  ∀ (s : State) (h vs : List Byte), s.Holds .hrp h → s.Holds .sym vs →
    ((∀ v ∈ vs, v.toNat ≤ 31) → ∀ c p, c = feed 1#30 (expansion h ++ vs.map (fun v => BitVec.ofNat 5 v.toNat) ++
        List.replicate 6 0#5) → p = c ^^^ 1#30 →
      ∃ t, exec .ckCreate s = .next t ∧ t = { s with chk := c, cks := t.cks, resp := some (okWord p) } ∧
        ∀ i : Fin 6, t.cks[i] = checksumSymbol p i) ∧
    (∀ k v, LowestBad (fun x => 31 < x.toNat) vs k v →
      ∃ t, exec .ckCreate s = .next t ∧
        t = { s with chk := t.chk, cks := t.cks, draws := t.draws,
                     resp := some (failWord 5#3 0#4 (BitVec.ofNat 14 k) v) })

/-- R138. -/
def Obligations.CkVerifyTellsVerdict : Prop :=
  DecodesAs 0x36#8 0x00FFFFFF#32 (fun _ => .ckVerify) ∧
  ∀ (s : State) (h vs : List Byte), s.Holds .hrp h → s.Holds .sym vs →
    ((∀ v ∈ vs, v.toNat ≤ 31) → ∀ c, c = feed 1#30 (expansion h ++ vs.map (fun v => BitVec.ofNat 5 v.toNat)) →
      exec .ckVerify s = .next { s with chk := c, resp := some (okWord (if c = 1#30 then 1#30 else 0#30)) }) ∧
    (∀ k v, LowestBad (fun x => 31 < x.toNat) vs k v →
      ∃ t, exec .ckVerify s = .next t ∧
        t = { s with chk := t.chk, draws := t.draws, resp := some (failWord 5#3 0#4 (BitVec.ofNat 14 k) v) })

/-- R139. -/
def Obligations.CkRdReadsChecksumSymbol : Prop :=
  DecodesAs 0x37#8 0x00FFFFF8#32 (fun w => .ckRd (w.extractLsb' 0 3)) ∧
  ∀ (s : State) (i : BitVec 3),
    (∀ h : i.toNat < 6, exec (.ckRd i) s = .next { s with resp := some (okWord (s.cks[i.toNat].setWidth 30)) }) ∧
    (5 < i.toNat → exec (.ckRd i) s = .next { s with resp := some (failWord 7#3 3#4 0#14 (i.setWidth 8)) })

/-- R133: the step is linear over XOR in the pair (`CHK`, symbol). -/
def Obligations.PolymodStepIsLinear : Prop :=
  ∀ (c1 c2 : BitVec 30) (b1 b2 : BitVec 5), polyStep (c1 ^^^ c2) (b1 ^^^ b2) = polyStep c1 b1 ^^^ polyStep c2 b2

/-- R140: the six symbols CK.CREATE leaves, stored after the data symbols, make CK.VERIFY answer 1. -/
def Obligations.CreateThenVerify : Prop :=
  ∀ (s : State) (h vs : List Byte), s.Inv → s.Holds .hrp h → s.Holds .sym vs → (∀ v ∈ vs, v.toNat ≤ 31) →
    vs.length + 6 ≤ s.config.cap →
    ∃ t u, exec .ckCreate s = .next t ∧
      execAll (storeAll .sym vs.length (asElements t.cks.toList) ++
        [.setlen .sym (BitVec.ofNat 14 (vs.length + 6)), .ckVerify]) t = .next u ∧
      u.resp = some (okWord 1#30)

/-- R141 for one symbol: a sequence that verifies does not verify with one symbol changed. -/
def Obligations.OneChangedSymbolIsDetected : Prop :=
  ∀ (xs : List (BitVec 5)) (i : Nat) (b : BitVec 5), i < xs.length → xs[i]? ≠ some b → feed 1#30 xs = 1#30 →
    feed 1#30 (xs.set i b) ≠ 1#30

/-! ### The Alphabet unit -/

/-- R162, R33. -/
def Obligations.AlEncLooksUpAlphabet : Prop :=
  DecodesAs 0x40#8 0x00FFFFE0#32 (fun w => .alEnc (w.extractLsb' 0 5)) ∧
  ∀ (s : State) (b : BitVec 5) (code : Nat), alphabetCodes[b.toNat]? = some code →
    exec (.alEnc b) s = .next { s with resp := some (okWord (BitVec.ofNat 30 code)) }

/-- R163. -/
def Obligations.AlFoldFoldsCase : Prop :=
  DecodesAs 0x42#8 0x00FFFF00#32 (fun w => .alFold (w.extractLsb' 0 8)) ∧
  ∀ (s : State) (c : Byte),
    (Printable c → exec (.alFold c) s = .next { s with resp := some (okWord (BitVec.ofNat 30 (lower c).toNat)) }) ∧
    (¬ Printable c → exec (.alFold c) s = .next { s with resp := some (failWord 1#3 0#4 0#14 c) })

/-- R164, R34: the look-up inverts the alphabet and does not fold. -/
def Obligations.AlDecInvertsAlphabet : Prop :=
  DecodesAs 0x41#8 0x00FFFF00#32 (fun w => .alDec (w.extractLsb' 0 8)) ∧
  ∀ (s : State) (c : Byte),
    (∀ k : Nat, alphabetCodes[k]? = some c.toNat →
      exec (.alDec c) s = .next { s with resp := some (okWord (BitVec.ofNat 30 k)) }) ∧
    (c.toNat ∉ alphabetCodes → exec (.alDec c) s = .next { s with resp := some (failWord 2#3 4#4 0#14 c) })

/-- R165: AL.DEC after AL.ENC gives the symbol back, AL.ENC after AL.DEC the character, and AL.DEC accepts the fold of every
upper-case letter of the alphabet. -/
def Obligations.AlphabetRoundTrip : Prop :=
  ∀ s : State,
    (∀ b : BitVec 5, ∃ c : Byte, exec (.alEnc b) s = .next { s with resp := some (okWord (c.setWidth 30)) } ∧
      exec (.alDec c) s = .next { s with resp := some (okWord (b.setWidth 30)) }) ∧
    (∀ (c : Byte) (t : State), exec (.alDec c) s = .next t → Succeeded t →
      ∃ b : BitVec 5, t.resp = some (okWord (b.setWidth 30)) ∧
        exec (.alEnc b) s = .next { s with resp := some (okWord (c.setWidth 30)) }) ∧
    (∀ c : Byte, 0x41 ≤ c.toNat → c.toNat ≤ 0x5A → c.toNat + 0x20 ∈ alphabetCodes →
      ∃ t, exec (.alFold c) s = .next { s with resp := some (okWord ((lower c).setWidth 30)) } ∧
        exec (.alDec (lower c)) s = .next t ∧ Succeeded t)

/-! ### ENCODE -/

/-- R180, R184, R185: a successful ENCODE, with the state it leaves. -/
def Obligations.EncodeWritesString : Prop :=
  DecodesAs 0x50#8 0x00FFFFFF#32 (fun _ => .encode) ∧
  ∀ (s : State) (hrp h dat ds : List Byte) (syms cks : List (BitVec 5)) (c : BitVec 30) (m T : Nat),
    s.Inv → s.Holds .hrp hrp → s.Holds .dat dat → 0 < hrp.length → (∀ x ∈ hrp, Printable x) →
    m = (8 * dat.length + 4) / 5 → T = hrp.length + 1 + m + 6 → T ≤ s.config.cap →
    h = hrp.map lower → convert 8 5 true dat = .ok ds → syms = ds.map (fun x => BitVec.ofNat 5 x.toNat) →
    c = feed 1#30 (expansion h ++ syms ++ List.replicate 6 0#5) →
    cks = (List.range 6).map (checksumSymbol (c ^^^ 1#30)) →
    ∃ (t : State) (str : List Byte), exec .encode s = .next t ∧
      str.map BitVec.toNat = h.map BitVec.toNat ++ [0x31] ++
        (syms ++ cks).map (fun b => alphabetCodes.getD b.toNat 0) ∧
      str.length = T ∧ ds.length = m ∧
      t = { s with chk := c, acc := 0#16, bits := 0#4, len := t.len, cks := t.cks, mem := t.mem,
                   resp := some (okWord (BitVec.ofNat 30 T)) } ∧
      t.cks.toList = cks ∧
      (∀ b, t.lenOf b = if b = .str then T else if b = .sym then m else s.lenOf b) ∧
      ∀ b k, t.element b k =
        if b = .str ∧ k < T then str[k]? else if b = .sym ∧ k < m then ds[k]? else s.element b k

/-- R181: the three checks of ENCODE in their order. -/
def Obligations.EncodeChecksInOrder : Prop :=
  ∀ (s : State) (L T : Nat), L = s.lenOf .hrp → T = L + 1 + (8 * s.lenOf .dat + 4) / 5 + 6 →
    (L = 0 → ∃ t, exec .encode s = .next t ∧ t.resp = some (failWord 4#3 1#4 0#14 0#8)) ∧
    (0 < L → s.config.cap < T → ∃ t, exec .encode s = .next t ∧ t.resp = some (failWord 4#3 3#4 0#14 0#8)) ∧
    (∀ hrp k v, 0 < L → T ≤ s.config.cap → s.Holds .hrp hrp → LowestBad (fun x => ¬ Printable x) hrp k v →
      ∃ t, exec .encode s = .next t ∧ t.resp = some (failWord 4#3 2#4 (BitVec.ofNat 14 k) v))

/-- R184: the output holds printable characters only, none of them upper case, and its last '1' is the separator. -/
def Obligations.EncodeOutputCharacters : Prop :=
  ∀ (s t : State), s.Inv → s.Written .hrp → exec .encode s = .next t → Succeeded t →
    t.element .str (s.lenOf .hrp) = some 0x31#8 ∧
    ∀ k, k < t.lenOf .str → ∃ v, t.element .str k = some v ∧ Printable v ∧ ¬ (0x41 ≤ v.toNat ∧ v.toNat ≤ 0x5A) ∧
      (s.lenOf .hrp < k → v ≠ 0x31#8)

/-- R182, R196, R264: over buffers that hold known values, ENCODE and DECODE depend on no register but the lengths, and keep
`CFG` (DECODE also `CKS`). On success all they leave is the same; on a failure the response, the lengths and the parts R241
leaves unchanged: the rest is unspecified there. -/
def Obligations.EncodeAndDecodeIgnoreRegisters : Prop :=
  ∀ (s s' : State), s' = { s with chk := s'.chk, acc := s'.acc, bits := s'.bits, cfg := s'.cfg, cks := s'.cks } →
    (s.Written .hrp → s.Written .dat → ∃ t t', exec .encode s = .next t ∧ exec .encode s' = .next t' ∧
      t'.resp = t.resp ∧ (Succeeded t → t.cfg = s.cfg ∧ t' = { t with cfg := s'.cfg }) ∧
      (Failed t → t.cfg = s.cfg ∧ t'.cfg = s'.cfg ∧ (∀ b, t'.lenOf b = t.lenOf b) ∧
        ∀ b k, b = .hrp ∨ b = .dat → t.element b k = s.element b k ∧ t'.element b k = s.element b k)) ∧
    (s.Written .str → ∃ t t', exec .decode s = .next t ∧ exec .decode s' = .next t' ∧
      t'.resp = t.resp ∧
      (Succeeded t → t.cfg = s.cfg ∧ t.cks = s.cks ∧ t' = { t with cfg := s'.cfg, cks := s'.cks }) ∧
      (Failed t → t.cfg = s.cfg ∧ t'.cfg = s'.cfg ∧ t.cks = s.cks ∧ t'.cks = s'.cks ∧
        (∀ b, t'.lenOf b = t.lenOf b) ∧
        ∀ k, t.element .str k = s.element .str k ∧ t'.element .str k = s.element .str k))

/-! ### DECODE -/

/-- R192: step 1. -/
def Obligations.DecodeChecksRangeFirst : Prop :=
  ∀ (s : State) (str : List Byte) (k : Nat) (v : Byte), s.Holds .str str →
    LowestBad (fun x => ¬ Printable x) str k v →
    ∃ t, exec .decode s = .next t ∧ t.resp = some (failWord 1#3 0#4 (BitVec.ofNat 14 k) v)

/-- R193: step 2. -/
def Obligations.DecodeLocatesSeparator : Prop :=
  ∀ (s : State) (str f : List Byte), s.Holds .str str → (∀ x ∈ str, Printable x) → f = str.map lower →
    (0x31#8 ∉ f → ∃ t, exec .decode s = .next t ∧ t.resp = some (failWord 2#3 1#4 0#14 0#8)) ∧
    (LastOne f 0 → ∃ t, exec .decode s = .next t ∧ t.resp = some (failWord 2#3 2#4 0#14 0#8)) ∧
    (∀ p, LastOne f p → 0 < p → f.length - 1 - p < 6 → ∃ t, exec .decode s = .next t ∧
      t.resp = some (failWord 2#3 3#4 (BitVec.ofNat 14 p) (BitVec.ofNat 8 (f.length - 1 - p))))

/-- R194: step 3, the first character after the separator that is not in the alphabet. -/
def Obligations.DecodeMapsCharacters : Prop :=
  ∀ (s : State) (str f : List Byte) (p k : Nat) (v : Byte), s.Holds .str str → (∀ x ∈ str, Printable x) →
    f = str.map lower → LastOne f p → 0 < p → 6 ≤ f.length - 1 - p →
    LowestBad (fun x => x.toNat ∉ alphabetCodes) (f.drop (p + 1)) k v →
    ∃ t, exec .decode s = .next t ∧ t.resp = some (failWord 2#3 4#4 (BitVec.ofNat 14 (p + 1 + k)) v)

/-- R195: step 4. -/
def Obligations.DecodeVerifiesChecksum : Prop :=
  ∀ (s : State) (str f : List Byte) (p : Nat) (syms : List (BitVec 5)), s.Holds .str str → (∀ x ∈ str, Printable x) →
    f = str.map lower → LastOne f p → 0 < p → 6 ≤ syms.length →
    (f.drop (p + 1)).map BitVec.toNat = syms.map (fun b => alphabetCodes.getD b.toNat 0) →
    feed 1#30 (expansion (f.take p) ++ syms) ≠ 1#30 →
    ∃ t, exec .decode s = .next t ∧ t.resp = some (failWord 3#3 0#4 0#14 0#8)

/-- R196: step 5, the strict 5→8 conversion of the data symbols `ds`. -/
def Obligations.DecodeConvertsStrictly : Prop :=
  ∀ (s : State) (str f : List Byte) (p D N r : Nat) (syms : List (BitVec 5)),
    s.Holds .str str → (∀ x ∈ str, Printable x) → f = str.map lower → LastOne f p → 0 < p → syms.length = D + 6 →
    (f.drop (p + 1)).map BitVec.toNat = syms.map (fun b => alphabetCodes.getD b.toNat 0) →
    feed 1#30 (expansion (f.take p) ++ syms) = 1#30 → r = 5 * D % 8 → N = groupsValue 5 (asElements (syms.take D)) →
    (5 ≤ r → ∃ t, exec .decode s = .next t ∧ t.resp = some (failWord 2#3 5#4 0#14 (BitVec.ofNat 8 r))) ∧
    (r < 5 → N % 2 ^ r ≠ 0 → ∃ t, exec .decode s = .next t ∧
      t.resp = some (failWord 2#3 6#4 0#14 (BitVec.ofNat 8 (N % 2 ^ r * 2 ^ (8 - r)))))

/-- R190, R197, R198: a successful DECODE, with the state it leaves. -/
def Obligations.DecodeDeliversHrpAndPayload : Prop :=
  DecodesAs 0x51#8 0x00FFFFFF#32 (fun _ => .decode) ∧
  ∀ (s : State) (str f payload : List Byte) (p D : Nat) (syms : List (BitVec 5)), s.Inv →
    s.Holds .str str → (∀ x ∈ str, Printable x) → f = str.map lower → LastOne f p → 0 < p → syms.length = D + 6 →
    (f.drop (p + 1)).map BitVec.toNat = syms.map (fun b => alphabetCodes.getD b.toNat 0) →
    feed 1#30 (expansion (f.take p) ++ syms) = 1#30 → convert 5 8 false (asElements (syms.take D)) = .ok payload →
    ∃ t, exec .decode s = .next t ∧ payload.length = 5 * D / 8 ∧
      t = { s with chk := 1#30, acc := 0#16, bits := 0#4, len := t.len, mem := t.mem,
                   resp := some (okWord (BitVec.ofNat 30 (2 ^ 14 * p + payload.length))) } ∧
      (∀ b, t.lenOf b = match b with
        | .hrp => p
        | .dat => payload.length
        | .sym => D
        | .str => s.lenOf .str) ∧
      ∀ b k, t.element b k =
        if b = .hrp ∧ k < p then f[k]?
        else if b = .dat ∧ k < payload.length then payload[k]?
        else if b = .sym ∧ k < D + 6 then (asElements syms)[k]?
        else s.element b k

/-- R201: any two strings with the same fold give the same response and the same results: all that a success leaves, and the
lengths and unchanged parts of a failure (the rest is unspecified, R241). -/
def Obligations.DecodeIgnoresCase : Prop :=
  ∀ (s s' : State) (str str' : List Byte), s.Holds .str str → s'.Holds .str str' → str.map lower = str'.map lower →
    s' = { s with mem := { s.mem with str := s'.mem.str } } →
    ∃ t t', exec .decode s = .next t ∧ exec .decode s' = .next t' ∧ t'.resp = t.resp ∧
      (Succeeded t → t' = { t with mem := { t.mem with str := s'.mem.str } }) ∧
      (Failed t → (∀ b, t'.lenOf b = t.lenOf b) ∧ t.cfg = s.cfg ∧ t'.cfg = s.cfg ∧ t.cks = s.cks ∧ t'.cks = s.cks ∧
        ∀ k, t.element .str k = s.element .str k ∧ t'.element .str k = s'.element .str k)

/-- R188: DECODE after a successful ENCODE gives the payload back, and the HRP in lower case. -/
def Obligations.DecodeInvertsEncodeCommand : Prop :=
  ∀ (s t : State), s.Inv → s.Written .hrp → s.Written .dat → exec .encode s = .next t → Succeeded t →
    ∃ u, exec .decode t = .next u ∧ Succeeded u ∧
      u.lenOf .dat = s.lenOf .dat ∧ (∀ k, k < s.lenOf .dat → u.element .dat k = s.element .dat k) ∧
      u.lenOf .hrp = s.lenOf .hrp ∧
      ∀ k v, k < s.lenOf .hrp → s.element .hrp k = some v → u.element .hrp k = some (lower v)

/-! ### Rules about the whole machine -/

/-- R20, "written by": a command changes no register and no buffer but those its row names, never the capacity, and never
what the host is going to present. -/
def Obligations.OnlyListedCommandsWrite : Prop :=
  ∀ (i : Instr) (s t : State), exec i s = .next t →
    t.config = s.config ∧ t.inputs = s.inputs ∧ (writesChk i = false → t.chk = s.chk) ∧
    (writesAccBits i = false → t.acc = s.acc ∧ t.bits = s.bits) ∧ (writesCfg i = false → t.cfg = s.cfg) ∧
    (writesLen i = false → ∀ b, t.lenOf b = s.lenOf b) ∧ (writesCks i = false → t.cks = s.cks) ∧
    (writesBuffers i = false → ∀ b k, t.element b k = s.element b k)

/-- R240: a failing primitive command changes no state at all (the count of free values is the model's own). -/
def Obligations.FailingPrimitiveKeepsState : Prop :=
  ∀ (i : Instr) (s t : State), isPrimitive i = true → exec i s = .next t → Failed t →
    t = { s with draws := t.draws, resp := t.resp }

/-- R241: what a failing buffer-walking command sets to 0, makes unspecified, and leaves alone. An element that is
unspecified has no known value. -/
def Obligations.FailingWalkLeaves : Prop :=
  ∀ (s t : State), s.Inv → Failed t →
    (exec .cvRun s = .next t →
      t = { s with acc := t.acc, bits := t.bits, len := t.len, mem := t.mem, draws := t.draws, resp := t.resp } ∧
      t.bits.toNat ≤ 7 ∧ (∀ b, t.lenOf b = if b = dstOf s then 0 else s.lenOf b) ∧
      ∀ b k, t.element b k = if b = dstOf s then none else s.element b k) ∧
    (exec .pmSym s = .next t → t = { s with chk := t.chk, draws := t.draws, resp := t.resp }) ∧
    (exec .ckCreate s = .next t → t = { s with chk := t.chk, cks := t.cks, draws := t.draws, resp := t.resp }) ∧
    (exec .ckVerify s = .next t → t = { s with chk := t.chk, draws := t.draws, resp := t.resp }) ∧
    (exec .encode s = .next t →
      t = { s with chk := t.chk, acc := t.acc, bits := t.bits, len := t.len, cks := t.cks, mem := t.mem,
                   draws := t.draws, resp := t.resp } ∧
      t.bits.toNat ≤ 7 ∧ (∀ b, t.lenOf b = if b = .str ∨ b = .sym then 0 else s.lenOf b) ∧
      ∀ b k, t.element b k = if b = .str ∨ b = .sym then none else s.element b k) ∧
    (exec .decode s = .next t →
      t = { s with chk := t.chk, acc := t.acc, bits := t.bits, len := t.len, mem := t.mem,
                   draws := t.draws, resp := t.resp } ∧
      t.bits.toNat ≤ 7 ∧ (∀ b, t.lenOf b = if b = .str then s.lenOf .str else 0) ∧
      ∀ b k, t.element b k = if b = .str then s.element .str k else none)
end

