-- ==== Sys2Proof/Laws/State.lean ====
section
/-!
SUPPORT. The fields of a state after each of its updates, one lemma a field, so that no proof unfolds a record update.
-/

namespace Sys2Proof.Laws

open Sys2Proof.Machine

/-! ### Banks -/

@[simp] theorem banks_get_set_self {α : Type} (x : Banks α) (b : Buf) (v : α) : (x.set b v).get b = v := by
  cases b <;> rfl

theorem banks_get_set {α : Type} (x : Banks α) (b b' : Buf) (v : α) :
    (x.set b v).get b' = if b' = b then v else x.get b' := by
  cases b <;> cases b' <;> rfl

@[simp] theorem banks_get_set_ne {α : Type} (x : Banks α) {b b' : Buf} (v : α) (h : b' ≠ b) :
    (x.set b v).get b' = x.get b' := by
  rw [banks_get_set, if_neg h]

/-- Two banks with the same four values are the same. -/
theorem banks_ext {α : Type} {x y : Banks α} (h : ∀ b, x.get b = y.get b) : x = y := by
  have h1 := h .hrp; have h2 := h .dat; have h3 := h .sym; have h4 := h .str
  cases x; cases y; simp_all [Banks.get]

@[simp] theorem dst_ne_src (c : Cfg) : dstBuf c ≠ srcBuf c := by
  cases h : c.dir <;> simp [dstBuf, srcBuf, h]

@[simp] theorem src_ne_dst (c : Cfg) : srcBuf c ≠ dstBuf c := (dst_ne_src c).symm

/-! ### `draw` -/

@[simp] theorem draw_config (s : State) (w : Nat) : (s.draw w).2.config = s.config := rfl
@[simp] theorem draw_chk (s : State) (w : Nat) : (s.draw w).2.chk = s.chk := rfl
@[simp] theorem draw_acc (s : State) (w : Nat) : (s.draw w).2.acc = s.acc := rfl
@[simp] theorem draw_bits (s : State) (w : Nat) : (s.draw w).2.bits = s.bits := rfl
@[simp] theorem draw_cfg (s : State) (w : Nat) : (s.draw w).2.cfg = s.cfg := rfl
@[simp] theorem draw_len (s : State) (w : Nat) : (s.draw w).2.len = s.len := rfl
@[simp] theorem draw_cks (s : State) (w : Nat) : (s.draw w).2.cks = s.cks := rfl
@[simp] theorem draw_mem (s : State) (w : Nat) : (s.draw w).2.mem = s.mem := rfl
@[simp] theorem draw_inputs (s : State) (w : Nat) : (s.draw w).2.inputs = s.inputs := rfl
@[simp] theorem draw_resp (s : State) (w : Nat) : (s.draw w).2.resp = s.resp := rfl
@[simp] theorem draw_draws (s : State) (w : Nat) : (s.draw w).2.draws = s.draws + 1 := rfl

/-! ### `take` -/

@[simp] theorem take_config (s : State) (rest : List Input) : (s.take rest).config = s.config := rfl
@[simp] theorem take_chk (s : State) (rest : List Input) : (s.take rest).chk = s.chk := rfl
@[simp] theorem take_acc (s : State) (rest : List Input) : (s.take rest).acc = s.acc := rfl
@[simp] theorem take_bits (s : State) (rest : List Input) : (s.take rest).bits = s.bits := rfl
@[simp] theorem take_cfg (s : State) (rest : List Input) : (s.take rest).cfg = s.cfg := rfl
@[simp] theorem take_len (s : State) (rest : List Input) : (s.take rest).len = s.len := rfl
@[simp] theorem take_cks (s : State) (rest : List Input) : (s.take rest).cks = s.cks := rfl
@[simp] theorem take_mem (s : State) (rest : List Input) : (s.take rest).mem = s.mem := rfl
@[simp] theorem take_inputs (s : State) (rest : List Input) : (s.take rest).inputs = rest := rfl
@[simp] theorem take_resp (s : State) (rest : List Input) : (s.take rest).resp = s.resp := rfl
@[simp] theorem take_draws (s : State) (rest : List Input) : (s.take rest).draws = s.draws := rfl

/-! ### `respond` -/

@[simp] theorem respond_config (s : State) (d : BitVec 30) : (s.respond d).config = s.config := rfl
@[simp] theorem respond_chk (s : State) (d : BitVec 30) : (s.respond d).chk = s.chk := rfl
@[simp] theorem respond_acc (s : State) (d : BitVec 30) : (s.respond d).acc = s.acc := rfl
@[simp] theorem respond_bits (s : State) (d : BitVec 30) : (s.respond d).bits = s.bits := rfl
@[simp] theorem respond_cfg (s : State) (d : BitVec 30) : (s.respond d).cfg = s.cfg := rfl
@[simp] theorem respond_len (s : State) (d : BitVec 30) : (s.respond d).len = s.len := rfl
@[simp] theorem respond_cks (s : State) (d : BitVec 30) : (s.respond d).cks = s.cks := rfl
@[simp] theorem respond_mem (s : State) (d : BitVec 30) : (s.respond d).mem = s.mem := rfl
@[simp] theorem respond_inputs (s : State) (d : BitVec 30) : (s.respond d).inputs = s.inputs := rfl
@[simp] theorem respond_resp (s : State) (d : BitVec 30) : (s.respond d).resp = some (successWord d) := rfl
@[simp] theorem respond_draws (s : State) (d : BitVec 30) : (s.respond d).draws = s.draws := rfl

/-! ### `raise` -/

@[simp] theorem raise_config (s : State) (f : Failure) : (s.raise f).config = s.config := rfl
@[simp] theorem raise_chk (s : State) (f : Failure) : (s.raise f).chk = s.chk := rfl
@[simp] theorem raise_acc (s : State) (f : Failure) : (s.raise f).acc = s.acc := rfl
@[simp] theorem raise_bits (s : State) (f : Failure) : (s.raise f).bits = s.bits := rfl
@[simp] theorem raise_cfg (s : State) (f : Failure) : (s.raise f).cfg = s.cfg := rfl
@[simp] theorem raise_len (s : State) (f : Failure) : (s.raise f).len = s.len := rfl
@[simp] theorem raise_cks (s : State) (f : Failure) : (s.raise f).cks = s.cks := rfl
@[simp] theorem raise_mem (s : State) (f : Failure) : (s.raise f).mem = s.mem := rfl
@[simp] theorem raise_inputs (s : State) (f : Failure) : (s.raise f).inputs = s.inputs := rfl
@[simp] theorem raise_resp (s : State) (f : Failure) : (s.raise f).resp = some (failureWord f) := rfl
@[simp] theorem raise_draws (s : State) (f : Failure) : (s.raise f).draws = s.draws := rfl

/-! ### `setLen` -/

@[simp] theorem setLen_config (s : State) (b : Buf) (n : Nat) : (s.setLen b n).config = s.config := rfl
@[simp] theorem setLen_chk (s : State) (b : Buf) (n : Nat) : (s.setLen b n).chk = s.chk := rfl
@[simp] theorem setLen_acc (s : State) (b : Buf) (n : Nat) : (s.setLen b n).acc = s.acc := rfl
@[simp] theorem setLen_bits (s : State) (b : Buf) (n : Nat) : (s.setLen b n).bits = s.bits := rfl
@[simp] theorem setLen_cfg (s : State) (b : Buf) (n : Nat) : (s.setLen b n).cfg = s.cfg := rfl
@[simp] theorem setLen_len (s : State) (b : Buf) (n : Nat) : (s.setLen b n).len = s.len.set b (BitVec.ofNat 14 n) := rfl
@[simp] theorem setLen_cks (s : State) (b : Buf) (n : Nat) : (s.setLen b n).cks = s.cks := rfl
@[simp] theorem setLen_mem (s : State) (b : Buf) (n : Nat) : (s.setLen b n).mem = s.mem := rfl
@[simp] theorem setLen_inputs (s : State) (b : Buf) (n : Nat) : (s.setLen b n).inputs = s.inputs := rfl
@[simp] theorem setLen_resp (s : State) (b : Buf) (n : Nat) : (s.setLen b n).resp = s.resp := rfl
@[simp] theorem setLen_draws (s : State) (b : Buf) (n : Nat) : (s.setLen b n).draws = s.draws := rfl

/-! ### `memWrite` -/

@[simp] theorem memWrite_config (s : State) (b : Buf) (i : Nat) (v : Byte) : (s.memWrite b i v).config = s.config := rfl
@[simp] theorem memWrite_chk (s : State) (b : Buf) (i : Nat) (v : Byte) : (s.memWrite b i v).chk = s.chk := rfl
@[simp] theorem memWrite_acc (s : State) (b : Buf) (i : Nat) (v : Byte) : (s.memWrite b i v).acc = s.acc := rfl
@[simp] theorem memWrite_bits (s : State) (b : Buf) (i : Nat) (v : Byte) : (s.memWrite b i v).bits = s.bits := rfl
@[simp] theorem memWrite_cfg (s : State) (b : Buf) (i : Nat) (v : Byte) : (s.memWrite b i v).cfg = s.cfg := rfl
@[simp] theorem memWrite_len (s : State) (b : Buf) (i : Nat) (v : Byte) : (s.memWrite b i v).len = s.len := rfl
@[simp] theorem memWrite_cks (s : State) (b : Buf) (i : Nat) (v : Byte) : (s.memWrite b i v).cks = s.cks := rfl
@[simp] theorem memWrite_mem (s : State) (b : Buf) (i : Nat) (v : Byte) : (s.memWrite b i v).mem = s.mem.set b ((s.mem.get b).write i v) := rfl
@[simp] theorem memWrite_inputs (s : State) (b : Buf) (i : Nat) (v : Byte) : (s.memWrite b i v).inputs = s.inputs := rfl
@[simp] theorem memWrite_resp (s : State) (b : Buf) (i : Nat) (v : Byte) : (s.memWrite b i v).resp = s.resp := rfl
@[simp] theorem memWrite_draws (s : State) (b : Buf) (i : Nat) (v : Byte) : (s.memWrite b i v).draws = s.draws := rfl

/-! ### `writeSeq` -/

@[simp] theorem writeSeq_config (s : State) (b : Buf) (i : Nat) (vs : List Byte) : (s.writeSeq b i vs).config = s.config := rfl
@[simp] theorem writeSeq_chk (s : State) (b : Buf) (i : Nat) (vs : List Byte) : (s.writeSeq b i vs).chk = s.chk := rfl
@[simp] theorem writeSeq_acc (s : State) (b : Buf) (i : Nat) (vs : List Byte) : (s.writeSeq b i vs).acc = s.acc := rfl
@[simp] theorem writeSeq_bits (s : State) (b : Buf) (i : Nat) (vs : List Byte) : (s.writeSeq b i vs).bits = s.bits := rfl
@[simp] theorem writeSeq_cfg (s : State) (b : Buf) (i : Nat) (vs : List Byte) : (s.writeSeq b i vs).cfg = s.cfg := rfl
@[simp] theorem writeSeq_len (s : State) (b : Buf) (i : Nat) (vs : List Byte) : (s.writeSeq b i vs).len = s.len := rfl
@[simp] theorem writeSeq_cks (s : State) (b : Buf) (i : Nat) (vs : List Byte) : (s.writeSeq b i vs).cks = s.cks := rfl
@[simp] theorem writeSeq_mem (s : State) (b : Buf) (i : Nat) (vs : List Byte) : (s.writeSeq b i vs).mem = s.mem.set b ((s.mem.get b).writeSeq i vs) := rfl
@[simp] theorem writeSeq_inputs (s : State) (b : Buf) (i : Nat) (vs : List Byte) : (s.writeSeq b i vs).inputs = s.inputs := rfl
@[simp] theorem writeSeq_resp (s : State) (b : Buf) (i : Nat) (vs : List Byte) : (s.writeSeq b i vs).resp = s.resp := rfl
@[simp] theorem writeSeq_draws (s : State) (b : Buf) (i : Nat) (vs : List Byte) : (s.writeSeq b i vs).draws = s.draws := rfl

/-! ### `forgetBuf` -/

@[simp] theorem forgetBuf_config (s : State) (b : Buf) : (s.forgetBuf b).config = s.config := rfl
@[simp] theorem forgetBuf_chk (s : State) (b : Buf) : (s.forgetBuf b).chk = s.chk := rfl
@[simp] theorem forgetBuf_acc (s : State) (b : Buf) : (s.forgetBuf b).acc = s.acc := rfl
@[simp] theorem forgetBuf_bits (s : State) (b : Buf) : (s.forgetBuf b).bits = s.bits := rfl
@[simp] theorem forgetBuf_cfg (s : State) (b : Buf) : (s.forgetBuf b).cfg = s.cfg := rfl
@[simp] theorem forgetBuf_len (s : State) (b : Buf) : (s.forgetBuf b).len = s.len := rfl
@[simp] theorem forgetBuf_cks (s : State) (b : Buf) : (s.forgetBuf b).cks = s.cks := rfl
@[simp] theorem forgetBuf_mem (s : State) (b : Buf) : (s.forgetBuf b).mem = s.mem.set b [] := rfl
@[simp] theorem forgetBuf_inputs (s : State) (b : Buf) : (s.forgetBuf b).inputs = s.inputs := rfl
@[simp] theorem forgetBuf_resp (s : State) (b : Buf) : (s.forgetBuf b).resp = s.resp := rfl
@[simp] theorem forgetBuf_draws (s : State) (b : Buf) : (s.forgetBuf b).draws = s.draws := rfl

/-! ### `forgetChk` -/

@[simp] theorem forgetChk_config (s : State) : s.forgetChk.config = s.config := rfl
@[simp] theorem forgetChk_chk (s : State) : s.forgetChk.chk = Config.freeValue 30 s.draws := rfl
@[simp] theorem forgetChk_acc (s : State) : s.forgetChk.acc = s.acc := rfl
@[simp] theorem forgetChk_bits (s : State) : s.forgetChk.bits = s.bits := rfl
@[simp] theorem forgetChk_cfg (s : State) : s.forgetChk.cfg = s.cfg := rfl
@[simp] theorem forgetChk_len (s : State) : s.forgetChk.len = s.len := rfl
@[simp] theorem forgetChk_cks (s : State) : s.forgetChk.cks = s.cks := rfl
@[simp] theorem forgetChk_mem (s : State) : s.forgetChk.mem = s.mem := rfl
@[simp] theorem forgetChk_inputs (s : State) : s.forgetChk.inputs = s.inputs := rfl
@[simp] theorem forgetChk_resp (s : State) : s.forgetChk.resp = s.resp := rfl
@[simp] theorem forgetChk_draws (s : State) : s.forgetChk.draws = s.draws + 1 := rfl

/-! ### `forgetConverter` -/

@[simp] theorem forgetConverter_config (s : State) : s.forgetConverter.config = s.config := rfl
@[simp] theorem forgetConverter_chk (s : State) : s.forgetConverter.chk = s.chk := rfl
@[simp] theorem forgetConverter_acc (s : State) : s.forgetConverter.acc = Config.freeValue 16 s.draws := rfl
@[simp] theorem forgetConverter_bits (s : State) : s.forgetConverter.bits = (Config.freeValue 3 (s.draws + 1)).setWidth 4 := rfl
@[simp] theorem forgetConverter_cfg (s : State) : s.forgetConverter.cfg = s.cfg := rfl
@[simp] theorem forgetConverter_len (s : State) : s.forgetConverter.len = s.len := rfl
@[simp] theorem forgetConverter_cks (s : State) : s.forgetConverter.cks = s.cks := rfl
@[simp] theorem forgetConverter_mem (s : State) : s.forgetConverter.mem = s.mem := rfl
@[simp] theorem forgetConverter_inputs (s : State) : s.forgetConverter.inputs = s.inputs := rfl
@[simp] theorem forgetConverter_resp (s : State) : s.forgetConverter.resp = s.resp := rfl
@[simp] theorem forgetConverter_draws (s : State) : s.forgetConverter.draws = s.draws + 2 := rfl

/-! ### `forgetCks` -/

@[simp] theorem forgetCks_config (s : State) : s.forgetCks.config = s.config := rfl
@[simp] theorem forgetCks_chk (s : State) : s.forgetCks.chk = s.chk := rfl
@[simp] theorem forgetCks_acc (s : State) : s.forgetCks.acc = s.acc := rfl
@[simp] theorem forgetCks_bits (s : State) : s.forgetCks.bits = s.bits := rfl
@[simp] theorem forgetCks_cfg (s : State) : s.forgetCks.cfg = s.cfg := rfl
@[simp] theorem forgetCks_len (s : State) : s.forgetCks.len = s.len := rfl
@[simp] theorem forgetCks_mem (s : State) : s.forgetCks.mem = s.mem := rfl
@[simp] theorem forgetCks_inputs (s : State) : s.forgetCks.inputs = s.inputs := rfl
@[simp] theorem forgetCks_resp (s : State) : s.forgetCks.resp = s.resp := rfl
@[simp] theorem forgetCks_draws (s : State) : s.forgetCks.draws = s.draws + 6 := rfl

/-! ### `clearConverter` -/

@[simp] theorem clearConverter_config (s : State) : s.clearConverter.config = s.config := rfl
@[simp] theorem clearConverter_chk (s : State) : s.clearConverter.chk = s.chk := rfl
@[simp] theorem clearConverter_acc (s : State) : s.clearConverter.acc = 0#16 := rfl
@[simp] theorem clearConverter_bits (s : State) : s.clearConverter.bits = 0#4 := rfl
@[simp] theorem clearConverter_cfg (s : State) : s.clearConverter.cfg = s.cfg := rfl
@[simp] theorem clearConverter_len (s : State) : s.clearConverter.len = s.len := rfl
@[simp] theorem clearConverter_cks (s : State) : s.clearConverter.cks = s.cks := rfl
@[simp] theorem clearConverter_mem (s : State) : s.clearConverter.mem = s.mem := rfl
@[simp] theorem clearConverter_inputs (s : State) : s.clearConverter.inputs = s.inputs := rfl
@[simp] theorem clearConverter_resp (s : State) : s.clearConverter.resp = s.resp := rfl
@[simp] theorem clearConverter_draws (s : State) : s.clearConverter.draws = s.draws := rfl

/-! ### `resetBlock` -/

@[simp] theorem resetBlock_config (s : State) : s.resetBlock.config = s.config := rfl
@[simp] theorem resetBlock_chk (s : State) : s.resetBlock.chk = 1#30 := rfl
@[simp] theorem resetBlock_acc (s : State) : s.resetBlock.acc = 0#16 := rfl
@[simp] theorem resetBlock_bits (s : State) : s.resetBlock.bits = 0#4 := rfl
@[simp] theorem resetBlock_cfg (s : State) : s.resetBlock.cfg = ⟨8#4, 5#4, true, false⟩ := rfl
@[simp] theorem resetBlock_len (s : State) : s.resetBlock.len = ⟨0#14, 0#14, 0#14, 0#14⟩ := rfl
@[simp] theorem resetBlock_cks (s : State) : s.resetBlock.cks = State.reset.cks := rfl
@[simp] theorem resetBlock_mem (s : State) : s.resetBlock.mem = ⟨[], [], [], []⟩ := rfl
@[simp] theorem resetBlock_inputs (s : State) : s.resetBlock.inputs = s.inputs := rfl
@[simp] theorem resetBlock_resp (s : State) : s.resetBlock.resp = s.resp := rfl
@[simp] theorem resetBlock_draws (s : State) : s.resetBlock.draws = s.draws := rfl

end Sys2Proof.Laws
end

