-- ==== Sys2Proof/Laws/Memory.lean ====
section
/-!
SUPPORT. What reading and writing the elements of one buffer do, and that every memory operation keeps the canonical form
and the index range.
-/

namespace Sys2Proof.Laws

open Sys2Proof.Machine

@[simp] theorem read_nil (i : Nat) : Memory.read [] i = none := rfl

theorem read_cons (c : Host.Cell) (m : Memory) (i : Nat) :
    Memory.read (c :: m) i = if c.1 = i then some c.2 else Memory.read m i := by
  by_cases h : c.1 = i <;> simp [Memory.read, h]

/-- A read after a write: the written element has the value, every other one is as before. -/
theorem read_write (m : Memory) (i j : Nat) (v : Byte) :
    (m.write i v).read j = if j = i then some v else m.read j := by
  induction m with
  | nil => simp [Memory.write, read_cons, eq_comm]
  | cons c m ih =>
    unfold Memory.write
    split
    · simp [read_cons, eq_comm]
    · split
      · subst i
        simp only [read_cons]
        split <;> simp_all [eq_comm]
      · simp only [read_cons, ih]
        split <;> split <;> simp_all

/-- A read after a sequence has been written. -/
theorem read_writeSeq (m : Memory) (i j : Nat) (vs : List Byte) :
    (m.writeSeq i vs).read j = if i ≤ j ∧ j < i + vs.length then vs[j - i]? else m.read j := by
  induction vs generalizing m i with
  | nil => simp [Memory.writeSeq]
  | cons v vs ih =>
    simp only [Memory.writeSeq, ih, read_write, List.length_cons]
    rcases Nat.lt_trichotomy j i with h | h | h
    · rw [if_neg (by omega), if_neg (by omega), if_neg (by omega)]
    · subst h; simp
    · obtain ⟨k, rfl⟩ : ∃ k, j = i + 1 + k := ⟨j - (i + 1), by omega⟩
      have e1 : i + 1 + k - (i + 1) = k := by omega
      have e2 : i + 1 + k - i = k + 1 := by omega
      rw [e1, e2, List.getElem?_cons_succ]
      by_cases hk : k < vs.length
      · rw [if_pos (by omega), if_pos (by omega)]
      · rw [if_neg (by omega), if_neg (by omega : ¬ i + 1 + k = i), if_neg (by omega)]

/-- Where the cells of a memory after a write come from. -/
theorem mem_write {m : Memory} {i : Nat} {v : Byte} {c : Host.Cell} (h : c ∈ m.write i v) : c = (i, v) ∨ c ∈ m := by
  induction m with
  | nil => simpa [Memory.write] using h
  | cons d m ih =>
    unfold Memory.write at h
    split at h
    · simpa using h
    · split at h
      · rcases List.mem_cons.1 h with h | h
        · exact .inl h
        · exact .inr (List.mem_cons_of_mem _ h)
      · rcases List.mem_cons.1 h with h | h
        · exact .inr (h ▸ List.mem_cons_self)
        · exact (ih h).imp_right (List.mem_cons_of_mem _)

/-- Writing keeps the canonical form. -/
theorem write_wf {m : Memory} (h : m.wf) (i : Nat) (v : Byte) : (m.write i v).wf := by
  induction m with
  | nil => simp [Memory.write, Memory.wf]
  | cons c m ih =>
    obtain ⟨hc, hm⟩ := List.pairwise_cons.1 h
    unfold Memory.write
    split
    · rename_i hi
      refine List.pairwise_cons.2 ⟨fun d hd => ?_, h⟩
      rcases List.mem_cons.1 hd with rfl | hd
      · exact hi
      · exact Nat.lt_trans hi (hc d hd)
    · split
      · rename_i hi
        exact List.pairwise_cons.2 ⟨fun d hd => hi ▸ hc d hd, hm⟩
      · refine List.pairwise_cons.2 ⟨fun d hd => ?_, ih hm⟩
        rcases mem_write hd with rfl | hd
        · simp only; omega
        · exact hc d hd

theorem writeSeq_wf {m : Memory} (h : m.wf) (i : Nat) (vs : List Byte) : (m.writeSeq i vs).wf := by
  induction vs generalizing m i with
  | nil => exact h
  | cons v vs ih => exact ih (write_wf h i v) (i + 1)

theorem within_nil (cap : Nat) : Memory.within cap [] := ⟨List.Pairwise.nil, by simp⟩

/-- Writing an element that exists keeps a buffer within its range. -/
theorem write_within {cap : Nat} {m : Memory} (h : m.within cap) {i : Nat} (hi : i < cap) (v : Byte) :
    (m.write i v).within cap := by
  refine ⟨write_wf h.1 i v, fun c hc => ?_⟩
  rcases mem_write hc with rfl | hc
  · exact hi
  · exact h.2 c hc

theorem writeSeq_within {cap : Nat} {m : Memory} (h : m.within cap) {i : Nat} {vs : List Byte}
    (hi : i + vs.length ≤ cap) : (m.writeSeq i vs).within cap := by
  induction vs generalizing m i with
  | nil => exact h
  | cons v vs ih =>
    simp only [List.length_cons] at hi
    exact ih (write_within h (by omega) v) (by omega)

end Sys2Proof.Laws
end

