-- ==== Sys2Proof/Laws/Ops.lean ====
section
/-!
SUPPORT. One lemma for each shared operation over a state: what it can do.
-/

namespace Sys2Proof.Laws

open Sys2Proof.Machine

/-! ### Single elements -/

/-- An element after a write to one element: that one has the value, every other one is as before (R52). -/
theorem element_memWrite (s : State) (b b' : Buf) (i j : Nat) (v : Byte) :
    (s.memWrite b i v).element b' j = if b' = b ∧ j = i then some v else s.element b' j := by
  by_cases h : b' = b
  · subst h; simp [State.element, read_write]
  · simp [State.element, h]

/-- An element after a sequence has been written. -/
theorem element_writeSeq (s : State) (b b' : Buf) (i j : Nat) (vs : List Byte) :
    (s.writeSeq b i vs).element b' j =
      if b' = b ∧ i ≤ j ∧ j < i + vs.length then vs[j - i]? else s.element b' j := by
  by_cases h : b' = b
  · subst h; simp [State.element, read_writeSeq]
  · simp [State.element, h]

/-- An element after a buffer has become unspecified. -/
theorem element_forgetBuf (s : State) (b b' : Buf) (j : Nat) :
    (s.forgetBuf b).element b' j = if b' = b then none else s.element b' j := by
  by_cases h : b' = b
  · subst h; simp [State.element]
  · simp [State.element, h]

theorem element_congr {s t : State} (h : t.mem = s.mem) (b : Buf) (j : Nat) : t.element b j = s.element b j := by
  simp [State.element, h]

/-- A length after a length has been set. -/
theorem lenOf_setLen (s : State) (b b' : Buf) (n : Nat) :
    (s.setLen b n).lenOf b' = if b' = b then n % 2 ^ 14 else s.lenOf b' := by
  by_cases h : b' = b
  · subst h; simp [State.lenOf]
  · simp [State.lenOf, h]

theorem lenOf_congr {s t : State} (h : t.len = s.len) (b : Buf) : t.lenOf b = s.lenOf b := by
  simp [State.lenOf, h]

/-! ### Reading -/

/-- A read changes nothing but the count of free values (R53). -/
theorem memRead_state (s : State) (b : Buf) (i : Nat) : ∃ d, (s.memRead b i).2 = { s with draws := d } := by
  unfold State.memRead
  split
  · exact ⟨s.draws, rfl⟩
  · exact ⟨s.draws + 1, rfl⟩

theorem memRead_known {s : State} {b : Buf} {i : Nat} {v : Byte} (h : s.element b i = some v) :
    s.memRead b i = (v, s) := by
  unfold State.memRead; rw [h]

theorem memRead_free {s : State} {b : Buf} {i : Nat} (h : s.element b i = none) : s.memRead b i = s.draw 8 := by
  unfold State.memRead; rw [h]

/-- What a loop over a buffer reads, and what it leaves: everything but the count of free values (R53). -/
theorem readSeq_spec (b : Buf) (n i : Nat) (s : State) :
    ∃ xs d, State.readSeq b n i s = (xs, { s with draws := d }) ∧ xs.length = n ∧
      ∀ k v, k < n → s.element b (i + k) = some v → xs[k]? = some v := by
  induction n generalizing i s with
  | zero => exact ⟨[], s.draws, rfl, rfl, by omega⟩
  | succ n ih =>
    obtain ⟨d0, hd0⟩ := memRead_state s b i
    obtain ⟨xs, d, hx, hl, hk⟩ := ih (i + 1) { s with draws := d0 }
    refine ⟨(s.memRead b i).1 :: xs, d, ?_, by simp [hl], ?_⟩
    · simp only [State.readSeq, hd0, hx]
    · intro k v hkn hv
      cases k with
      | zero => rw [memRead_known (v := v) (by simpa using hv)]; rfl
      | succ k =>
        rw [List.getElem?_cons_succ]
        exact hk k v (by omega) (by rw [show i + 1 + k = i + (k + 1) by omega]; exact hv)

/-- A loop over a buffer whose elements all hold a known value reads them and changes nothing. -/
theorem readSeq_known (b : Buf) (xs : List Byte) (i : Nat) (s : State)
    (h : ∀ k, k < xs.length → s.element b (i + k) = xs[k]?) : State.readSeq b xs.length i s = (xs, s) := by
  induction xs generalizing i with
  | nil => rfl
  | cons x xs ih =>
    have h0 : s.element b i = some x := by simpa using h 0 (by simp)
    have ht := ih (i + 1) fun k hk => by
      rw [show i + 1 + k = i + (k + 1) by omega, h (k + 1) (by simpa using hk)]; rfl
    simp only [List.length_cons, State.readSeq, memRead_known h0, ht]

theorem readBuf_spec (s : State) (b : Buf) :
    ∃ xs d, s.readBuf b = (xs, { s with draws := d }) ∧ s.ReadsAs b xs := by
  obtain ⟨xs, d, h, hl, hk⟩ := readSeq_spec b (s.lenOf b) 0 s
  exact ⟨xs, d, h, hl, fun k v hkn hv => hk k v hkn (by simpa using hv)⟩

theorem readBuf_holds {s : State} {b : Buf} {xs : List Byte} (h : s.Holds b xs) : s.readBuf b = (xs, s) := by
  have := readSeq_known b xs 0 s (by simpa using h.2)
  rwa [← h.1] at this

/-- A fully written buffer holds one sequence. -/
theorem written_holds {s : State} {b : Buf} (h : s.Written b) : ∃ xs, s.Holds b xs := by
  refine ⟨(List.range (s.lenOf b)).map fun k => (s.element b k).getD 0, by simp, fun k hk => ?_⟩
  have hk' : k < s.lenOf b := by simpa using hk
  obtain ⟨v, hv⟩ := Option.isSome_iff_exists.1 (h k hk')
  simp [hk', hv]

theorem holds_unique {s : State} {b : Buf} {xs ys : List Byte} (h : s.Holds b xs) (h' : s.Holds b ys) : xs = ys := by
  have hl : xs.length = ys.length := by rw [← h.1, h'.1]
  refine List.ext_getElem? fun k => ?_
  by_cases hk : k < xs.length
  · rw [← h.2 k hk, h'.2 k (hl ▸ hk)]
  · rw [List.getElem?_eq_none (by omega), List.getElem?_eq_none (by omega)]

theorem holds_readsAs {s : State} {b : Buf} {xs : List Byte} (h : s.Holds b xs) : s.ReadsAs b xs :=
  ⟨h.1.symm, fun k v hk hv => by rw [← h.2 k (h.1 ▸ hk), hv]⟩

/-- What a loop may read of a fully written buffer is what it holds. -/
theorem readsAs_holds {s : State} {b : Buf} {xs ys : List Byte} (h : s.Holds b xs) (h' : s.ReadsAs b ys) : ys = xs := by
  have hl : ys.length = xs.length := by rw [h'.1, h.1]
  refine List.ext_getElem? fun k => ?_
  by_cases hk : k < xs.length
  · rw [List.getElem?_eq_getElem hk]
    exact h'.2 k _ (h.1 ▸ hk) (by rw [h.2 k hk, List.getElem?_eq_getElem hk])
  · rw [List.getElem?_eq_none (by omega), List.getElem?_eq_none (by omega)]

/-! ### The invariant -/

/-- The invariant depends on the capacity, the configuration, `BITS`, the lengths and the buffers only. -/
theorem inv_congr {s t : State} (h : s.Inv) (hc : t.config = s.config) (hf : t.cfg = s.cfg) (hb : t.bits = s.bits)
    (hl : t.len = s.len) (hm : t.mem = s.mem) : t.Inv where
  cap_legal := hc ▸ h.cap_legal
  from_legal := hf ▸ h.from_legal
  to_legal := hf ▸ h.to_legal
  bits_small := hb ▸ h.bits_small
  len_legal := fun b => by rw [lenOf_congr hl, hc]; exact h.len_legal b
  mem_legal := fun b => by rw [hm, hc]; exact h.mem_legal b

theorem setLen_inv {s : State} (h : s.Inv) (b : Buf) {n : Nat} (hn : n ≤ s.config.cap) : (s.setLen b n).Inv where
  cap_legal := h.cap_legal
  from_legal := h.from_legal
  to_legal := h.to_legal
  bits_small := h.bits_small
  len_legal := fun b' => by
    rw [lenOf_setLen]
    split
    · exact Nat.le_trans (Nat.mod_le ..) hn
    · exact h.len_legal b'
  mem_legal := h.mem_legal

theorem setMem_inv {s : State} (h : s.Inv) (b : Buf) {m : Memory} (hm : m.within s.config.cap) :
    ({ s with mem := s.mem.set b m } : State).Inv where
  cap_legal := h.cap_legal
  from_legal := h.from_legal
  to_legal := h.to_legal
  bits_small := h.bits_small
  len_legal := h.len_legal
  mem_legal := fun b' => by
    show (((s.mem.set b m).get b').within s.config.cap)
    rw [banks_get_set]
    split
    · exact hm
    · exact h.mem_legal b'

theorem memWrite_inv {s : State} (h : s.Inv) (b : Buf) {i : Nat} (hi : i < s.config.cap) (v : Byte) :
    (s.memWrite b i v).Inv :=
  setMem_inv h b (write_within (h.mem_legal b) hi v)

theorem writeSeq_inv {s : State} (h : s.Inv) (b : Buf) {i : Nat} {vs : List Byte} (hi : i + vs.length ≤ s.config.cap) :
    (s.writeSeq b i vs).Inv :=
  setMem_inv h b (writeSeq_within (h.mem_legal b) hi)

theorem forgetBuf_inv {s : State} (h : s.Inv) (b : Buf) : (s.forgetBuf b).Inv := setMem_inv h b (within_nil _)

theorem setBits_inv {s t : State} (h : s.Inv) (hc : t.config = s.config) (hf : t.cfg = s.cfg) (hb : t.bits.toNat ≤ 7)
    (hl : t.len = s.len) (hm : t.mem = s.mem) : t.Inv where
  cap_legal := hc ▸ h.cap_legal
  from_legal := hf ▸ h.from_legal
  to_legal := hf ▸ h.to_legal
  bits_small := hb
  len_legal := fun b => by rw [lenOf_congr hl, hc]; exact h.len_legal b
  mem_legal := fun b => by rw [hm, hc]; exact h.mem_legal b

theorem clearConverter_inv {s : State} (h : s.Inv) : s.clearConverter.Inv :=
  setBits_inv h rfl rfl (by simp) rfl rfl

theorem forgetConverter_inv {s : State} (h : s.Inv) : s.forgetConverter.Inv := by
  refine setBits_inv h rfl rfl ?_ rfl rfl
  have := (Config.freeValue 3 (s.draws + 1)).isLt
  simp only [forgetConverter_bits, BitVec.toNat_setWidth]
  omega

theorem forgetChk_inv {s : State} (h : s.Inv) : s.forgetChk.Inv := inv_congr h rfl rfl rfl rfl rfl

theorem forgetCks_inv {s : State} (h : s.Inv) : s.forgetCks.Inv := inv_congr h rfl rfl rfl rfl rfl

theorem respond_inv {s : State} (h : s.Inv) (d : BitVec 30) : (s.respond d).Inv := inv_congr h rfl rfl rfl rfl rfl

theorem raise_inv {s : State} (h : s.Inv) (f : Failure) : (s.raise f).Inv := inv_congr h rfl rfl rfl rfl rfl

theorem draw_inv {s : State} (h : s.Inv) (w : Nat) : (s.draw w).2.Inv := inv_congr h rfl rfl rfl rfl rfl

theorem readBuf_inv {s : State} (h : s.Inv) (b : Buf) : (s.readBuf b).2.Inv := by
  obtain ⟨xs, d, hr, -⟩ := readBuf_spec s b
  rw [hr]; exact inv_congr h rfl rfl rfl rfl rfl

end Sys2Proof.Laws
end

