-- ==== Sys2Proof/Laws/Checksum.lean ====
section
/-!
SUPPORT. What the feeds of the Checksum Engine can do.
-/

namespace Sys2Proof.Laws

open Sys2Proof.Machine

@[simp] theorem polyFeed_nil (chk : BitVec 30) : polyFeed chk [] = chk := rfl

@[simp] theorem polyFeed_cons (chk : BitVec 30) (x : BitVec 5) (xs : List (BitVec 5)) :
    polyFeed chk (x :: xs) = polyFeed (polyStep chk x) xs := rfl

theorem polyFeed_append (chk : BitVec 30) (xs ys : List (BitVec 5)) :
    polyFeed chk (xs ++ ys) = polyFeed (polyFeed chk xs) ys := by
  simp [polyFeed, List.foldl_append]

/-- A feed of values that all fit 5 bits. -/
theorem feedSymbols_ok {xs : List Byte} (k : Nat) (chk : BitVec 30) (h : ∀ x ∈ xs, x.toNat ≤ 31) :
    feedSymbols xs k chk = .ok (polyFeed chk (xs.map symbolOf)) := by
  induction xs generalizing k chk with
  | nil => rfl
  | cons x xs ih =>
    have hx : ¬ x.toNat > 31 := by have := h x (by simp); omega
    simp only [feedSymbols, hx, if_false, List.map_cons, polyFeed_cons]
    exact ih (k + 1) _ fun y hy => h y (by simp [hy])

/-- A feed that meets a value above 31 ends at the first one. -/
theorem feedSymbols_error {xs : List Byte} {j : Nat} {v : Byte} (k : Nat) (chk : BitVec 30) (hj : xs[j]? = some v)
    (hv : v.toNat > 31) (h : ∀ i x, i < j → xs[i]? = some x → x.toNat ≤ 31) :
    feedSymbols xs k chk = .error (k + j, v) := by
  induction xs generalizing k chk j with
  | nil => simp at hj
  | cons x xs ih =>
    cases j with
    | zero =>
      obtain rfl : x = v := by simpa using hj
      simp [feedSymbols, hv]
    | succ j =>
      have hx : ¬ x.toNat > 31 := by have := h 0 x (by omega) (by simp); omega
      simp only [feedSymbols, hx, if_false]
      rw [ih (k + 1) _ (by simpa using hj) fun i y hi hy => h (i + 1) y (by omega) (by simpa using hy)]
      congr 2; omega

/-- PM.HRP's pseudocode changes `CHK` only (R134). -/
theorem feedHrp_spec (s : State) :
    ∃ his los d, s.feedHrp = { s with chk := polyFeed s.chk (his.map hrpHigh ++ [0#5] ++ los.map hrpLow), draws := d } ∧
      s.ReadsAs .hrp his ∧ s.ReadsAs .hrp los := by
  obtain ⟨his, d0, h0, r0⟩ := readBuf_spec s .hrp
  obtain ⟨los, d1, h1, r1⟩ := readBuf_spec { s with draws := d0 } .hrp
  exact ⟨his, los, d1, by simp only [State.feedHrp, h0, h1], r0, r1⟩

/-- PM.HRP's pseudocode on an HRP that holds known bytes. -/
theorem feedHrp_holds {s : State} {h : List Byte} (hh : s.Holds .hrp h) :
    s.feedHrp = { s with chk := polyFeed s.chk (expand h) } := by
  simp only [State.feedHrp, readBuf_holds hh, expand]

/-- PM.SYM's pseudocode changes `CHK` only, and raises nothing but `OutOfRangeError` (R135). -/
theorem feedSym_spec (s : State) :
    ∃ vs d, s.ReadsAs .sym vs ∧
      ((∃ chk, feedSymbols vs 0 s.chk = .ok chk ∧ s.feedSym = .ok { s with chk := chk, draws := d } ()) ∨
       (∃ k v, feedSymbols vs 0 s.chk = .error (k, v) ∧
          s.feedSym = .fail { s with draws := d } ⟨.outOfRange, BitVec.ofNat 14 k, v⟩)) := by
  obtain ⟨vs, d, h, r⟩ := readBuf_spec s .sym
  refine ⟨vs, d, r, ?_⟩
  cases e : feedSymbols vs 0 s.chk with
  | ok chk => exact .inl ⟨chk, rfl, by simp only [State.feedSym, h, e]⟩
  | error kv => obtain ⟨k, v⟩ := kv; exact .inr ⟨k, v, rfl, by simp only [State.feedSym, h, e]⟩

/-- PM.SYM's pseudocode on symbols that are known. -/
theorem feedSym_holds {s : State} {vs : List Byte} (hs : s.Holds .sym vs) (hv : ∀ v ∈ vs, v.toNat ≤ 31) :
    s.feedSym = .ok { s with chk := polyFeed s.chk (vs.map symbolOf) } () := by
  simp only [State.feedSym, readBuf_holds hs, feedSymbols_ok 0 s.chk hv]

end Sys2Proof.Laws
end

