-- ==== Sys2Proof/Laws/Converter.lean ====
section
/-!
SUPPORT. What the pieces of the Bit Converter can do: the emitting loop in closed form, and the ways a push and a flush end.
-/

namespace Sys2Proof.Laws

open Sys2Proof.Machine

/-- The emitting loop in closed form: `bits / T` groups, from the top down, and `bits mod T` bits left (R104, R106). -/
theorem emitGroups_eq {T : Nat} (acc : Nat) (hT : 1 ≤ T) {fuel bits : Nat} (h : bits ≤ fuel) :
    emitGroups T acc fuel bits =
      ((List.range (bits / T)).map (fun j => topGroup T acc (bits - (j + 1) * T)), bits % T) := by
  induction fuel generalizing bits with
  | zero =>
    obtain rfl : bits = 0 := by omega
    simp [emitGroups]
  | succ fuel ih =>
    unfold emitGroups
    split
    · rename_i hb
      have hdiv : bits / T = (bits - T) / T + 1 := by
        rw [Nat.div_eq_sub_div (by omega) hb]
      have hmod : bits % T = (bits - T) % T := Nat.mod_eq_sub_mod hb
      rw [ih (by omega), hdiv, hmod, List.range_succ_eq_map]
      simp only [List.map_cons, List.map_map, Nat.zero_add, Nat.one_mul]
      congr 2
      refine List.map_congr_left fun j _ => ?_
      simp only [Function.comp_apply]
      congr 1
      rw [Nat.succ_mul (j + 1)]
      omega
    · rename_i hb
      rw [Nat.div_eq_of_lt (by omega), Nat.mod_eq_of_lt (by omega)]
      rfl

/-- The number of groups the emitting loop gives. -/
theorem emitGroups_length {T : Nat} (acc : Nat) (hT : 1 ≤ T) {fuel bits : Nat} (h : bits ≤ fuel) :
    (emitGroups T acc fuel bits).1.length = bits / T := by
  rw [emitGroups_eq acc hT h]; simp

/-- The bits the emitting loop leaves. -/
theorem emitGroups_left {T : Nat} (acc : Nat) (hT : 1 ≤ T) {fuel bits : Nat} (h : bits ≤ fuel) :
    (emitGroups T acc fuel bits).2 = bits % T := by
  rw [emitGroups_eq acc hT h]

/-- The three ways a push ends (R104). -/
theorem pushGroup_cases (s : State) (v : Byte) :
    (v.toNat >>> s.cfg.fromBits.toNat ≠ 0 ∧ pushGroup s v = .fail s ⟨.outOfRange, 0#14, v⟩) ∨
    (s.lenOf (dstBuf s.cfg) + (s.bits.toNat + s.cfg.fromBits.toNat) / s.cfg.toBits.toNat > s.config.cap ∧
      pushGroup s v = .fail s ⟨.capacity, 0#14, 0#8⟩) ∨
    (v.toNat >>> s.cfg.fromBits.toNat = 0 ∧
      s.lenOf (dstBuf s.cfg) + (s.bits.toNat + s.cfg.fromBits.toNat) / s.cfg.toBits.toNat ≤ s.config.cap ∧
      ∃ acc e, acc = BitVec.ofNat 16 ((s.acc.toNat <<< s.cfg.fromBits.toNat) ||| v.toNat) ∧
        e = emitGroups s.cfg.toBits.toNat acc.toNat (s.bits.toNat + s.cfg.fromBits.toNat)
          (s.bits.toNat + s.cfg.fromBits.toNat) ∧
        pushGroup s v = .ok
          { (s.writeSeq (dstBuf s.cfg) (s.lenOf (dstBuf s.cfg)) e.1).setLen (dstBuf s.cfg)
              (s.lenOf (dstBuf s.cfg) + e.1.length) with acc := acc, bits := BitVec.ofNat 4 e.2 }
          ((s.bits.toNat + s.cfg.fromBits.toNat) / s.cfg.toBits.toNat)) := by
  by_cases h1 : v.toNat >>> s.cfg.fromBits.toNat = 0
  · by_cases h2 : s.lenOf (dstBuf s.cfg) + (s.bits.toNat + s.cfg.fromBits.toNat) / s.cfg.toBits.toNat > s.config.cap
    · exact .inr (.inl ⟨h2, by simp [pushGroup, h1, h2]⟩)
    · exact .inr (.inr ⟨h1, by omega, _, _, rfl, rfl, by simp only [pushGroup, h1, h2]; rfl⟩)
  · exact .inl ⟨h1, by simp [pushGroup, h1]⟩

/-- A push keeps the invariant (R106, R26). -/
theorem pushGroup_inv {s t : State} {v : Byte} {g : Nat} (h : s.Inv) (hp : pushGroup s v = .ok t g) : t.Inv := by
  obtain ⟨-, e⟩ | ⟨-, e⟩ | ⟨-, hcap, acc, em, hacc, hem, e⟩ := pushGroup_cases s v
  · rw [e] at hp; cases hp
  · rw [e] at hp; cases hp
  · rw [e] at hp
    obtain ⟨rfl, -⟩ := Res.ok.inj hp
    have hT := h.to_legal
    have hl := emitGroups_length acc.toNat hT.1 (Nat.le_refl (s.bits.toNat + s.cfg.fromBits.toNat))
    have hm := emitGroups_left acc.toNat hT.1 (Nat.le_refl (s.bits.toNat + s.cfg.fromBits.toNat))
    rw [← hem] at hl hm
    refine setBits_inv (setLen_inv (writeSeq_inv h (dstBuf s.cfg) (i := s.lenOf (dstBuf s.cfg)) (vs := em.1) ?_) (dstBuf s.cfg)
      (n := s.lenOf (dstBuf s.cfg) + em.1.length) ?_) rfl rfl ?_ rfl rfl
    · omega
    · simp only [writeSeq_config]; omega
    · have := Nat.mod_lt (s.bits.toNat + s.cfg.fromBits.toNat) (show s.cfg.toBits.toNat > 0 by omega)
      simp only [BitVec.toNat_ofNat, hm]
      omega

/-- A push that raises an error leaves the state as it was. -/
theorem pushGroup_fail {s t : State} {v : Byte} {f : Failure} (hp : pushGroup s v = .fail t f) : t = s := by
  obtain ⟨-, e⟩ | ⟨-, e⟩ | ⟨-, -, acc, em, -, -, e⟩ := pushGroup_cases s v <;> rw [e] at hp <;> cases hp <;> rfl

/-- The padded residual changes nothing but the count of free values, and lies below `2^T`. -/
theorem paddedResidual_spec (s : State) :
    ∃ r d, paddedResidual s = (r, { s with draws := d }) ∧ r < 2 ^ s.cfg.toBits.toNat ∧
      (s.bits.toNat ≤ s.cfg.toBits.toNat →
        r = paddedGroup s.cfg.toBits.toNat s.acc.toNat s.bits.toNat ∧ d = s.draws) := by
  have hpos : 0 < 2 ^ s.cfg.toBits.toNat := Nat.two_pow_pos _
  have hlt : ∀ n, n &&& maxGroup s.cfg.toBits.toNat < 2 ^ s.cfg.toBits.toNat := fun n =>
    Nat.lt_of_le_of_lt Nat.and_le_right (by unfold maxGroup; omega)
  by_cases hb : s.bits.toNat ≤ s.cfg.toBits.toNat
  · exact ⟨_, s.draws, by simp only [paddedResidual, hb]; rfl, hlt _, fun _ => ⟨rfl, rfl⟩⟩
  · exact ⟨_, s.draws + 1, by simp only [paddedResidual, hb]; rfl, hlt _, fun h => absurd h hb⟩

/-- A flush keeps the invariant, whether it succeeds or raises an error. -/
theorem flushGroup_inv {s : State} (h : s.Inv) :
    (∀ t g, flushGroup s = .ok t g → t.Inv) ∧ (∀ t f, flushGroup s = .fail t f → t.Inv) := by
  obtain ⟨r, d, hr, -, -⟩ := paddedResidual_spec s
  have hd : ({ s with draws := d } : State).Inv := inv_congr h rfl rfl rfl rfl rfl
  constructor
  · intro t g e
    unfold flushGroup at e
    simp only [hr] at e
    split at e
    · split at e
      · split at e
        · cases e
        · obtain ⟨rfl, -⟩ := Res.ok.inj e
          exact clearConverter_inv (setLen_inv (memWrite_inv hd _ (by simp only; omega) _) _ (by simp only [memWrite_config]; omega))
      · obtain ⟨rfl, -⟩ := Res.ok.inj e; exact clearConverter_inv h
    · split at e
      · cases e
      · split at e
        · cases e
        · obtain ⟨rfl, -⟩ := Res.ok.inj e; exact clearConverter_inv hd
  · intro t f e
    unfold flushGroup at e
    simp only [hr] at e
    split at e
    · split at e
      · split at e
        · obtain ⟨rfl, -⟩ := Res.fail.inj e; exact h
        · cases e
      · cases e
    · split at e
      · obtain ⟨rfl, -⟩ := Res.fail.inj e; exact h
      · split at e
        · obtain ⟨rfl, -⟩ := Res.fail.inj e; exact hd
        · cases e

end Sys2Proof.Laws
end

