-- ==== Sys2Proof/Laws/PerInstr.lean ====
section
/-!
SUPPORT. A fact about every command as syntax: its word has the bits that its row of spec/30_encoding.md R73 fixes, and
zeros in the bits its format reserves (R71).
-/

namespace Sys2Proof.Laws

/-- The `match` and `mask` columns of R73. -/
def rowMatchMask : Instr → Word × Word
  | .srst => (0x01000000#32, 0xFFFFFFFF#32)
  | .ld _ _ => (0x10000000#32, 0xFF0000FF#32)
  | .st _ _ _ => (0x11000000#32, 0xFF000000#32)
  | .getlen _ => (0x12000000#32, 0xFF3FFFFF#32)
  | .setlen _ _ => (0x13000000#32, 0xFF0000FF#32)
  | .cvCfg _ _ _ _ => (0x20000000#32, 0xFFFFFC00#32)
  | .cvInit => (0x21000000#32, 0xFFFFFFFF#32)
  | .cvPush _ => (0x22000000#32, 0xFFFFFF00#32)
  | .cvFlush => (0x23000000#32, 0xFFFFFFFF#32)
  | .cvRun => (0x24000000#32, 0xFFFFFFFF#32)
  | .cvRd => (0x25000000#32, 0xFFFFFFFF#32)
  | .cvRdcfg => (0x26000000#32, 0xFFFFFFFF#32)
  | .pmInit => (0x30000000#32, 0xFFFFFFFF#32)
  | .pmStep _ => (0x31000000#32, 0xFFFFFFE0#32)
  | .pmRd => (0x32000000#32, 0xFFFFFFFF#32)
  | .pmHrp => (0x33000000#32, 0xFFFFFFFF#32)
  | .pmSym => (0x34000000#32, 0xFFFFFFFF#32)
  | .ckCreate => (0x35000000#32, 0xFFFFFFFF#32)
  | .ckVerify => (0x36000000#32, 0xFFFFFFFF#32)
  | .ckRd _ => (0x37000000#32, 0xFFFFFFF8#32)
  | .alEnc _ => (0x40000000#32, 0xFFFFFFE0#32)
  | .alDec _ => (0x41000000#32, 0xFFFFFF00#32)
  | .alFold _ => (0x42000000#32, 0xFFFFFF00#32)
  | .encode => (0x50000000#32, 0xFFFFFFFF#32)
  | .decode => (0x51000000#32, 0xFFFFFFFF#32)

/-- The word of a command matches its row: `w & mask = match` (R73). -/
def TableRow.Statement (i : Instr) : Prop := encode i &&& (rowMatchMask i).2 = (rowMatchMask i).1

/-- A word is known by its bits. -/
theorem word_ext {x y : Word} (h : ∀ k : Fin 32, x.getLsbD k = y.getLsbD k) : x = y :=
  BitVec.eq_of_getLsbD_eq fun k hk => h ⟨k, hk⟩

theorem TableRow.srst : TableRow.Statement .srst := by unfold TableRow.Statement; decide
theorem TableRow.ld (buf : Buf) (idx : BitVec 14) : TableRow.Statement (.ld buf idx) := by
  refine word_ext fun k => ?_
  cases buf <;> fin_cases k <;> simp [encode, opcodeOf, operandBits, place, bufCode, rowMatchMask]
theorem TableRow.st (buf : Buf) (idx : BitVec 14) (val : Byte) : TableRow.Statement (.st buf idx val) := by
  refine word_ext fun k => ?_
  cases buf <;> fin_cases k <;> simp [encode, opcodeOf, operandBits, place, bufCode, rowMatchMask]
theorem TableRow.getlen (buf : Buf) : TableRow.Statement (.getlen buf) := by
  refine word_ext fun k => ?_
  cases buf <;> fin_cases k <;> simp [encode, opcodeOf, operandBits, place, bufCode, rowMatchMask]
theorem TableRow.setlen (buf : Buf) (n : BitVec 14) : TableRow.Statement (.setlen buf n) := by
  refine word_ext fun k => ?_
  cases buf <;> fin_cases k <;> simp [encode, opcodeOf, operandBits, place, bufCode, rowMatchMask]
theorem TableRow.cvCfg (fromBits toBits : BitVec 4) (pad dir : Bool) : TableRow.Statement (.cvCfg fromBits toBits pad dir) := by
  refine word_ext fun k => ?_
  cases pad <;> cases dir <;> fin_cases k <;> simp [encode, opcodeOf, operandBits, place, rowMatchMask]
theorem TableRow.cvInit : TableRow.Statement .cvInit := by unfold TableRow.Statement; decide
theorem TableRow.cvPush (val : Byte) : TableRow.Statement (.cvPush val) := by
  refine word_ext fun k => ?_
  fin_cases k <;> simp [encode, opcodeOf, operandBits, place, rowMatchMask]
theorem TableRow.cvFlush : TableRow.Statement .cvFlush := by unfold TableRow.Statement; decide
theorem TableRow.cvRun : TableRow.Statement .cvRun := by unfold TableRow.Statement; decide
theorem TableRow.cvRd : TableRow.Statement .cvRd := by unfold TableRow.Statement; decide
theorem TableRow.cvRdcfg : TableRow.Statement .cvRdcfg := by unfold TableRow.Statement; decide
theorem TableRow.pmInit : TableRow.Statement .pmInit := by unfold TableRow.Statement; decide
theorem TableRow.pmStep (sym : BitVec 5) : TableRow.Statement (.pmStep sym) := by
  refine word_ext fun k => ?_
  fin_cases k <;> simp [encode, opcodeOf, operandBits, place, rowMatchMask]
theorem TableRow.pmRd : TableRow.Statement .pmRd := by unfold TableRow.Statement; decide
theorem TableRow.pmHrp : TableRow.Statement .pmHrp := by unfold TableRow.Statement; decide
theorem TableRow.pmSym : TableRow.Statement .pmSym := by unfold TableRow.Statement; decide
theorem TableRow.ckCreate : TableRow.Statement .ckCreate := by unfold TableRow.Statement; decide
theorem TableRow.ckVerify : TableRow.Statement .ckVerify := by unfold TableRow.Statement; decide
theorem TableRow.ckRd (num : BitVec 3) : TableRow.Statement (.ckRd num) := by
  refine word_ext fun k => ?_
  fin_cases k <;> simp [encode, opcodeOf, operandBits, place, rowMatchMask]
theorem TableRow.alEnc (sym : BitVec 5) : TableRow.Statement (.alEnc sym) := by
  refine word_ext fun k => ?_
  fin_cases k <;> simp [encode, opcodeOf, operandBits, place, rowMatchMask]
theorem TableRow.alDec (val : Byte) : TableRow.Statement (.alDec val) := by
  refine word_ext fun k => ?_
  fin_cases k <;> simp [encode, opcodeOf, operandBits, place, rowMatchMask]
theorem TableRow.alFold (val : Byte) : TableRow.Statement (.alFold val) := by
  refine word_ext fun k => ?_
  fin_cases k <;> simp [encode, opcodeOf, operandBits, place, rowMatchMask]
theorem TableRow.encode : TableRow.Statement .encode := by unfold TableRow.Statement; decide
theorem TableRow.decode : TableRow.Statement .decode := by unfold TableRow.Statement; decide

end Sys2Proof.Laws
end

