-- ==== Sys2Proof/WellFormed.lean ====
section
/-!
DEFINITION. The operand ranges of the commands (spec/30_encoding.md R74 step 3). Every operand has the width of its field,
so every term of `Instr` has a command word; what can be wrong with it is an operand outside the range its command allows.
Such a command is still decoded and executed: its own rule answers it with `BAD_INDEX` or `BAD_OPERAND`.
-/

namespace Sys2Proof

/-- R101: `from` and `to` lie in 1..8. -/
def groupWidthOk (n : BitVec 4) : Bool := decide (1 ≤ n.toNat) && decide (n.toNat ≤ 8)

/-- R74 step 3, for a block of capacity `cap`: `idx < CAP` (R210, R211), `n <= CAP` (R213), `from`, `to` in 1..8 (R101),
`i <= 5` (R139). -/
def Instr.wellFormed (cap : Nat) : Instr → Bool
  | .ld _ idx => decide (idx.toNat < cap)
  | .st _ idx _ => decide (idx.toNat < cap)
  | .setlen _ n => decide (n.toNat ≤ cap)
  | .cvCfg fromBits toBits _ _ => groupWidthOk fromBits && groupWidthOk toBits
  | .ckRd num => decide (num.toNat ≤ 5)
  | .srst => true
  | .getlen _ => true
  | .cvInit => true
  | .cvPush _ => true
  | .cvFlush => true
  | .cvRun => true
  | .cvRd => true
  | .cvRdcfg => true
  | .pmInit => true
  | .pmStep _ => true
  | .pmRd => true
  | .pmHrp => true
  | .pmSym => true
  | .ckCreate => true
  | .ckVerify => true
  | .alEnc _ => true
  | .alDec _ => true
  | .alFold _ => true
  | .encode => true
  | .decode => true

end Sys2Proof
end

