-- ==== Sys2Proof/Tests/Slice0.lean ====
section
/-!
SUPPORT. Tests. Words are written out from spec/30_encoding.md R70 to R73 and R82, responses are taken from the examples of
the command rules and from spec/95_test_vectors.md. The second part gives, for each statement of
Sys2Proof/Certificates/Slice0/Obligations.lean that has hypotheses, a state and operands that meet them, at the boundary
values of each clause.
-/

namespace Sys2Proof.Tests

open Sys2Proof Sys2Proof.Machine Sys2Proof.Claims

/-! ### WellFormed refuses what R74 step 3 calls out of range -/

theorem test_wf_ld : (Instr.ld .hrp 127#14).wellFormed 128 = true ∧ (Instr.ld .hrp 128#14).wellFormed 128 = false := by decide
theorem test_wf_st : (Instr.st .dat 7#14 1#8).wellFormed 8 = true ∧ (Instr.st .dat 8#14 1#8).wellFormed 8 = false := by decide
theorem test_wf_setlen : (Instr.setlen .str 128#14).wellFormed 128 = true ∧ (Instr.setlen .str 129#14).wellFormed 128 = false := by
  decide
theorem test_wf_cvCfg : (Instr.cvCfg 1#4 8#4 true true).wellFormed 128 = true ∧
    (Instr.cvCfg 0#4 5#4 true false).wellFormed 128 = false ∧ (Instr.cvCfg 9#4 5#4 true false).wellFormed 128 = false ∧
    (Instr.cvCfg 8#4 0#4 true false).wellFormed 128 = false ∧ (Instr.cvCfg 8#4 9#4 true false).wellFormed 128 = false := by
  decide
theorem test_wf_ckRd : (Instr.ckRd 5#3).wellFormed 128 = true ∧ (Instr.ckRd 6#3).wellFormed 128 = false := by decide

/-! ### Decoding (R70 to R76, R82) -/

theorem test_decode_buffers :
    decode 0b00000001_00_00000000000000_00000000#32 = .ok .srst ∧
    decode 0b00010000_01_00000000010011_00000000#32 = .ok (.ld .dat 19#14) ∧
    decode 0b00010001_11_00000000000011_01010101#32 = .ok (.st .str 3#14 0x55#8) ∧
    decode 0b00010010_11_00000000000000_00000000#32 = .ok (.getlen .str) ∧
    decode 0b00010011_00_00000000000001_00000000#32 = .ok (.setlen .hrp 1#14) := by decide
theorem test_decode_converter :
    decode 0b00100000_00000000000000_1_0_1000_0101#32 = .ok (.cvCfg 5#4 8#4 false true) ∧
    decode 0b00100000_00000000000000_0_1_0101_1000#32 = .ok (.cvCfg 8#4 5#4 true false) ∧
    decode 0b00100001_000000000000000000000000#32 = .ok .cvInit ∧
    decode 0b00100010_0000000000000000_11111111#32 = .ok (.cvPush 0xFF#8) ∧
    decode 0b00100011_000000000000000000000000#32 = .ok .cvFlush ∧
    decode 0b00100100_000000000000000000000000#32 = .ok .cvRun ∧
    decode 0b00100101_000000000000000000000000#32 = .ok .cvRd ∧
    decode 0b00100110_000000000000000000000000#32 = .ok .cvRdcfg := by decide
theorem test_decode_checksum :
    decode 0b00110000_000000000000000000000000#32 = .ok .pmInit ∧
    decode 0b00110001_0000000000000000000_00011#32 = .ok (.pmStep 3#5) ∧
    decode 0b00110010_000000000000000000000000#32 = .ok .pmRd ∧
    decode 0b00110011_000000000000000000000000#32 = .ok .pmHrp ∧
    decode 0b00110100_000000000000000000000000#32 = .ok .pmSym ∧
    decode 0b00110101_000000000000000000000000#32 = .ok .ckCreate ∧
    decode 0b00110110_000000000000000000000000#32 = .ok .ckVerify ∧
    decode 0b00110111_000000000000000000000_101#32 = .ok (.ckRd 5#3) := by decide
theorem test_decode_alphabet :
    decode 0b01000000_0000000000000000000_01111#32 = .ok (.alEnc 15#5) ∧
    decode 0b01000001_0000000000000000_01110001#32 = .ok (.alDec 0x71#8) ∧
    decode 0b01000010_0000000000000000_01000001#32 = .ok (.alFold 0x41#8) ∧
    decode 0b01010000_000000000000000000000000#32 = .ok .encode ∧
    decode 0b01010001_000000000000000000000000#32 = .ok .decode := by decide
theorem test_decode_refuses :
    decode 0x00000000#32 = .error .illegalOpcode ∧ decode 0xFF000000#32 = .error .illegalOpcode ∧
    decode 0x31000020#32 = .error .reservedBits ∧ decode 0x12C00001#32 = .error .reservedBits ∧
    decode 0x01000001#32 = .error .reservedBits := by decide
theorem test_decodeTableWord : decodeTableWord 32 0x11C00355 = some (.st .str 3#14 0x55#8) ∧ decodeTableWord 32 0 = none := by
  decide

/-! ### Small states and what a command leaves -/

/-- The reset state of a block with 16 elements a buffer. -/
def small : State := { State.reset with config := ⟨16⟩ }

/-- `LOAD buf, [...]` (R81). -/
def load (s : State) (b : Buf) (xs : List Byte) : State := (s.writeSeq b 0 xs).setLen b xs.length

/-- The converter registers and configuration set. -/
def converter (s : State) (f t : BitVec 4) (pad dir : Bool) (acc : BitVec 16) (bits : BitVec 4) : State :=
  { s with cfg := ⟨f, t, pad, dir⟩, acc := acc, bits := bits }

/-- The state a command leaves. -/
def after (i : Instr) (s : State) : State :=
  match exec i s with
  | .next t => t
  | .fault _ => s
  | .refused _ => s

/-- The state a step leaves. -/
def stepped (s : State) : State :=
  match step s with
  | .next t => t
  | .fault _ => s
  | .refused _ => s

/-- The response a command gives. -/
def answer (i : Instr) (s : State) : Option Word := (after i s).resp

/-- "a12uel5l" (V1) and variants. -/
def strA : List Byte := [0x61#8, 0x31#8, 0x32#8, 0x75#8, 0x65#8, 0x6C#8, 0x35#8, 0x6C#8]
/-- The checksum symbols of HRP "a" with no data (R137). -/
def cksA : List Byte := [10#8, 28#8, 25#8, 31#8, 20#8, 31#8]

/-! ### One step of each command (examples of the rules) -/

theorem test_step_fetched : (stepped (small.withFetchWord 32 0x20000285)).cfg = ⟨5#4, 8#4, false, true⟩ := by decide
theorem test_step_idle : (stepped small).resp = none := by decide
theorem test_step_hardReset : (stepped { small with chk := 7#30, inputs := [.hardReset] }).chk = 1#30 := by decide
theorem test_step_reserved : (stepped { small with inputs := [.command 0x40000020#32] }).resp = some 0xF2000040#32 := by decide

theorem test_srst : answer .srst small = some 0x00000000#32 ∧ (after .srst (load small .str strA)).lenOf .str = 0 := by decide
theorem test_ld : answer (.ld .str 3#14) (load small .str strA) = some 0x00000075#32 := by decide
theorem test_ld_badIndex : answer (.ld .hrp 16383#14) State.reset = some 0xF43FFF00#32 := by decide
theorem test_st : (after (.st .sym 0#14 0xFF#8) small).element .sym 0 = some 0xFF#8 := by decide
theorem test_st_badIndex : answer (.st .dat 128#14 1#8) State.reset = some 0xF4008001#32 := by decide
theorem test_getlen : answer (.getlen .str) (load small .str strA) = some 8#32 := by decide
theorem test_setlen : (after (.setlen .str 128#14) State.reset).lenOf .str = 128 := by decide
theorem test_setlen_badOperand : answer (.setlen .str 129#14) State.reset = some 0xF3008100#32 := by decide

theorem test_cvCfg : answer (.cvCfg 0#4 5#4 true false) small = some 0xF3000050#32 := by decide
theorem test_cvRdcfg : answer .cvRdcfg (after (.cvCfg 5#4 8#4 false true) small) = some 0x00000285#32 := by decide
theorem test_cvInit : (after .cvInit (load small .sym cksA)).lenOf .sym = 0 := by decide
theorem test_cvPush : answer (.cvPush 0xFF#8) small = some 1#32 ∧
    (after (.cvPush 0xFF#8) small).element .sym 0 = some 31#8 ∧ (after (.cvPush 0xFF#8) small).acc = 0xFF#16 := by decide
theorem test_cvPush_range : answer (.cvPush 32#8) (converter small 5#4 8#4 false true 0#16 0#4) = some 0xD0000020#32 := by decide
theorem test_cvFlush : (after .cvFlush (after (.cvPush 0xFF#8) small)).element .sym 1 = some 28#8 := by decide
theorem test_cvFlush_strict : answer .cvFlush (converter small 5#4 8#4 false true 0x03FD#16 2#4) = some 0xE2000040#32 := by decide
theorem test_cvRun : answer .cvRun (load small .dat [0x00#8, 0x14#8, 0x75#8, 0x1E#8]) = some 7#32 ∧
    (after .cvRun (load small .dat [0x00#8, 0x14#8, 0x75#8, 0x1E#8])).element .sym 6 = some 16#8 := by decide
theorem test_cvRd : answer .cvRd (after (.cvPush 0xFF#8) small) = some 0x000300FF#32 := by decide

theorem test_pmInit : (after .pmInit { small with chk := 7#30 }).chk = 1#30 := by decide
theorem test_pmStep : answer (.pmStep 0#5) { small with chk := 0x02300400#30 } = some 0x3D6AD7B2#32 := by decide
theorem test_pmStep_all : answer (.pmStep 31#5) { small with chk := 0x3FFFFFFF#30 } = some 0x2B326EB4#32 := by decide
theorem test_pmRd : answer .pmRd small = some 1#32 := by decide
theorem test_pmHrp : answer .pmHrp (load small .hrp [0x61#8]) = some 0x00008C01#32 := by decide
theorem test_pmSym : answer .pmSym (load small .sym [10#8, 28#8, 0x20#8]) = some 0xD0000220#32 := by decide
theorem test_ckCreate : answer .ckCreate (load small .hrp [0x61#8]) = some 0x15CCFE9F#32 ∧
    (after .ckCreate (load small .hrp [0x61#8])).cks = #v[10#5, 28#5, 25#5, 31#5, 20#5, 31#5] := by decide
theorem test_ckVerify : answer .ckVerify (load (load small .hrp [0x61#8]) .sym cksA) = some 1#32 := by decide
theorem test_ckVerify_wrong :
    (after .ckVerify (load (load small .hrp [0x61#8]) .sym [10#8, 28#8, 24#8, 31#8, 20#8, 31#8])).chk = 0x8001#30 := by decide
theorem test_ckRd : answer (.ckRd 5#3) (after .ckCreate (load small .hrp [0x61#8])) = some 0x1F#32 := by decide
theorem test_ckRd_badOperand : answer (.ckRd 6#3) small = some 0xF3000006#32 := by decide

theorem test_alEnc : answer (.alEnc 15#5) small = some 0x30#32 ∧ answer (.alEnc 31#5) small = some 0x6C#32 := by decide
theorem test_alDec : answer (.alDec 0x61#8) small = some 0x1D#32 ∧ answer (.alDec 0x51#8) small = some 0xA4000051#32 := by decide
theorem test_alFold : answer (.alFold 0x5A#8) small = some 0x7A#32 ∧ answer (.alFold 0x7F#8) small = some 0x9000007F#32 := by
  decide

theorem test_encode : answer .encode (load small .hrp [0x41#8]) = some 8#32 ∧
    (after .encode (load small .hrp [0x41#8])).mem.str = (load small .str strA).mem.str := by decide
set_option maxRecDepth 4000 in
theorem test_encode_payload : (after .encode (load (load small .hrp [0x62#8, 0x63#8]) .dat
    [0x00#8, 0x14#8, 0x75#8, 0x1E#8])).cks = #v[22#5, 31#5, 23#5, 19#5, 31#5, 19#5] := by decide
theorem test_decode : answer .decode (load small .str strA) = some 0x4000#32 ∧
    (after .decode (load small .str strA)).element .hrp 0 = some 0x61#8 := by decide
theorem test_decode_shortBody : answer .decode (load small .str [0x61#8, 0x31#8, 0x71#8, 0x71#8, 0x71#8, 0x71#8, 0x71#8])
    = some 0xA3000105#32 := by decide

/-! ### Tools for the witnesses -/

/-- The command completes. -/
def isNext (i : Instr) (s : State) : Bool :=
  match exec i s with
  | .next _ => true
  | .fault _ => false
  | .refused _ => false

theorem exec_after {i : Instr} {s : State} (h : isNext i s = true) : exec i s = .next (after i s) := by
  unfold isNext at h
  unfold after
  split at h
  · rename_i t ht
    rw [ht]
  · cases h
  · cases h

/-- `State.Inv`, decided. -/
def invCheck (s : State) : Bool :=
  decide (s.config.legal ∧ (1 ≤ s.cfg.fromBits.toNat ∧ s.cfg.fromBits.toNat ≤ 8) ∧
    (1 ≤ s.cfg.toBits.toNat ∧ s.cfg.toBits.toNat ≤ 8) ∧ s.bits.toNat ≤ 7) &&
  [Buf.hrp, .dat, .sym, .str].all fun b => decide (s.lenOf b ≤ s.config.cap ∧ (s.mem.get b).within s.config.cap)

theorem inv_of_check {s : State} (h : invCheck s = true) : s.Inv := by
  simp only [invCheck, Bool.and_eq_true, List.all_cons, List.all_nil, decide_eq_true_eq, Bool.and_true] at h
  obtain ⟨⟨hc, hf, ht, hb⟩, h1, h2, h3, h4⟩ := h
  exact ⟨hc, hf, ht, hb, fun b => by cases b; exacts [h1.1, h2.1, h3.1, h4.1],
    fun b => by cases b; exacts [h1.2, h2.2, h3.2, h4.2]⟩

theorem lowestBad_of {bad : Byte → Prop} (pre post : List Byte) {v : Byte} (hv : bad v) (hp : ∀ x ∈ pre, ¬ bad x) :
    LowestBad bad (pre ++ v :: post) pre.length v := by
  refine ⟨by simp, hv, fun j x hj hx => hp x ?_⟩
  rw [List.getElem?_append_left hj] at hx
  exact List.mem_of_getElem? hx

theorem lastOne_of (pre post : List Byte) (hp : 0x31#8 ∉ post) : LastOne (pre ++ 0x31#8 :: post) pre.length := by
  refine ⟨by simp, fun k hk h => hp ?_⟩
  rw [List.getElem?_append_right (by omega)] at h
  obtain ⟨m, rfl⟩ : ∃ m, k = pre.length + (m + 1) := ⟨k - pre.length - 1, by omega⟩
  simp at h
  exact List.mem_of_getElem? h

/-- `State.Holds`, decided. -/
def holdsCheck (s : State) (b : Buf) (xs : List Byte) : Bool :=
  decide (s.lenOf b = xs.length ∧ ∀ k, k < xs.length → s.element b k = xs[k]?)

theorem holds_of_check {s : State} {b : Buf} {xs : List Byte} (h : holdsCheck s b xs = true) : s.Holds b xs := by
  unfold holdsCheck at h
  have h' := of_decide_eq_true h
  exact h'

theorem written_of {s : State} {b : Buf} {xs : List Byte} (h : holdsCheck s b xs = true) : s.Written b := by
  obtain ⟨hl, he⟩ := holds_of_check h
  intro k hk
  rw [he k (hl ▸ hk)]
  simp [hl ▸ hk]

/-! ### Witnesses: encoding and the port -/

theorem witness_EncodeInvertsDecode : decode 0x37000005#32 = .ok (.ckRd 5#3) := by decide

theorem witness_WordsThatAreNoCommandFail :
    (∃ s : State, s.inputs = .command 0x00000000#32 :: [] ∧ ∀ r ∈ opcodeTable, 0x00000000#32 >>> 24 ≠ r.1 >>> 24) ∧
    (∃ s : State, s.inputs = .command 0xFFFFFFFF#32 :: [] ∧ ∀ r ∈ opcodeTable, 0xFFFFFFFF#32 >>> 24 ≠ r.1 >>> 24) ∧
    (∃ s : State, s.inputs = .command 0x31000020#32 :: [.hardReset] ∧
      (∃ r ∈ opcodeTable, 0x31000020#32 >>> 24 = r.1 >>> 24) ∧ ∀ r ∈ opcodeTable, 0x31000020#32 &&& r.2 ≠ r.1) :=
  ⟨⟨{ small with inputs := [.command 0x00000000#32] }, rfl, by simp [opcodeTable]⟩,
   ⟨{ small with inputs := [.command 0xFFFFFFFF#32] }, rfl, by simp [opcodeTable]⟩,
   ⟨{ small with inputs := [.command 0x31000020#32, .hardReset] }, rfl, by simp [opcodeTable], by simp [opcodeTable]⟩⟩

theorem witness_StepRunsDecodedCommand :
    ∃ s : State, s.inputs = .command 0x3100001F#32 :: [] ∧ decode 0x3100001F#32 = .ok (.pmStep 31#5) :=
  ⟨{ small with inputs := [.command 0x3100001F#32] }, rfl, by decide⟩

/-- An old response stands at the port. -/
theorem witness_EveryCommandWordIsAnswered : ∃ s : State, s.inputs = .command 0x51000000#32 :: [] ∧ s.resp = some 0xF2000040#32 :=
  ⟨{ small with inputs := [.command 0x51000000#32], resp := some 0xF2000040#32 }, rfl, rfl⟩

theorem witness_OnlyListedErrorsOccur :
    ∃ (t : State) (r : Word), exec (.ckRd 7#3) small = .next t ∧ t.resp = some r ∧ r.getLsbD 31 = true :=
  ⟨_, 0xF3000007#32, exec_after (by decide), by decide, by decide⟩

theorem witness_KindsOfEncodeAndDecode :
    (∃ (t : State) (r : Word), exec .decode small = .next t ∧ t.resp = some r ∧ r.getLsbD 31 = true) ∧
    (∃ (t : State) (r : Word), exec .encode small = .next t ∧ t.resp = some r ∧ r.getLsbD 31 = true) :=
  ⟨⟨_, 0xA1000000#32, exec_after (by decide), by decide, by decide⟩,
   ⟨_, 0xC1000000#32, exec_after (by decide), by decide, by decide⟩⟩

theorem witness_HardwareResetIsSrst : ∃ s : State, s.inputs = .hardReset :: [.command 0x32000000#32] :=
  ⟨{ small with inputs := [.hardReset, .command 0x32000000#32] }, rfl⟩

/-- The host presents a CV.PUSH; the converter has the most live bits and the narrowest groups. -/
def pushing : State :=
  { converter (load small .sym cksA) 8#4 1#4 true false 0xFFFF#16 7#4 with inputs := [.command 0x22000000#32] }

theorem witness_StepKeepsInvariant : ∃ s t : State, s.Inv ∧ step s = .next t ∧ s.inputs = [.command 0x22000000#32] := by
  have hd : decode 0x22000000#32 = .ok (.cvPush 0#8) := by decide
  have hs : step pushing = exec (.cvPush 0#8) (pushing.take []) := by simp only [step, pushing, hd]
  exact ⟨pushing, after (.cvPush 0#8) (pushing.take []), inv_of_check (by decide), hs.trans (exec_after (by decide)), rfl⟩

/-! ### Witnesses: buffers -/

theorem witness_LdReadsElement :
    (16#14).toNat ≥ small.config.cap ∧ (15#14).toNat < small.config.cap ∧
    (small.memWrite .str 15 7#8).element .str (15#14).toNat = some 7#8 ∧ small.element .str (15#14).toNat = none := by decide

theorem witness_StWritesElement : (16#14).toNat ≥ small.config.cap ∧ (15#14).toNat < small.config.cap := by decide

theorem witness_SetlenWritesLength : (17#14).toNat > small.config.cap ∧ (16#14).toNat ≤ small.config.cap := by decide

/-! ### Witnesses: the Bit Converter -/

theorem witness_CvCfgConfigures :
    ((1 ≤ (1#4).toNat ∧ (1#4).toNat ≤ 8) ∧ (1 ≤ (8#4).toNat ∧ (8#4).toNat ≤ 8)) ∧
    ¬ ((1 ≤ (0#4).toNat ∧ (0#4).toNat ≤ 8) ∧ (1 ≤ (8#4).toNat ∧ (8#4).toNat ≤ 8)) ∧
    ¬ ((1 ≤ (8#4).toNat ∧ (8#4).toNat ≤ 8) ∧ (1 ≤ (9#4).toNat ∧ (9#4).toNat ≤ 8)) := by decide

/-- FROM = 5, TO = 1, BITS = 7: twelve groups, which just fit, or just do not. -/
theorem witness_CvPushEmitsGroups :
    ∃ s s' : State, s.Inv ∧ s'.Inv ∧ s.cfg.fromBits.toNat = 5 ∧ (31#8).toNat < 2 ^ 5 ∧ (32#8).toNat ≥ 2 ^ 5 ∧
      s.lenOf (dstOf s) + (s.bits.toNat + 5) / s.cfg.toBits.toNat = s.config.cap ∧
      s'.lenOf (dstOf s') + (s'.bits.toNat + 5) / s'.cfg.toBits.toNat = s'.config.cap + 1 :=
  ⟨converter (load small .sym [1#8, 2#8, 3#8, 4#8]) 5#4 1#4 true false 0x7F#16 7#4,
   converter (load small .sym [1#8, 2#8, 3#8, 4#8, 5#8]) 5#4 1#4 true false 0x7F#16 7#4,
   inv_of_check (by decide), inv_of_check (by decide), by decide⟩

/-- A full destination. -/
def fullSym : State := load small .sym (List.replicate 16 1#8)

theorem witness_CvFlushEndsInput :
    (∃ s : State, s.Inv ∧ s.cfg.pad = true ∧ s.bits.toNat = 0) ∧
    (∃ s : State, s.Inv ∧ s.bits.toNat ≤ s.cfg.toBits.toNat ∧ s.cfg.pad = true ∧ 0 < s.bits.toNat ∧
      s.lenOf (dstOf s) + 1 > s.config.cap) ∧
    (∃ s : State, s.Inv ∧ s.cfg.pad = true ∧ s.bits.toNat = s.cfg.toBits.toNat ∧ s.lenOf (dstOf s) + 1 ≤ s.config.cap) ∧
    (∃ s : State, s.Inv ∧ s.bits.toNat ≤ s.cfg.toBits.toNat ∧ s.cfg.pad = false ∧ s.cfg.fromBits.toNat = s.bits.toNat) ∧
    (∃ s : State, s.Inv ∧ s.bits.toNat ≤ s.cfg.toBits.toNat ∧ s.cfg.pad = false ∧ s.bits.toNat < s.cfg.fromBits.toNat ∧
      s.acc.toNat % 2 ^ s.bits.toNat * 2 ^ (s.cfg.toBits.toNat - s.bits.toNat) ≠ 0) ∧
    (∃ s : State, s.Inv ∧ s.bits.toNat ≤ s.cfg.toBits.toNat ∧ s.cfg.pad = false ∧ s.bits.toNat < s.cfg.fromBits.toNat ∧
      s.acc.toNat % 2 ^ s.bits.toNat * 2 ^ (s.cfg.toBits.toNat - s.bits.toNat) = 0) :=
  ⟨⟨small, inv_of_check (by decide), by decide⟩,
   ⟨converter fullSym 8#4 5#4 true false 0xFF#16 3#4, inv_of_check (by decide), by decide⟩,
   ⟨converter small 8#4 5#4 true false 0x1F#16 5#4, inv_of_check (by decide), by decide⟩,
   ⟨converter small 5#4 8#4 false true 0x1F#16 5#4, inv_of_check (by decide), by decide⟩,
   ⟨converter small 5#4 8#4 false true 0x11#16 4#4, inv_of_check (by decide), by decide⟩,
   ⟨converter small 5#4 8#4 false true 0x10#16 4#4, inv_of_check (by decide), by decide⟩⟩

theorem witness_CvFlushOfUnspecifiedBits :
    (∃ s : State, s.Inv ∧ s.cfg.toBits.toNat < s.bits.toNat ∧ s.cfg.pad = true ∧ s.lenOf (dstOf s) + 1 > s.config.cap) ∧
    (∃ s : State, s.Inv ∧ s.cfg.toBits.toNat < s.bits.toNat ∧ s.cfg.pad = true ∧ s.lenOf (dstOf s) + 1 ≤ s.config.cap) ∧
    (∃ s : State, s.Inv ∧ s.cfg.toBits.toNat < s.bits.toNat ∧ s.cfg.pad = false ∧ s.cfg.fromBits.toNat ≤ s.bits.toNat) ∧
    (∃ s : State, s.Inv ∧ s.cfg.toBits.toNat < s.bits.toNat ∧ s.cfg.pad = false ∧ s.bits.toNat < s.cfg.fromBits.toNat) :=
  ⟨⟨converter fullSym 8#4 6#4 true false 0#16 7#4, inv_of_check (by decide), by decide⟩,
   ⟨converter small 8#4 6#4 true false 0#16 7#4, inv_of_check (by decide), by decide⟩,
   ⟨converter small 7#4 6#4 false false 0#16 7#4, inv_of_check (by decide), by decide⟩,
   ⟨converter small 8#4 6#4 false false 0#16 7#4, inv_of_check (by decide), by decide⟩⟩

/-- F = 5, T = 8: the first value that does not fit; residuals of 5, 4 (not zero) and 4 (zero) bits. -/
theorem witness_ConvertRegroupsBits :
    LowestBad (fun x => 2 ^ 5 ≤ x.toNat) [31#8, 32#8] 1 32#8 ∧
    ((∀ x ∈ [31#8], x.toNat < 2 ^ 5) ∧ 5 ≤ [31#8].length * 5 % 8) ∧
    ((∀ x ∈ [0#8, 0#8, 0#8, 8#8], x.toNat < 2 ^ 5) ∧ [0#8, 0#8, 0#8, 8#8].length * 5 % 8 < 5 ∧
      groupsValue 5 [0#8, 0#8, 0#8, 8#8] % 2 ^ ([0#8, 0#8, 0#8, 8#8].length * 5 % 8) ≠ 0) ∧
    ((∀ x ∈ [0#8, 0#8, 0#8, 16#8], x.toNat < 2 ^ 5) ∧
      groupsValue 5 [0#8, 0#8, 0#8, 16#8] % 2 ^ ([0#8, 0#8, 0#8, 16#8].length * 5 % 8) = 0) :=
  ⟨lowestBad_of [31#8] [] (by decide) (by decide), by decide, by decide, by decide⟩

theorem witness_CvRunComputesConvert :
    (∃ (s : State) (xs out : List Byte), s.Inv ∧ s.Holds (srcOf s) xs ∧
      convert s.cfg.fromBits.toNat s.cfg.toBits.toNat s.cfg.pad xs = .ok out ∧ out.length = s.config.cap) ∧
    (∃ (s : State) (xs out : List Byte), s.Inv ∧ s.Holds (srcOf s) xs ∧
      convert s.cfg.fromBits.toNat s.cfg.toBits.toNat s.cfg.pad xs = .ok out ∧ out.length = s.config.cap + 1) ∧
    (∃ (s : State) (xs : List Byte) (e : ConvError), s.Inv ∧ s.Holds (srcOf s) xs ∧
      convert s.cfg.fromBits.toNat s.cfg.toBits.toNat s.cfg.pad xs = .error e) :=
  ⟨⟨converter (load small .dat [0#8, 0#8]) 8#4 1#4 true false 0#16 0#4, [0#8, 0#8], List.replicate 16 0#8,
      inv_of_check (by decide), holds_of_check (by decide), by decide⟩,
   ⟨converter (load { small with config := ⟨15⟩ } .dat [0#8, 0#8]) 8#4 1#4 true false 0#16 0#4, [0#8, 0#8],
      List.replicate 16 0#8, inv_of_check (by decide), holds_of_check (by decide), by decide⟩,
   ⟨converter (load small .dat [31#8]) 5#4 8#4 false false 0#16 0#4, [31#8], .residual 5,
      inv_of_check (by decide), holds_of_check (by decide), by decide⟩⟩

/-- A block with 8 elements a buffer, DAT to SYM. -/
def running (xs : List Byte) (f t : BitVec 4) (pad : Bool) : State :=
  converter (load { small with config := ⟨8⟩ } .dat xs) f t pad false 0#16 0#4

/-- Capacity 8. A bad element after 9 groups and after 8 groups; nine groups; eight groups and a padded one; a residual of
four bits; eight groups and one left-over bit 1. -/
theorem witness_CvRunReportsConvertErrors :
    ((running [0#8, 0#8, 0#8, 8#8] 3#4 1#4 true).Inv ∧
      (running [0#8, 0#8, 0#8, 8#8] 3#4 1#4 true).Holds .dat [0#8, 0#8, 0#8, 8#8] ∧
      LowestBad (fun x => 2 ^ 3 ≤ x.toNat) [0#8, 0#8, 0#8, 8#8] 3 8#8 ∧ 8 < 3 * 3 / 1) ∧
    ((running [0#8, 0#8, 16#8] 4#4 1#4 true).Inv ∧ (running [0#8, 0#8, 16#8] 4#4 1#4 true).Holds .dat [0#8, 0#8, 16#8] ∧
      LowestBad (fun x => 2 ^ 4 ≤ x.toNat) [0#8, 0#8, 16#8] 2 16#8 ∧ 2 * 4 / 1 ≤ 8) ∧
    ((running [7#8, 7#8, 7#8] 3#4 1#4 false).Inv ∧ (running [7#8, 7#8, 7#8] 3#4 1#4 false).Holds .dat [7#8, 7#8, 7#8] ∧
      (∀ x ∈ [7#8, 7#8, 7#8], x.toNat < 2 ^ 3) ∧ 8 < 3 * 3 / 1) ∧
    ((running (List.replicate 5 31#8) 5#4 3#4 true).Inv ∧
      (running (List.replicate 5 31#8) 5#4 3#4 true).Holds .dat (List.replicate 5 31#8) ∧
      (∀ x ∈ List.replicate 5 31#8, x.toNat < 2 ^ 5) ∧ 5 * 5 / 3 ≤ 8 ∧ 8 < (5 * 5 + 3 - 1) / 3) ∧
    ((running (List.replicate 8 0#8) 3#4 5#4 false).Inv ∧
      (running (List.replicate 8 0#8) 3#4 5#4 false).Holds .dat (List.replicate 8 0#8) ∧
      convert 3 5 false (List.replicate 8 0#8) = .error (.residual 4) ∧ 8 * 3 / 5 ≤ 8) ∧
    ((running (List.replicate 4 0#8 ++ [1#8]) 5#4 3#4 false).Inv ∧
      (running (List.replicate 4 0#8 ++ [1#8]) 5#4 3#4 false).Holds .dat (List.replicate 4 0#8 ++ [1#8]) ∧
      convert 5 3 false (List.replicate 4 0#8 ++ [1#8]) = .error (.nonzeroPad 4) ∧ 5 * 5 / 3 = 8) :=
  ⟨⟨inv_of_check (by decide), holds_of_check (by decide), lowestBad_of (List.replicate 3 0#8) [] (by decide) (by decide),
      by decide⟩,
   ⟨inv_of_check (by decide), holds_of_check (by decide), lowestBad_of [0#8, 0#8] [] (by decide) (by decide), by decide⟩,
   ⟨inv_of_check (by decide), holds_of_check (by decide), by decide, by decide⟩,
   ⟨inv_of_check (by decide), holds_of_check (by decide), by decide, by decide, by decide⟩,
   ⟨inv_of_check (by decide), holds_of_check (by decide), by decide, by decide⟩,
   ⟨inv_of_check (by decide), holds_of_check (by decide), by decide, by decide⟩⟩

theorem witness_ConversionLengthLaws :
    ∃ (s t : State), s.Inv ∧ (∀ x ∈ [255#8, 0#8], x.toNat < 2 ^ s.cfg.fromBits.toNat) ∧
      2 * s.cfg.fromBits.toNat / s.cfg.toBits.toNat = s.config.cap ∧
      execAll (.cvInit :: [255#8, 0#8].map .cvPush) s = .next t ∧ ∃ u, exec .cvFlush t = .next u ∧ Succeeded u :=
  ⟨converter fullSym 8#4 1#4 true false 0#16 3#4, after (.cvPush 0#8) (after (.cvPush 255#8) (after .cvInit
      (converter fullSym 8#4 1#4 true false 0#16 3#4))),
    inv_of_check (by decide), by decide, by decide, by
      simp only [execAll, List.map, exec_after (i := .cvInit) (s := converter fullSym 8#4 1#4 true false 0#16 3#4) (by decide),
        exec_after (i := .cvPush 255#8) (s := after .cvInit (converter fullSym 8#4 1#4 true false 0#16 3#4)) (by decide),
        exec_after (i := .cvPush 0#8) (s := after (.cvPush 255#8) (after .cvInit
          (converter fullSym 8#4 1#4 true false 0#16 3#4))) (by decide)],
    _, exec_after (by decide), 0#32, by decide, by decide⟩

theorem witness_DeadBitsDoNotMatter :
    ∃ (s : State) (a : BitVec 16), s.Inv ∧ s.bits.toNat = s.cfg.toBits.toNat ∧ a ≠ s.acc ∧
      a.toNat % 2 ^ s.bits.toNat = s.acc.toNat % 2 ^ s.bits.toNat :=
  ⟨converter small 8#4 5#4 true false 0x001F#16 5#4, 0xFFFF#16, inv_of_check (by decide), by decide⟩

/-! ### Witnesses: the Checksum Engine -/

/-- HRP "a" with its six checksum symbols. -/
def verified : State := load (load small .hrp [0x61#8]) .sym cksA

theorem witness_PmHrpFeedsExpansion : verified.Holds .hrp [0x61#8] ∧ small.Holds .hrp [] :=
  ⟨holds_of_check (by decide), holds_of_check (by decide)⟩

/-- The largest symbol, and the smallest element that is no symbol. -/
theorem witness_PmSymFeedsSymbols :
    (verified.Holds .sym cksA ∧ ∀ v ∈ cksA, v.toNat ≤ 31) ∧
    ((load small .sym [31#8, 32#8]).Holds .sym [31#8, 32#8] ∧ LowestBad (fun x => 31 < x.toNat) [31#8, 32#8] 1 32#8) :=
  ⟨⟨holds_of_check (by decide), by decide⟩, holds_of_check (by decide), lowestBad_of [31#8] [] (by decide) (by decide)⟩

theorem witness_CkCreateUnpacksChecksum :
    (verified.Holds .hrp [0x61#8] ∧ verified.Holds .sym cksA ∧ ∀ v ∈ cksA, v.toNat ≤ 31) ∧
    ((load small .sym [31#8, 32#8]).Holds .hrp [] ∧ (load small .sym [31#8, 32#8]).Holds .sym [31#8, 32#8] ∧
      LowestBad (fun x => 31 < x.toNat) [31#8, 32#8] 1 32#8) :=
  ⟨⟨holds_of_check (by decide), holds_of_check (by decide), by decide⟩, holds_of_check (by decide), holds_of_check (by decide),
    lowestBad_of [31#8] [] (by decide) (by decide)⟩

/-- The same states as for CK.CREATE: one that verifies, one that does not end its feed. -/
theorem witness_CkVerifyTellsVerdict :
    (verified.Holds .hrp [0x61#8] ∧ verified.Holds .sym cksA ∧ (∀ v ∈ cksA, v.toNat ≤ 31) ∧
      feed 1#30 (expansion [0x61#8] ++ cksA.map (fun v => BitVec.ofNat 5 v.toNat)) = 1#30) ∧
    ((load small .sym [255#8]).Holds .hrp [] ∧ (load small .sym [255#8]).Holds .sym [255#8] ∧
      LowestBad (fun x => 31 < x.toNat) [255#8] 0 255#8) :=
  ⟨⟨holds_of_check (by decide), holds_of_check (by decide), by decide, by decide⟩, holds_of_check (by decide),
    holds_of_check (by decide), lowestBad_of [] [] (by decide) (by decide)⟩

theorem witness_CkRdReadsChecksumSymbol : (5#3).toNat < 6 ∧ 5 < (6#3).toNat := by decide

/-- The six symbols just fit. -/
theorem witness_CreateThenVerify :
    ∃ s : State, s.Inv ∧ s.Holds .hrp [0x61#8] ∧ s.Holds .sym (List.replicate 10 31#8) ∧
      (∀ v ∈ List.replicate 10 31#8, v.toNat ≤ 31) ∧ (List.replicate 10 31#8).length + 6 = s.config.cap :=
  ⟨load (load small .hrp [0x61#8]) .sym (List.replicate 10 31#8), inv_of_check (by decide), holds_of_check (by decide),
    holds_of_check (by decide), by decide, by decide⟩

theorem witness_OneChangedSymbolIsDetected :
    8 < [3#5, 0#5, 1#5, 10#5, 28#5, 25#5, 31#5, 20#5, 31#5].length ∧
    [3#5, 0#5, 1#5, 10#5, 28#5, 25#5, 31#5, 20#5, 31#5][8]? ≠ some 30#5 ∧
    feed 1#30 [3#5, 0#5, 1#5, 10#5, 28#5, 25#5, 31#5, 20#5, 31#5] = 1#30 := by decide

/-! ### Witnesses: the Alphabet unit -/

set_option maxRecDepth 4000 in
theorem witness_AlEncLooksUpAlphabet :
    alphabetCodes[(0#5).toNat]? = some 0x71 ∧ alphabetCodes[(31#5).toNat]? = some 0x6C := by decide

theorem witness_AlFoldFoldsCase : Printable 0x21#8 ∧ Printable 0x7E#8 ∧ ¬ Printable 0x20#8 ∧ ¬ Printable 0x7F#8 := by
  unfold Printable
  decide

set_option maxRecDepth 4000 in
theorem witness_AlDecInvertsAlphabet :
    alphabetCodes[31]? = some (0x6C#8).toNat ∧ (0x51#8).toNat ∉ alphabetCodes ∧ (0xF1#8).toNat ∉ alphabetCodes := by decide

set_option maxRecDepth 4000 in
theorem witness_AlphabetRoundTrip :
    (∃ t : State, exec (.alDec 0x30#8) small = .next t ∧ Succeeded t) ∧
    (0x41 ≤ (0x5A#8).toNat ∧ (0x5A#8).toNat ≤ 0x5A ∧ (0x5A#8).toNat + 0x20 ∈ alphabetCodes) :=
  ⟨⟨_, exec_after (by decide), 15#32, by decide, by decide⟩, by decide⟩

/-! ### Witnesses: ENCODE -/

/-- HRP "A", no payload. -/
def toEncode : State := load small .hrp [0x41#8]

theorem witness_EncodeWritesString :
    toEncode.Inv ∧ toEncode.Holds .hrp [0x41#8] ∧ toEncode.Holds .dat [] ∧ (∀ x ∈ [0x41#8], Printable x) ∧
    [0x41#8].length + 1 + (8 * 0 + 4) / 5 + 6 ≤ toEncode.config.cap ∧ convert 8 5 true [] = .ok [] := by
  refine ⟨inv_of_check (by decide), holds_of_check (by decide), holds_of_check (by decide), ?_, by decide, by decide⟩
  unfold Printable
  decide

/-- A length of 0; a string of 17 characters for a capacity of 16; a byte 0x7F, and one of 0x20, in an HRP for a string of 16
characters. -/
theorem witness_EncodeChecksInOrder :
    small.lenOf .hrp = 0 ∧
    (∃ s : State, 0 < s.lenOf .hrp ∧ s.lenOf .hrp + 1 + (8 * s.lenOf .dat + 4) / 5 + 6 = s.config.cap + 1) ∧
    (∃ s : State, s.lenOf .hrp + 1 + (8 * s.lenOf .dat + 4) / 5 + 6 = s.config.cap ∧
      s.Holds .hrp (List.replicate 8 0x7E#8 ++ [0x7F#8]) ∧
      LowestBad (fun x => ¬ Printable x) (List.replicate 8 0x7E#8 ++ [0x7F#8]) 8 0x7F#8) ∧
    (∃ s : State, s.Holds .hrp [0x20#8] ∧ LowestBad (fun x => ¬ Printable x) [0x20#8] 0 0x20#8) :=
  ⟨by decide, ⟨load small .hrp (List.replicate 10 0x61#8), by decide⟩,
   ⟨load small .hrp (List.replicate 8 0x7E#8 ++ [0x7F#8]), by decide, holds_of_check (by decide),
     lowestBad_of (List.replicate 8 0x7E#8) [] (by unfold Printable; decide) (by unfold Printable; decide)⟩,
   ⟨load small .hrp [0x20#8], holds_of_check (by decide), lowestBad_of [] [] (by unfold Printable; decide) (by simp)⟩⟩

theorem witness_EncodeOutputCharacters :
    ∃ t : State, toEncode.Inv ∧ toEncode.Written .hrp ∧ exec .encode toEncode = .next t ∧ Succeeded t :=
  ⟨_, inv_of_check (by decide), written_of (xs := [0x41#8]) (by decide), exec_after (by decide), 8#32, by decide, by decide⟩

/-- Other register contents. -/
def otherRegisters (s : State) : State := { converter s 1#4 2#4 false true 7#16 1#4 with chk := 3#30 }

/-- ENCODE and DECODE, each with a success and with a failure. -/
theorem witness_EncodeAndDecodeIgnoreRegisters :
    (∀ s t : State, t = otherRegisters s →
      t = { s with chk := t.chk, acc := t.acc, bits := t.bits, cfg := t.cfg, cks := t.cks }) ∧
    (toEncode.Written .hrp ∧ toEncode.Written .dat ∧ Succeeded (after .encode toEncode)) ∧
    (small.Written .hrp ∧ small.Written .dat ∧ Failed (after .encode small)) ∧
    ((load small .str strA).Written .str ∧ Succeeded (after .decode (load small .str strA))) ∧
    (small.Written .str ∧ Failed (after .decode small)) :=
  ⟨fun _ _ h => by subst h; rfl,
   ⟨written_of (xs := [0x41#8]) (by decide), written_of (xs := []) (by decide), 8#32, by decide, by decide⟩,
   ⟨written_of (xs := []) (by decide), written_of (xs := []) (by decide), 0xC1000000#32, by decide, by decide⟩,
   ⟨written_of (xs := strA) (by decide), 0x4000#32, by decide, by decide⟩,
   ⟨written_of (xs := []) (by decide), 0xA1000000#32, by decide, by decide⟩⟩

/-! ### Witnesses: DECODE -/

theorem witness_DecodeChecksRangeFirst :
    (load small .str [0x21#8, 0x7E#8, 0x7F#8]).Holds .str [0x21#8, 0x7E#8, 0x7F#8] ∧
    LowestBad (fun x => ¬ Printable x) [0x21#8, 0x7E#8, 0x7F#8] 2 0x7F#8 :=
  ⟨holds_of_check (by decide), lowestBad_of [0x21#8, 0x7E#8] [] (by unfold Printable; decide) (by unfold Printable; decide)⟩

/-- The empty string; "1"; "a1qqqqq". -/
theorem witness_DecodeLocatesSeparator :
    (small.Holds .str [] ∧ 0x31#8 ∉ ([] : List Byte).map lower) ∧
    ((load small .str [0x31#8]).Holds .str [0x31#8] ∧ LastOne ([0x31#8].map lower) 0) ∧
    ((load small .str ([0x41#8] ++ 0x31#8 :: List.replicate 5 0x71#8)).Holds .str
        ([0x41#8] ++ 0x31#8 :: List.replicate 5 0x71#8) ∧
      (∀ x ∈ [0x41#8] ++ 0x31#8 :: List.replicate 5 0x71#8, Printable x) ∧
      LastOne (([0x41#8] ++ 0x31#8 :: List.replicate 5 0x71#8).map lower) 1 ∧
      (([0x41#8] ++ 0x31#8 :: List.replicate 5 0x71#8).map lower).length - 1 - 1 < 6) := by
  refine ⟨⟨holds_of_check (by decide), by decide⟩, ⟨holds_of_check (by decide), lastOne_of [] [] (by decide)⟩,
    holds_of_check (by decide), ?_, lastOne_of [0x61#8] (List.replicate 5 0x71#8) (by decide), by decide⟩
  unfold Printable
  decide

set_option maxRecDepth 4000 in
/-- "a1Bqqqqq" (R194). -/
theorem witness_DecodeMapsCharacters :
    (load small .str (0x61#8 :: 0x31#8 :: 0x42#8 :: List.replicate 5 0x71#8)).Holds .str
      (0x61#8 :: 0x31#8 :: 0x42#8 :: List.replicate 5 0x71#8) ∧
    (∀ x ∈ 0x61#8 :: 0x31#8 :: 0x42#8 :: List.replicate 5 0x71#8, Printable x) ∧
    LastOne ((0x61#8 :: 0x31#8 :: 0x42#8 :: List.replicate 5 0x71#8).map lower) 1 ∧
    6 ≤ ((0x61#8 :: 0x31#8 :: 0x42#8 :: List.replicate 5 0x71#8).map lower).length - 1 - 1 ∧
    LowestBad (fun x => x.toNat ∉ alphabetCodes) (((0x61#8 :: 0x31#8 :: 0x42#8 :: List.replicate 5 0x71#8).map lower).drop 2)
      0 0x62#8 := by
  refine ⟨holds_of_check (by decide), ?_, lastOne_of [0x61#8] (0x62#8 :: List.replicate 5 0x71#8) (by decide), by decide,
    lowestBad_of [] (List.replicate 5 0x71#8) (by decide) (by decide)⟩
  unfold Printable
  decide

set_option maxRecDepth 4000 in
/-- "a12uel5m" (R195). -/
theorem witness_DecodeVerifiesChecksum :
    ∃ str : List Byte, (load small .str str).Holds .str str ∧ (∀ x ∈ str, Printable x) ∧ LastOne (str.map lower) 1 ∧
      ((str.map lower).drop 2).map BitVec.toNat =
        [10#5, 28#5, 25#5, 31#5, 20#5, 27#5].map (fun b => alphabetCodes.getD b.toNat 0) ∧
      feed 1#30 (expansion ((str.map lower).take 1) ++ [10#5, 28#5, 25#5, 31#5, 20#5, 27#5]) ≠ 1#30 := by
  refine ⟨[0x41#8, 0x31#8, 0x32#8, 0x75#8, 0x65#8, 0x6C#8, 0x35#8, 0x6D#8], holds_of_check (by decide), ?_,
    lastOne_of [0x61#8] [0x32#8, 0x75#8, 0x65#8, 0x6C#8, 0x35#8, 0x6D#8] (by decide), by decide, by decide⟩
  unfold Printable
  decide

set_option maxRecDepth 4000 in
/-- "a1q3g6mn3": one data symbol, five residual bits (R196). -/
theorem witness_DecodeConvertsStrictly_residual :
    ∃ (str : List Byte) (syms : List (BitVec 5)), (load small .str str).Holds .str str ∧ (∀ x ∈ str, Printable x) ∧
      LastOne (str.map lower) 1 ∧ syms.length = 1 + 6 ∧ 5 ≤ 5 * 1 % 8 ∧
      ((str.map lower).drop 2).map BitVec.toNat = syms.map (fun b => alphabetCodes.getD b.toNat 0) ∧
      feed 1#30 (expansion ((str.map lower).take 1) ++ syms) = 1#30 := by
  refine ⟨[0x61#8, 0x31#8, 0x71#8, 0x33#8, 0x67#8, 0x36#8, 0x6D#8, 0x6E#8, 0x33#8],
    [0#5, 17#5, 8#5, 26#5, 27#5, 19#5, 17#5], holds_of_check (by decide), ?_,
    lastOne_of [0x61#8] [0x71#8, 0x33#8, 0x67#8, 0x36#8, 0x6D#8, 0x6E#8, 0x33#8] (by decide), by decide, by decide, by decide,
    by decide⟩
  unfold Printable
  decide

set_option maxRecDepth 4000 in
/-- "a1qpamnt9j": two data symbols, two residual bits that are not all zero (R196). -/
theorem witness_DecodeConvertsStrictly_padding :
    ∃ (str : List Byte) (syms : List (BitVec 5)), (load small .str str).Holds .str str ∧ (∀ x ∈ str, Printable x) ∧
      LastOne (str.map lower) 1 ∧ syms.length = 2 + 6 ∧ 5 * 2 % 8 < 5 ∧
      ((str.map lower).drop 2).map BitVec.toNat = syms.map (fun b => alphabetCodes.getD b.toNat 0) ∧
      feed 1#30 (expansion ((str.map lower).take 1) ++ syms) = 1#30 ∧
      groupsValue 5 (asElements (syms.take 2)) % 2 ^ (5 * 2 % 8) ≠ 0 := by
  refine ⟨[0x61#8, 0x31#8, 0x71#8, 0x70#8, 0x61#8, 0x6D#8, 0x6E#8, 0x74#8, 0x39#8, 0x6A#8],
    [0#5, 1#5, 29#5, 27#5, 19#5, 11#5, 5#5, 18#5], holds_of_check (by decide), ?_,
    lastOne_of [0x61#8] [0x71#8, 0x70#8, 0x61#8, 0x6D#8, 0x6E#8, 0x74#8, 0x39#8, 0x6A#8] (by decide), by decide, by decide,
    by decide, by decide, by decide⟩
  unfold Printable
  decide

set_option maxRecDepth 4000 in
/-- "a1lu9cgf6y": symbols 31, 28, one payload byte 0xFF (R196). -/
theorem witness_DecodeDeliversHrpAndPayload :
    ∃ (str : List Byte) (syms : List (BitVec 5)), (load small .str str).Inv ∧ (load small .str str).Holds .str str ∧
      (∀ x ∈ str, Printable x) ∧ LastOne (str.map lower) 1 ∧ syms.length = 2 + 6 ∧
      ((str.map lower).drop 2).map BitVec.toNat = syms.map (fun b => alphabetCodes.getD b.toNat 0) ∧
      feed 1#30 (expansion ((str.map lower).take 1) ++ syms) = 1#30 ∧
      convert 5 8 false (asElements (syms.take 2)) = .ok [0xFF#8] := by
  refine ⟨[0x61#8, 0x31#8, 0x6C#8, 0x75#8, 0x39#8, 0x63#8, 0x67#8, 0x66#8, 0x36#8, 0x79#8],
    [31#5, 28#5, 5#5, 24#5, 8#5, 9#5, 26#5, 4#5], inv_of_check (by decide), holds_of_check (by decide), ?_,
    lastOne_of [0x61#8] [0x6C#8, 0x75#8, 0x39#8, 0x63#8, 0x67#8, 0x66#8, 0x36#8, 0x79#8] (by decide), by decide, by decide,
    by decide, by decide⟩
  unfold Printable
  decide

/-- "A12UEL5L". -/
def strUpper : List Byte := [0x41#8, 0x31#8, 0x32#8, 0x55#8, 0x45#8, 0x4C#8, 0x35#8, 0x4C#8]

/-- "a12uel5l" and "A12UEL5L", which succeed; "a1" and "A1", which fail. -/
theorem witness_DecodeIgnoresCase :
    ((load small .str strA).Holds .str strA ∧ (load small .str strUpper).Holds .str strUpper ∧
      strA.map lower = strUpper.map lower ∧ Succeeded (after .decode (load small .str strA)) ∧
      load small .str strUpper =
        { load small .str strA with mem := { (load small .str strA).mem with str := (load small .str strUpper).mem.str } }) ∧
    ((load small .str [0x61#8, 0x31#8]).Holds .str [0x61#8, 0x31#8] ∧
      (load small .str [0x41#8, 0x31#8]).Holds .str [0x41#8, 0x31#8] ∧
      [0x61#8, 0x31#8].map lower = [0x41#8, 0x31#8].map lower ∧ Failed (after .decode (load small .str [0x61#8, 0x31#8])) ∧
      load small .str [0x41#8, 0x31#8] = { load small .str [0x61#8, 0x31#8] with
        mem := { (load small .str [0x61#8, 0x31#8]).mem with str := (load small .str [0x41#8, 0x31#8]).mem.str } }) :=
  ⟨⟨holds_of_check (by decide), holds_of_check (by decide), by decide, ⟨0x4000#32, by decide, by decide⟩, by decide⟩,
   ⟨holds_of_check (by decide), holds_of_check (by decide), by decide, ⟨0xA3000100#32, by decide, by decide⟩, by decide⟩⟩

theorem witness_DecodeInvertsEncodeCommand :
    ∃ s t : State, s.Inv ∧ s.Written .hrp ∧ s.Written .dat ∧ exec .encode s = .next t ∧ Succeeded t ∧ s.lenOf .dat = 1 :=
  ⟨load toEncode .dat [0xFF#8], _, inv_of_check (by decide), written_of (xs := [0x41#8]) (by decide),
    written_of (xs := [0xFF#8]) (by decide), exec_after (by decide), ⟨10#32, by decide, by decide⟩, by decide⟩

/-! ### Witnesses: rules about the whole machine -/

theorem witness_OnlyListedCommandsWrite :
    ∃ t : State, exec (.ld .hrp 0#14) small = .next t ∧ writesChk (.ld .hrp 0#14) = false ∧
      writesBuffers (.ld .hrp 0#14) = false :=
  ⟨_, exec_after (by decide), rfl, rfl⟩

theorem witness_FailingPrimitiveKeepsState :
    ∃ t : State, isPrimitive (.setlen .str 17#14) = true ∧ exec (.setlen .str 17#14) small = .next t ∧ Failed t :=
  ⟨_, rfl, exec_after (by decide), 0xF3001100#32, by decide, by decide⟩

/-- A SYM element that is no symbol; converter input that leaves five bits; an empty string. -/
theorem witness_FailingWalkLeaves :
    small.Inv ∧ (load small .sym [32#8]).Inv ∧ (converter (load small .dat [31#8]) 5#4 8#4 false false 0#16 0#4).Inv ∧
    (∃ t, exec .cvRun (converter (load small .dat [31#8]) 5#4 8#4 false false 0#16 0#4) = .next t ∧ Failed t) ∧
    (∃ t, exec .pmSym (load small .sym [32#8]) = .next t ∧ Failed t) ∧
    (∃ t, exec .ckCreate (load small .sym [32#8]) = .next t ∧ Failed t) ∧
    (∃ t, exec .ckVerify (load small .sym [32#8]) = .next t ∧ Failed t) ∧
    (∃ t, exec .encode small = .next t ∧ Failed t) ∧ (∃ t, exec .decode small = .next t ∧ Failed t) :=
  ⟨inv_of_check (by decide), inv_of_check (by decide), inv_of_check (by decide),
   ⟨_, exec_after (by decide), 0xE1000005#32, by decide, by decide⟩,
   ⟨_, exec_after (by decide), 0xD0000020#32, by decide, by decide⟩,
   ⟨_, exec_after (by decide), 0xD0000020#32, by decide, by decide⟩,
   ⟨_, exec_after (by decide), 0xD0000020#32, by decide, by decide⟩,
   ⟨_, exec_after (by decide), 0xC1000000#32, by decide, by decide⟩,
   ⟨_, exec_after (by decide), 0xA1000000#32, by decide, by decide⟩⟩

end Sys2Proof.Tests
end

/-!
PROOFS. What a step does, case by case; every command is answered, in every state, by a success word or a failure word;
hence no run stops (spec/00_scope.md R6, R7; spec/30_encoding.md R74).
-/

namespace Sys2Proof.Proofs

open Sys2Proof Sys2Proof.Machine

/-! ### The step, one equation for each thing that the port can hold -/

theorem step_idle {s : State} (h : s.inputs = []) : step s = .next s := by
  simp only [step, h]

theorem step_hardReset {s : State} {rest : List Input} (h : s.inputs = .hardReset :: rest) :
    step s = .next (s.hardReset rest) := by
  simp only [step, h]

theorem step_command {s : State} {w : Word} {rest : List Input} {i : Instr} (h : s.inputs = .command w :: rest)
    (hd : decode w = .ok i) : step s = exec i (s.take rest) := by
  simp only [step, h, hd]

theorem step_badWord {s : State} {w : Word} {rest : List Input} {e : DecodeError} (h : s.inputs = .command w :: rest)
    (hd : decode w = .error e) : step s = .next ((s.take rest).raise (decodeFailure e w)) := by
  simp only [step, h, hd]

/-- Settles O6: the equation of a step on a word that decodes; taking the word writes `inputs` only. -/
theorem stepRunsDecodedCommand : Obligations.StepRunsDecodedCommand := by
  unfold Obligations.StepRunsDecodedCommand
  intro s w rest i h hd
  exact step_command h hd

/-! ### Every command is answered -/

/-- The outcome is a next state, left by the success word or by the failure word of a command (R78, R79). -/
inductive Answered : Host.Outcome State Fault Refusal → Prop
  | respond (t : State) (d : BitVec 30) : Answered (.next (t.respond d))
  | raise (t : State) (f : Failure) : Answered (.next (t.raise f))

theorem Answered.next {o : Host.Outcome State Fault Refusal} (h : Answered o) : ∃ t, o = .next t := by
  cases h with
  | respond t d => exact ⟨_, rfl⟩
  | raise t f => exact ⟨_, rfl⟩

/-- A command that checks its operands and then either succeeds or fails. -/
theorem Answered.ite {c : Prop} [Decidable c] (t u : State) (d : BitVec 30) (f : Failure) :
    Answered (if c then .next (t.respond d) else .next (u.raise f)) := by
  split
  · exact .respond _ _
  · exact .raise _ _

theorem execSt_answered (b : Buf) (idx : BitVec 14) (v : Byte) (s : State) : Answered (execSt b idx v s) :=
  .ite _ _ _ _

theorem execLd_answered (b : Buf) (idx : BitVec 14) (s : State) : Answered (execLd b idx s) := .ite _ _ _ _

theorem execSetlen_answered (b : Buf) (n : BitVec 14) (s : State) : Answered (execSetlen b n s) := .ite _ _ _ _

theorem execCvCfg_answered (fromBits toBits : BitVec 4) (pad dir : Bool) (s : State) :
    Answered (execCvCfg fromBits toBits pad dir s) := .ite _ _ _ _

theorem execAlFold_answered (v : Byte) (s : State) : Answered (execAlFold v s) := .ite _ _ _ _

theorem execAlDec_answered (v : Byte) (s : State) : Answered (execAlDec v s) := by
  unfold execAlDec
  split
  · exact .respond _ _
  · exact .raise _ _

theorem execCkRd_answered (num : BitVec 3) (s : State) : Answered (execCkRd num s) := by
  unfold execCkRd
  split
  · exact .respond _ _
  · exact .raise _ _

theorem execCvPush_answered (v : Byte) (s : State) : Answered (execCvPush v s) := by
  unfold execCvPush
  split
  · exact .respond _ _
  · exact .raise _ _

theorem execCvFlush_answered (s : State) : Answered (execCvFlush s) := by
  unfold execCvFlush
  split
  · exact .respond _ _
  · exact .raise _ _

theorem execPmSym_answered (s : State) : Answered (execPmSym s) := by
  unfold execPmSym
  split
  · exact .respond _ _
  · exact .raise _ _

theorem execCkCreate_answered (s : State) : Answered (execCkCreate s) := by
  unfold execCkCreate
  split
  · exact .raise _ _
  · exact .respond _ _

theorem execCkVerify_answered (s : State) : Answered (execCkVerify s) := by
  unfold execCkVerify
  split
  · exact .raise _ _
  · exact .respond _ _

/-- A group that CV.RUN cannot push, the flush that fails, the flush that ends it. -/
theorem execCvRun_answered (s : State) : Answered (execCvRun s) := by
  unfold execCvRun
  dsimp only
  split
  · exact .raise _ _
  · split
    · exact .raise _ _
    · exact .respond _ _

/-- The three checks of R181 in order, then the conversion. -/
theorem execEncode_answered (s : State) : Answered (execEncode s) := by
  unfold execEncode
  dsimp only
  split
  · exact .raise _ _
  · split
    · exact .raise _ _
    · split
      · exact .raise _ _
      · split
        · exact .raise _ _
        · exact .respond _ _

/-- The range check of R192, then the steps on the folded string. -/
theorem execDecode_answered (s : State) : Answered (execDecode s) := by
  unfold execDecode
  dsimp only
  split
  · exact .raise _ _
  · split
    · exact .raise _ _
    · exact .respond _ _

/-- R7: every command is defined in every state. -/
theorem exec_answered (i : Instr) (s : State) : Answered (exec i s) := by
  cases i with
  | srst => exact .respond _ _
  | ld buf idx => exact execLd_answered buf idx s
  | st buf idx val => exact execSt_answered buf idx val s
  | getlen buf => exact .respond _ _
  | setlen buf n => exact execSetlen_answered buf n s
  | cvCfg fromBits toBits pad dir => exact execCvCfg_answered fromBits toBits pad dir s
  | cvInit => exact .respond _ _
  | cvPush val => exact execCvPush_answered val s
  | cvFlush => exact execCvFlush_answered s
  | cvRun => exact execCvRun_answered s
  | cvRd => exact .respond _ _
  | cvRdcfg => exact .respond _ _
  | pmInit => exact .respond _ _
  | pmStep sym => exact .respond _ _
  | pmRd => exact .respond _ _
  | pmHrp => exact .respond _ _
  | pmSym => exact execPmSym_answered s
  | ckCreate => exact execCkCreate_answered s
  | ckVerify => exact execCkVerify_answered s
  | ckRd num => exact execCkRd_answered num s
  | alEnc sym => exact .respond _ _
  | alDec val => exact execAlDec_answered val s
  | alFold val => exact execAlFold_answered val s
  | encode => exact execEncode_answered s
  | decode => exact execDecode_answered s

/-! ### No run stops -/

theorem step_next (s : State) : ∃ t, step s = .next t := by
  cases h : s.inputs with
  | nil => exact ⟨_, step_idle h⟩
  | cons x rest =>
    cases x with
    | hardReset => exact ⟨_, step_hardReset h⟩
    | command w =>
      cases hd : decode w with
      | ok i =>
        rw [step_command h hd]
        exact (exec_answered i _).next
      | error e => exact ⟨_, step_badWord h hd⟩

theorem runs_zero (s : State) : s.Runs 0 := ⟨s, rfl⟩

/-- A run of `k + 1` steps is a step and a run of `k` from where it leads. -/
theorem runs_succ {s t : State} {k : Nat} (h : step s = .next t) (ht : t.Runs k) : s.Runs (k + 1) := by
  obtain ⟨u, hu⟩ := ht
  have hstep : core.step s = .next t := h
  exact ⟨u, by simpa only [Host.Core.run, hstep] using hu⟩

/-- Settles O11, by induction on the number of steps: each step has a next state. -/
theorem runsNeverStop : Obligations.RunsNeverStop := by
  unfold Obligations.RunsNeverStop
  intro s k
  induction k generalizing s with
  | zero => exact runs_zero s
  | succ k ih =>
    obtain ⟨t, ht⟩ := step_next s
    exact runs_succ ht (ih t)

end Sys2Proof.Proofs

/-!
PROOFS. What a command leaves unchanged (spec/10_state.md R20): each operation over the state stays within the frame of a
command that lists what the operation writes, and a command's frame is put together from those of its operations.
-/

namespace Sys2Proof.Proofs

open Sys2Proof Sys2Proof.Machine Sys2Proof.Laws Sys2Proof.Claims

/-! ### What holds of the state an outcome leads to, and of the state a piece of pseudocode leaves -/

/-- The next state, where the outcome has one, satisfies `P`. -/
def Leaves (P : State → Prop) (o : Host.Outcome State Fault Refusal) : Prop := ∀ t, o = .next t → P t

theorem Leaves.next {P : State → Prop} {t : State} (h : P t) : Leaves P (.next t) := by
  rintro _ ⟨⟩
  exact h

theorem Leaves.ite {P : State → Prop} {c : Prop} [Decidable c] {o o' : Host.Outcome State Fault Refusal}
    (h : c → Leaves P o) (h' : ¬ c → Leaves P o') : Leaves P (if c then o else o') := by
  split
  · exact h ‹c›
  · exact h' ‹¬ c›

/-- The state in which the pseudocode ends, with a value or with an error, satisfies `P`. -/
def Ends {α : Type} (P : State → Prop) : Res α → Prop
  | .ok t _ => P t
  | .fail t _ => P t

/-- CV.RUN's loop keeps what each push keeps. -/
theorem pushAll_ends {P : State → Prop} (hpush : ∀ t v, P t → Ends P (pushGroup t v)) (xs : List Byte) (k : Nat)
    {s : State} (h : P s) : Ends P (pushAll xs k s) := by
  induction xs generalizing k s with
  | nil => exact h
  | cons x xs ih =>
    have hx := hpush s x h
    unfold pushAll
    cases e : pushGroup s x with
    | ok t g => rw [e] at hx; exact ih (k + 1) hx
    | fail t f =>
      rw [e] at hx
      dsimp only
      split <;> exact hx

/-- CV.RUN ends after its loop or after the flush, in a failure or in a success: `P` follows the converter, `Q` is what each
end of the command makes of it (R110). -/
theorem execCvRun_leaves {P Q : State → Prop} {s : State} (hpush : ∀ t v, P t → Ends P (pushGroup t v))
    (hflush : ∀ t, P t → Ends P (flushGroup t)) (hfail : ∀ t f, P t → Q (t.runFailed.raise f))
    (hok : ∀ t d, P t → Q (t.respond d)) (h : P (s.readBuf (srcBuf s.cfg)).2.initConverter) :
    Leaves Q (execCvRun s) := by
  have hp := pushAll_ends hpush (s.readBuf (srcBuf s.cfg)).1 0 h
  unfold execCvRun
  dsimp only
  split
  · rename_i t f e
    rw [e] at hp
    exact .next (hfail t f hp)
  · rename_i t _ e
    rw [e] at hp
    have hu := hflush t hp
    split
    · rename_i u f e'
      rw [e'] at hu
      exact .next (hfail u f hu)
    · rename_i u _ e'
      rw [e'] at hu
      exact .next (hok u _ hu)

/-! ### Frames: what each command leaves unchanged (R20) -/

/-- The state `t` with every part that the row of `i` does not list as `s` has it. The response and the count of free values
are the model's own (logs 2 and 6). -/
def restoreUnlisted (i : Instr) (s t : State) : State where
  config := s.config
  chk := if writesChk i then t.chk else s.chk
  acc := if writesAccBits i then t.acc else s.acc
  bits := if writesAccBits i then t.bits else s.bits
  cfg := if writesCfg i then t.cfg else s.cfg
  len := if writesLen i then t.len else s.len
  cks := if writesCks i then t.cks else s.cks
  mem := if writesBuffers i then t.mem else s.mem
  inputs := s.inputs
  resp := t.resp
  draws := t.draws

/-- `t` differs from `s` only in what the row of `i` lists. -/
def Frame (i : Instr) (s t : State) : Prop := t = restoreUnlisted i s t

theorem Frame.eq {i : Instr} {s t : State} (h : Frame i s t) : t = restoreUnlisted i s t := h

theorem Frame.refl (i : Instr) (s : State) : Frame i s s := by simp [Frame, restoreUnlisted]

theorem Frame.trans {i : Instr} {s t u : State} (h : Frame i s t) (h' : Frame i t u) : Frame i s u :=
  calc u = restoreUnlisted i t u := h'
    _ = restoreUnlisted i (restoreUnlisted i s t) u := by rw [← h.eq]
    _ = restoreUnlisted i s u := by simp +contextual [restoreUnlisted]

/-! Each operation stays within the frame of a command that lists what it writes. -/

section
variable {i : Instr} {s t : State} (h : Frame i s t)
include h

theorem Frame.respond (d : BitVec 30) : Frame i s (t.respond d) :=
  h.trans (by simp [Frame, restoreUnlisted, State.respond])

theorem Frame.raise (f : Failure) : Frame i s (t.raise f) :=
  h.trans (by simp [Frame, restoreUnlisted, State.raise])

/-- A loop over a buffer reads it without a change (R53). -/
theorem Frame.readBuf (b : Buf) : Frame i s (t.readBuf b).2 := by
  obtain ⟨xs, d, hr, -⟩ := readBuf_spec t b
  rw [hr]
  exact h.trans (by simp [Frame, restoreUnlisted])

theorem Frame.setChk {c : BitVec 30} (hw : writesChk i = true) : Frame i s { t with chk := c } :=
  h.trans (by simp [Frame, restoreUnlisted, hw])

/-- PM.HRP's pseudocode writes `CHK` (R134). -/
theorem Frame.feedHrp (hw : writesChk i = true) : Frame i s t.feedHrp := by
  obtain ⟨his, los, d, hf, -, -⟩ := feedHrp_spec t
  rw [hf]
  exact h.trans (by simp [Frame, restoreUnlisted, hw])

/-- PM.SYM's pseudocode writes `CHK`, or nothing where it fails (R135). -/
theorem Frame.feedSym (hw : writesChk i = true) : Ends (Frame i s) t.feedSym := by
  obtain ⟨vs, d, -, ⟨chk, -, hf⟩ | ⟨k, v, -, hf⟩⟩ := feedSym_spec t
  · rw [hf]
    exact h.trans (by simp [Frame, restoreUnlisted, hw])
  · rw [hf]
    exact h.trans (by simp [Frame, restoreUnlisted])

theorem Frame.setChkCks {c : BitVec 30} {v : Vector (BitVec 5) 6} (hw : writesChk i = true) (hv : writesCks i = true) :
    Frame i s { t with chk := c, cks := v } :=
  h.trans (by simp [Frame, restoreUnlisted, hw, hv])

theorem Frame.setLen {b : Buf} {n : Nat} (hw : writesLen i = true) : Frame i s (t.setLen b n) :=
  h.trans (by simp [Frame, restoreUnlisted, State.setLen, hw])

theorem Frame.writeSeq {b : Buf} {n : Nat} {vs : List Byte} (hw : writesBuffers i = true) :
    Frame i s (t.writeSeq b n vs) :=
  h.trans (by simp [Frame, restoreUnlisted, State.writeSeq, hw])

theorem Frame.forgetBuf {b : Buf} (hw : writesBuffers i = true) : Frame i s (t.forgetBuf b) :=
  h.trans (by simp [Frame, restoreUnlisted, State.forgetBuf, hw])

theorem Frame.clearConverter (hw : writesAccBits i = true) : Frame i s t.clearConverter :=
  h.trans (by simp [Frame, restoreUnlisted, State.clearConverter, hw])

theorem Frame.forgetConverter (hw : writesAccBits i = true) : Frame i s t.forgetConverter :=
  h.trans (by simp [Frame, restoreUnlisted, State.forgetConverter, State.draw, hw])

theorem Frame.forgetChk (hw : writesChk i = true) : Frame i s t.forgetChk :=
  h.trans (by simp [Frame, restoreUnlisted, State.forgetChk, State.draw, hw])

theorem Frame.forgetCks (hw : writesCks i = true) : Frame i s t.forgetCks :=
  h.trans (by simp [Frame, restoreUnlisted, State.forgetCks, State.draw, hw])

end

/-! Command by command. -/

theorem execLd_frame (b : Buf) (idx : BitVec 14) (s : State) : Leaves (Frame (.ld b idx) s) (execLd b idx s) := by
  obtain ⟨d, hd⟩ := memRead_state s b idx.toNat
  unfold execLd
  simp only [hd]
  exact .ite (fun _ => .next rfl) (fun _ => .next rfl)

theorem execSt_frame (b : Buf) (idx : BitVec 14) (v : Byte) (s : State) :
    Leaves (Frame (.st b idx v) s) (execSt b idx v s) :=
  .ite (fun _ => .next rfl) (fun _ => .next rfl)

theorem execSetlen_frame (b : Buf) (n : BitVec 14) (s : State) : Leaves (Frame (.setlen b n) s) (execSetlen b n s) :=
  .ite (fun _ => .next rfl) (fun _ => .next rfl)

theorem execCvCfg_frame (fromBits toBits : BitVec 4) (pad dir : Bool) (s : State) :
    Leaves (Frame (.cvCfg fromBits toBits pad dir) s) (execCvCfg fromBits toBits pad dir s) :=
  .ite (fun _ => .next rfl) (fun _ => .next rfl)

theorem execAlFold_frame (v : Byte) (s : State) : Leaves (Frame (.alFold v) s) (execAlFold v s) :=
  .ite (fun _ => .next rfl) (fun _ => .next rfl)

theorem execAlDec_frame (v : Byte) (s : State) : Leaves (Frame (.alDec v) s) (execAlDec v s) := by
  unfold execAlDec
  split <;> exact .next rfl

theorem execCkRd_frame (num : BitVec 3) (s : State) : Leaves (Frame (.ckRd num) s) (execCkRd num s) := by
  unfold execCkRd
  split <;> exact .next rfl

/-- A push writes what CV.RUN lists: it fails without a change, or appends groups to the destination (R104). -/
theorem pushGroup_frame (s : State) (v : Byte) : Ends (Frame .cvRun s) (pushGroup s v) := by
  obtain ⟨-, e⟩ | ⟨-, e⟩ | ⟨-, -, acc, em, -, -, e⟩ := pushGroup_cases s v <;> rw [e] <;> rfl

theorem flushGroup_frame (s : State) : Ends (Frame .cvRun s) (flushGroup s) := by
  obtain ⟨r, d, hr, -, -⟩ := paddedResidual_spec s
  unfold flushGroup
  simp only [hr]
  split
  · split
    · split <;> rfl
    · rfl
  · split
    · rfl
    · split <;> rfl

theorem Ends.frame_trans {α : Type} {i : Instr} {s t : State} {r : Res α} (h : Frame i s t) (h' : Ends (Frame i t) r) :
    Ends (Frame i s) r := by
  cases r with
  | ok u a => exact h.trans h'
  | fail u f => exact h.trans h'

theorem execCvPush_frame (v : Byte) (s : State) : Leaves (Frame (.cvPush v) s) (execCvPush v s) := by
  have h := pushGroup_frame s v
  unfold execCvPush
  cases e : pushGroup s v with
  | ok t g => rw [e] at h; exact .next (Frame.respond h _)
  | fail t f => rw [e] at h; exact .next (Frame.raise h _)

theorem execCvFlush_frame (s : State) : Leaves (Frame .cvFlush s) (execCvFlush s) := by
  have h := flushGroup_frame s
  unfold execCvFlush
  cases e : flushGroup s with
  | ok t g => rw [e] at h; exact .next (Frame.respond h _)
  | fail t f => rw [e] at h; exact .next (Frame.raise h _)

theorem Frame.initConverter {s t : State} (h : Frame .cvRun s t) : Frame .cvRun s t.initConverter :=
  (h.clearConverter rfl).setLen rfl

theorem Frame.runFailed {s t : State} (h : Frame .cvRun s t) : Frame .cvRun s t.runFailed :=
  ((h.setLen rfl).forgetBuf rfl).forgetConverter rfl

theorem execCvRun_frame (s : State) : Leaves (Frame .cvRun s) (execCvRun s) :=
  execCvRun_leaves (P := Frame .cvRun s) (fun t v h => Ends.frame_trans h (pushGroup_frame t v))
    (fun t h => Ends.frame_trans h (flushGroup_frame t)) (fun _ f h => h.runFailed.raise f) (fun _ d h => h.respond d)
    ((Frame.refl .cvRun s).readBuf _).initConverter

theorem execPmHrp_frame (s : State) : Leaves (Frame .pmHrp s) (execPmHrp s) :=
  .next (((Frame.refl .pmHrp s).feedHrp rfl).respond _)

theorem execPmSym_frame (s : State) : Leaves (Frame .pmSym s) (execPmSym s) := by
  have h := (Frame.refl .pmSym s).feedSym rfl
  unfold execPmSym
  cases e : s.feedSym with
  | ok t a => rw [e] at h; exact .next (Frame.respond h _)
  | fail t f => rw [e] at h; exact .next ((Frame.forgetChk h rfl).raise f)

theorem execCkVerify_frame (s : State) : Leaves (Frame .ckVerify s) (execCkVerify s) := by
  have h := (((Frame.refl .ckVerify s).setChk (c := 1#30) rfl).feedHrp rfl).feedSym rfl
  unfold execCkVerify
  cases e : ({ s with chk := 1#30 } : State).feedHrp.feedSym with
  | ok t a => rw [e] at h; exact .next (Frame.respond h _)
  | fail t f => rw [e] at h; exact .next ((Frame.forgetChk h rfl).raise f)

theorem execCkCreate_frame (s : State) : Leaves (Frame .ckCreate s) (execCkCreate s) := by
  have h := (((Frame.refl .ckCreate s).setChk (c := 1#30) rfl).feedHrp rfl).feedSym rfl
  unfold execCkCreate
  cases e : ({ s with chk := 1#30 } : State).feedHrp.feedSym with
  | ok t a => rw [e] at h; exact .next ((Frame.setChkCks h rfl rfl).respond _)
  | fail t f => rw [e] at h; exact .next (((Frame.forgetChk h rfl).forgetCks rfl).raise f)

theorem Frame.encodeFailed {s t : State} (h : Frame .encode s t) : Frame .encode s t.encodeFailed :=
  ((((((h.setLen rfl).setLen rfl).forgetBuf rfl).forgetBuf rfl).forgetChk rfl).forgetConverter rfl).forgetCks rfl

theorem Frame.encodeResults {s t : State} (h : Frame .encode s t) (hrp ds : List Byte) (m T : Nat) :
    Frame .encode s (t.encodeResults hrp ds m T) := by
  have hsym : Frame .encode s ((t.writeSeq .sym 0 ds).setLen .sym m).clearConverter :=
    ((h.writeSeq rfl).setLen rfl).clearConverter rfl
  exact ((hsym.setChkCks rfl rfl).writeSeq rfl).setLen rfl

theorem Frame.decodeFailed {s t : State} (h : Frame .decode s t) : Frame .decode s t.decodeFailed :=
  have hbuf := (((((h.setLen rfl).setLen rfl).setLen rfl).forgetBuf rfl).forgetBuf rfl).forgetBuf rfl
  (hbuf.forgetChk rfl).forgetConverter rfl

theorem Frame.decodeResults {s t : State} (h : Frame .decode s t) (r : Decoded) : Frame .decode s (t.decodeResults r) :=
  (((((((h.writeSeq rfl).setLen rfl).setChk rfl).clearConverter rfl).writeSeq rfl).setLen rfl).writeSeq rfl).setLen rfl

theorem execEncode_frame (s : State) : Leaves (Frame .encode s) (execEncode s) := by
  have h0 := Frame.refl .encode s
  have h1 := h0.readBuf .hrp
  have h3 := (h1.readBuf .hrp).readBuf .dat
  refine .ite (fun _ => .next (h0.encodeFailed.raise _)) fun _ => .ite (fun _ => .next (h0.encodeFailed.raise _)) fun _ => ?_
  dsimp only
  split
  · exact .next (h1.encodeFailed.raise _)
  · split
    · exact .next (h3.encodeFailed.raise _)
    · exact .next ((h3.encodeResults _ _ _ _).respond _)

theorem execDecode_frame (s : State) : Leaves (Frame .decode s) (execDecode s) := by
  have h1 := (Frame.refl .decode s).readBuf .str
  have h2 := h1.readBuf .str
  unfold execDecode
  dsimp only
  split
  · exact .next (h1.decodeFailed.raise _)
  · split
    · exact .next (h2.decodeFailed.raise _)
    · exact .next ((h2.decodeResults _).respond _)

/-- R20, "written by": every command, row by row. -/
theorem exec_frame (i : Instr) (s : State) : Leaves (Frame i s) (exec i s) := by
  cases i with
  | srst => exact .next rfl
  | ld buf idx => exact execLd_frame buf idx s
  | st buf idx val => exact execSt_frame buf idx val s
  | getlen buf => exact .next rfl
  | setlen buf n => exact execSetlen_frame buf n s
  | cvCfg fromBits toBits pad dir => exact execCvCfg_frame fromBits toBits pad dir s
  | cvInit => exact .next rfl
  | cvPush val => exact execCvPush_frame val s
  | cvFlush => exact execCvFlush_frame s
  | cvRun => exact execCvRun_frame s
  | cvRd => exact .next rfl
  | cvRdcfg => exact .next rfl
  | pmInit => exact .next rfl
  | pmStep sym => exact .next rfl
  | pmRd => exact .next rfl
  | pmHrp => exact execPmHrp_frame s
  | pmSym => exact execPmSym_frame s
  | ckCreate => exact execCkCreate_frame s
  | ckVerify => exact execCkVerify_frame s
  | ckRd num => exact execCkRd_frame num s
  | alEnc sym => exact .next rfl
  | alDec val => exact execAlDec_frame val s
  | alFold val => exact execAlFold_frame val s
  | encode => exact execEncode_frame s
  | decode => exact execDecode_frame s

/-! ### The parts of a frame -/

section
variable {i : Instr} {s t : State} (h : Frame i s t)
include h

theorem Frame.config : t.config = s.config := (congrArg State.config h.eq :)
theorem Frame.inputs : t.inputs = s.inputs := (congrArg State.inputs h.eq :)
theorem Frame.chk (hw : writesChk i = false) : t.chk = s.chk :=
  (congrArg State.chk h.eq).trans (by simp [restoreUnlisted, hw])
theorem Frame.acc (hw : writesAccBits i = false) : t.acc = s.acc :=
  (congrArg State.acc h.eq).trans (by simp [restoreUnlisted, hw])
theorem Frame.bits (hw : writesAccBits i = false) : t.bits = s.bits :=
  (congrArg State.bits h.eq).trans (by simp [restoreUnlisted, hw])
theorem Frame.cfg (hw : writesCfg i = false) : t.cfg = s.cfg :=
  (congrArg State.cfg h.eq).trans (by simp [restoreUnlisted, hw])
theorem Frame.len (hw : writesLen i = false) : t.len = s.len :=
  (congrArg State.len h.eq).trans (by simp [restoreUnlisted, hw])
theorem Frame.cks (hw : writesCks i = false) : t.cks = s.cks :=
  (congrArg State.cks h.eq).trans (by simp [restoreUnlisted, hw])
theorem Frame.mem (hw : writesBuffers i = false) : t.mem = s.mem :=
  (congrArg State.mem h.eq).trans (by simp [restoreUnlisted, hw])

end

/-- Settles O58: each clause is a part of the command's frame. -/
theorem onlyListedCommandsWrite : Obligations.OnlyListedCommandsWrite := by
  unfold Obligations.OnlyListedCommandsWrite
  intro i s t ht
  have h := exec_frame i s t ht
  exact ⟨h.config, h.inputs, h.chk, fun hw => ⟨h.acc hw, h.bits hw⟩, h.cfg, fun hw b => lenOf_congr (h.len hw) b, h.cks,
    fun hw b k => element_congr (h.mem hw) b k⟩

end Sys2Proof.Proofs

/-!
PROOFS. The reset state meets the invariant and every step keeps it. A command that writes none of the parts the invariant
speaks of keeps it by its frame; for the others, what they write is shown to fit the capacity.
-/

namespace Sys2Proof.Proofs

open Sys2Proof Sys2Proof.Machine Sys2Proof.Laws Sys2Proof.Claims

/-! ### The reset state -/

/-- Settles O12: each reset value as it stands in R36; an empty memory lists no element. -/
theorem resetValues : Obligations.ResetValues := by
  unfold Obligations.ResetValues
  refine ⟨rfl, rfl, rfl, rfl, rfl, rfl, rfl, ?_, by decide, ?_⟩
  · intro b
    cases b <;> rfl
  · intro b k
    cases b <;> rfl

/-- A reset needs nothing of the state before it but a legal capacity. -/
theorem resetBlock_inv {s : State} (h : s.config.legal) : s.resetBlock.Inv where
  cap_legal := h
  from_legal := by simp
  to_legal := by simp
  bits_small := by simp
  len_legal := fun b => by cases b <;> simp [State.lenOf, Banks.get]
  mem_legal := fun b => by cases b <;> exact within_nil _

/-- Settles O14: the reset state is its own reset, and 128 is a legal capacity. -/
theorem resetMeetsInvariant : Obligations.ResetMeetsInvariant := by
  unfold Obligations.ResetMeetsInvariant
  exact resetBlock_inv (s := State.reset) (by decide)

/-! ### Sizes of what the conversion and the decoder give -/

/-- The emitting loop keeps every bit: those in the groups and those left (R104, R106). -/
theorem emitGroups_bits {T : Nat} (acc : Nat) (hT : 1 ≤ T) (bits : Nat) :
    T * (emitGroups T acc bits bits).1.length + (emitGroups T acc bits bits).2 = bits := by
  rw [emitGroups_length acc hT (Nat.le_refl bits), emitGroups_left acc hT (Nat.le_refl bits), Nat.div_add_mod]

/-- The loop of R100 keeps every bit, and leaves fewer than a group. -/
theorem convertLoop_bits {F T : Nat} (hT : 1 ≤ T) {input : List Byte} {k acc bits a n : Nat} {out : List Byte}
    (hb : bits < T) (h : convertLoop F T input k acc bits = .ok (a, n, out)) :
    T * out.length + n = bits + F * input.length ∧ n < T := by
  induction input generalizing k acc bits a n out with
  | nil =>
    obtain ⟨-, rfl, rfl⟩ : acc = a ∧ bits = n ∧ [] = out := by simpa [convertLoop] using h
    simpa using hb
  | cons v vs ih =>
    unfold convertLoop at h
    have hbits := emitGroups_bits ((acc <<< F) ||| v.toNat) hT (bits + F)
    have hleft := emitGroups_left ((acc <<< F) ||| v.toNat) hT (Nat.le_refl (bits + F))
    have hlt := Nat.mod_lt (bits + F) hT
    dsimp only at h
    split at h
    · cases h
    · split at h
      · cases h
      · rename_i a' n' out' e
        obtain ⟨-, rfl, rfl⟩ : a' = a ∧ n' = n ∧ _ ++ out' = out := by simpa using h
        obtain ⟨hsum, hn⟩ := ih (by omega) e
        refine ⟨?_, hn⟩
        simp only [List.length_append, List.length_cons, Nat.mul_add, Nat.mul_one]
        omega

/-- How long the output of a conversion is: a padded one rounds up, a strict one rounds down (R100). -/
theorem convert_length {F T : Nat} (hT : 1 ≤ T) {pad : Bool} {input out : List Byte}
    (h : convert F T pad input = .ok out) :
    out.length = if pad then (F * input.length + (T - 1)) / T else F * input.length / T := by
  unfold convert at h
  split at h
  · cases h
  · rename_i acc n out' e
    obtain ⟨hsum, hn⟩ := convertLoop_bits hT (by omega) e
    have quotient {q r : Nat} (hr : r < T) : (T * q + r) / T = q := by
      rw [Nat.mul_add_div (by omega), Nat.div_eq_of_lt hr, Nat.add_zero]
    rw [Nat.zero_add] at hsum
    cases pad with
    | true =>
      simp only [if_true] at h ⊢
      split at h
      · obtain rfl := Except.ok.inj h
        rw [show F * input.length + (T - 1) = T * (out'.length + 1) + (n - 1) by rw [Nat.mul_succ]; omega,
          quotient (by omega), List.length_append]
        rfl
      · obtain rfl := Except.ok.inj h
        rw [show F * input.length + (T - 1) = T * out'.length + (T - 1) by omega, quotient (by omega)]
    | false =>
      have hout : out' = out := by
        simp only [Bool.false_eq_true, if_false] at h
        split at h
        · cases h
        · split at h
          · cases h
          · exact Except.ok.inj h
      rw [if_neg (by decide), ← hout, ← hsum, quotient hn]

/-- Step 3 of DECODE maps each character to one symbol (R194). -/
theorem mapCharacters_length {cs : List Byte} {k : Nat} {vs : List (BitVec 5)} (h : mapCharacters cs k = .ok vs) :
    vs.length = cs.length := by
  induction cs generalizing k vs with
  | nil =>
    obtain rfl := Except.ok.inj h
    rfl
  | cons c cs ih =>
    unfold mapCharacters at h
    split at h
    · cases h
    · split at h
      · cases h
      · rename_i e
        obtain rfl := Except.ok.inj h
        simp [ih e]

/-- What the steps of a successful DECODE find in the folded string (R193 to R196). -/
theorem decodeString_ok {f : List Byte} {r : Decoded} (h : decodeString f = .ok r) :
    ∃ p, r.hrp = f.take p ∧ mapCharacters (f.drop (p + 1)) (p + 1) = .ok r.syms ∧
      convert 5 8 false ((r.syms.take (r.syms.length - 6)).map zext8) = .ok r.payload := by
  unfold decodeString at h
  split at h
  · cases h
  · rename_i p _
    split at h
    · cases h
    · split at h
      · cases h
      · unfold decodeBody at h
        split at h
        · cases h
        · rename_i syms hmap
          dsimp only at h
          split at h
          · cases h
          · split at h
            · cases h
            · rename_i payload hconv
              obtain rfl := Except.ok.inj h
              exact ⟨p, rfl, hmap, hconv⟩

/-- Nothing that DECODE finds is longer than the string. -/
theorem decodeString_lengths {f : List Byte} {r : Decoded} (h : decodeString f = .ok r) :
    r.hrp.length ≤ f.length ∧ r.syms.length ≤ f.length ∧ r.payload.length ≤ f.length := by
  obtain ⟨p, hhrp, hsyms, hpay⟩ := decodeString_ok h
  have hs := mapCharacters_length hsyms
  have hp := convert_length (by decide) hpay
  simp only [List.length_map, List.length_take, List.length_drop, Bool.false_eq_true, if_false] at hs hp
  refine ⟨?_, by omega, by omega⟩
  rw [hhrp, List.length_take]
  omega

/-- The encoded string has `L + 1 + m + 6` characters (R180, R184). -/
theorem encodedString_length (h : List Byte) (syms cks : List (BitVec 5)) :
    (encodedString h syms cks).length = h.length + 1 + syms.length + cks.length := by
  simp only [encodedString, List.length_append, List.length_map, List.length_singleton]

/-! ### The invariant, for what writes a part it speaks of -/

theorem Frame.inv {i : Instr} {s t : State} (h : Frame i s t) (hs : s.Inv) (hb : writesAccBits i = false)
    (hc : writesCfg i = false) (hl : writesLen i = false) (hm : writesBuffers i = false) : t.Inv :=
  inv_congr hs h.config (h.cfg hc) (h.bits hb) (h.len hl) (h.mem hm)

theorem execSt_inv {s : State} (h : s.Inv) (b : Buf) (idx : BitVec 14) (v : Byte) : Leaves State.Inv (execSt b idx v s) :=
  .ite (fun hi => .next (respond_inv (memWrite_inv h b hi v) _)) (fun _ => .next (raise_inv h _))

theorem execSetlen_inv {s : State} (h : s.Inv) (b : Buf) (n : BitVec 14) : Leaves State.Inv (execSetlen b n s) :=
  .ite (fun hn => .next (respond_inv (setLen_inv h b hn) _)) (fun _ => .next (raise_inv h _))

theorem setCfg_inv {s : State} (h : s.Inv) {fromBits toBits : BitVec 4} (hf : widthOk fromBits) (ht : widthOk toBits)
    (pad dir : Bool) : ({ s with cfg := ⟨fromBits, toBits, pad, dir⟩ } : State).Inv where
  cap_legal := h.cap_legal
  from_legal := hf
  to_legal := ht
  bits_small := h.bits_small
  len_legal := h.len_legal
  mem_legal := h.mem_legal

theorem execCvCfg_inv {s : State} (h : s.Inv) (fromBits toBits : BitVec 4) (pad dir : Bool) :
    Leaves State.Inv (execCvCfg fromBits toBits pad dir s) :=
  .ite (fun hw => .next (respond_inv (clearConverter_inv (setCfg_inv h hw.1 hw.2 pad dir)) _))
    (fun _ => .next (raise_inv h _))

theorem initConverter_inv {s : State} (h : s.Inv) : s.initConverter.Inv :=
  setLen_inv (clearConverter_inv h) _ (Nat.zero_le _)

theorem pushGroup_ends_inv (s : State) (v : Byte) (h : s.Inv) : Ends State.Inv (pushGroup s v) := by
  cases e : pushGroup s v with
  | ok t g => exact pushGroup_inv h e
  | fail t f =>
    rw [pushGroup_fail e]
    exact h

theorem flushGroup_ends_inv (s : State) (h : s.Inv) : Ends State.Inv (flushGroup s) := by
  cases e : flushGroup s with
  | ok t g => exact (flushGroup_inv h).1 t g e
  | fail t f => exact (flushGroup_inv h).2 t f e

theorem runFailed_inv {s : State} (h : s.Inv) : s.runFailed.Inv :=
  forgetConverter_inv (forgetBuf_inv (setLen_inv h _ (Nat.zero_le _)) _)

theorem execCvPush_inv {s : State} (h : s.Inv) (v : Byte) : Leaves State.Inv (execCvPush v s) := by
  have hp := pushGroup_ends_inv s v h
  unfold execCvPush
  cases e : pushGroup s v with
  | ok t g => rw [e] at hp; exact .next (respond_inv hp _)
  | fail t f => rw [e] at hp; exact .next (raise_inv hp _)

theorem execCvFlush_inv {s : State} (h : s.Inv) : Leaves State.Inv (execCvFlush s) := by
  have hf := flushGroup_ends_inv s h
  unfold execCvFlush
  cases e : flushGroup s with
  | ok t g => rw [e] at hf; exact .next (respond_inv hf _)
  | fail t f => rw [e] at hf; exact .next (raise_inv hf _)

theorem execCvRun_inv {s : State} (h : s.Inv) : Leaves State.Inv (execCvRun s) :=
  execCvRun_leaves pushGroup_ends_inv flushGroup_ends_inv (fun _ f ht => raise_inv (runFailed_inv ht) f)
    (fun _ d ht => respond_inv ht d) (initConverter_inv (readBuf_inv h _))

/-! ENCODE and DECODE: what they write fits the buffers. -/

theorem encodeFailed_inv {s : State} (h : s.Inv) : s.encodeFailed.Inv :=
  have hlen := setLen_inv (setLen_inv h .str (Nat.zero_le _)) .sym (Nat.zero_le _)
  forgetCks_inv (forgetConverter_inv (forgetChk_inv (forgetBuf_inv (forgetBuf_inv hlen .str) .sym)))

theorem decodeFailed_inv {s : State} (h : s.Inv) : s.decodeFailed.Inv :=
  have hlen := setLen_inv (setLen_inv (setLen_inv h .hrp (Nat.zero_le _)) .dat (Nat.zero_le _)) .sym (Nat.zero_le _)
  forgetConverter_inv (forgetChk_inv (forgetBuf_inv (forgetBuf_inv (forgetBuf_inv hlen .hrp) .dat) .sym))

theorem setChk_inv {s : State} (h : s.Inv) (c : BitVec 30) : ({ s with chk := c } : State).Inv :=
  inv_congr h rfl rfl rfl rfl rfl

theorem setChkCks_inv {s : State} (h : s.Inv) (c : BitVec 30) (v : Vector (BitVec 5) 6) :
    ({ s with chk := c, cks := v } : State).Inv :=
  inv_congr h rfl rfl rfl rfl rfl

theorem encodeResults_inv {s : State} (h : s.Inv) {hrp ds : List Byte} {m T : Nat} (hm : ds.length = m)
    (hT : hrp.length + 1 + m + 6 = T) (hcap : T ≤ s.config.cap) : (s.encodeResults hrp ds m T).Inv := by
  have hsym : ((s.writeSeq .sym 0 ds).setLen .sym m).clearConverter.Inv :=
    clearConverter_inv (setLen_inv (writeSeq_inv h .sym (by omega)) .sym (show m ≤ s.config.cap by omega))
  refine setLen_inv (writeSeq_inv (setChkCks_inv hsym _ _) .str ?_) .str hcap
  rw [encodedString_length, List.length_map, Vector.length_toList]
  show 0 + (hrp.length + 1 + ds.length + 6) ≤ s.config.cap
  omega

theorem decodeResults_inv {s : State} (h : s.Inv) {r : Decoded} (hh : r.hrp.length ≤ s.config.cap)
    (hs : r.syms.length ≤ s.config.cap) (hp : r.payload.length ≤ s.config.cap) : (s.decodeResults r).Inv := by
  have hsym : ((s.writeSeq .sym 0 (r.syms.map zext8)).setLen .sym (r.syms.length - 6)).Inv :=
    setLen_inv (writeSeq_inv h .sym (by simpa using hs)) .sym (show r.syms.length - 6 ≤ s.config.cap by omega)
  have hregs := clearConverter_inv (setChk_inv hsym r.chk)
  have hdat := setLen_inv (writeSeq_inv hregs .dat ((Nat.zero_add _).trans_le hp)) .dat hp
  exact setLen_inv (writeSeq_inv hdat .hrp ((Nat.zero_add _).trans_le hh)) .hrp hh

theorem readBuf_length (s : State) (b : Buf) : (s.readBuf b).1.length = s.lenOf b := by
  obtain ⟨xs, d, h, hlen, -⟩ := readBuf_spec s b
  rw [h]
  exact hlen

theorem readBuf_config (s : State) (b : Buf) : (s.readBuf b).2.config = s.config :=
  ((Frame.refl .ckVerify s).readBuf b).config

theorem readBuf_lenOf (s : State) (b b' : Buf) : (s.readBuf b).2.lenOf b' = s.lenOf b' :=
  lenOf_congr (((Frame.refl .ckVerify s).readBuf b).len rfl) b'

/-- The capacity check of R181 bounds the string that a success writes. -/
theorem execEncode_inv {s : State} (h : s.Inv) : Leaves State.Inv (execEncode s) := by
  have h1 := readBuf_inv h .hrp
  have h3 := readBuf_inv (readBuf_inv h1 .hrp) .dat
  refine .ite (fun _ => .next (raise_inv (encodeFailed_inv h) _)) fun _ =>
    .ite (fun _ => .next (raise_inv (encodeFailed_inv h) _)) fun hcap => ?_
  dsimp only
  split
  · exact .next (raise_inv (encodeFailed_inv h1) _)
  · split
    · exact .next (raise_inv (encodeFailed_inv h3) _)
    · rename_i ds hconv
      refine .next (respond_inv (encodeResults_inv h3 ?_ ?_ ?_) _)
      · rw [convert_length (by decide) hconv, readBuf_length, readBuf_lenOf, readBuf_lenOf]
        rfl
      · rw [List.length_map, readBuf_length, readBuf_lenOf]
        rfl
      · rw [readBuf_config, readBuf_config, readBuf_config]
        exact Nat.le_of_not_gt hcap

/-- All that a success writes is no longer than the string, and that fits. -/
theorem execDecode_inv {s : State} (h : s.Inv) : Leaves State.Inv (execDecode s) := by
  have h1 := readBuf_inv h .str
  have h2 := readBuf_inv h1 .str
  unfold execDecode
  dsimp only
  split
  · exact .next (raise_inv (decodeFailed_inv h1) _)
  · split
    · exact .next (raise_inv (decodeFailed_inv h2) _)
    · rename_i r hr
      obtain ⟨hh, hs, hp⟩ := decodeString_lengths hr
      rw [List.length_map, readBuf_length, readBuf_lenOf] at hh hs hp
      have hcap : s.lenOf .str ≤ ((s.readBuf .str).2.readBuf .str).2.config.cap := by
        rw [readBuf_config, readBuf_config]
        exact h.len_legal .str
      exact .next (respond_inv (decodeResults_inv h2 (hh.trans hcap) (hs.trans hcap) (hp.trans hcap)) _)

/-! ### Every step keeps the invariant -/

theorem exec_inv (i : Instr) {s : State} (h : s.Inv) : Leaves State.Inv (exec i s) := by
  cases i with
  | srst => exact .next (respond_inv (resetBlock_inv h.cap_legal) _)
  | st buf idx val => exact execSt_inv h buf idx val
  | setlen buf n => exact execSetlen_inv h buf n
  | cvCfg fromBits toBits pad dir => exact execCvCfg_inv h fromBits toBits pad dir
  | cvInit => exact .next (respond_inv (initConverter_inv h) _)
  | cvPush val => exact execCvPush_inv h val
  | cvFlush => exact execCvFlush_inv h
  | cvRun => exact execCvRun_inv h
  | encode => exact execEncode_inv h
  | decode => exact execDecode_inv h
  | ld _ _ | getlen _ | cvRd | cvRdcfg | pmInit | pmStep _ | pmRd | pmHrp | pmSym | ckCreate | ckVerify | ckRd _ | alEnc _
  | alDec _ | alFold _ => exact fun t ht => (exec_frame _ s t ht).inv h rfl rfl rfl rfl

theorem take_inv {s : State} (h : s.Inv) (rest : List Input) : (s.take rest).Inv := inv_congr h rfl rfl rfl rfl rfl

theorem hardReset_inv {s : State} (h : s.Inv) (rest : List Input) : (s.hardReset rest).Inv :=
  inv_congr (resetBlock_inv h.cap_legal) rfl rfl rfl rfl rfl

/-- Settles O15: the four things a step can be, by what the port holds. -/
theorem stepKeepsInvariant : Obligations.StepKeepsInvariant := by
  unfold Obligations.StepKeepsInvariant
  intro s t h ht
  suffices hl : Leaves State.Inv (step s) from hl t ht
  cases hin : s.inputs with
  | nil =>
    rw [step_idle hin]
    exact .next h
  | cons x rest =>
    cases x with
    | hardReset =>
      rw [step_hardReset hin]
      exact .next (hardReset_inv h rest)
    | command w =>
      cases hd : decode w with
      | ok i =>
        rw [step_command hin hd]
        exact exec_inv i (take_inv h rest)
      | error e =>
        rw [step_badWord hin hd]
        exact .next (raise_inv (take_inv h rest) _)

end Sys2Proof.Proofs

/-!
PROOFS. Command words (spec/30_encoding.md): fields, the opcode map as a table of matches and masks, the decoder answer by
answer, encoding and decoding as inverses; then failure words, and the port's answer to every word.
-/

namespace Sys2Proof.Proofs

open Sys2Proof Sys2Proof.Machine Sys2Proof.Laws Sys2Proof.Claims

/-! ### A placed field and the field read back (R70) -/

theorem getLsbD_place {n : Nat} (v : BitVec n) (low k : Nat) :
    (place v low).getLsbD k = (decide (k < 32) && (!decide (k < low) && v.getLsbD (k - low))) := by
  rw [place, BitVec.getLsbD_shiftLeft, BitVec.getLsbD_setWidth]
  by_cases h : k < 32
  · simp [h, show k - low < 32 by omega]
  · simp [h]

/-- A field reads back as the value placed there. -/
@[simp] theorem extract_place_self {n low : Nat} (h : low + n ≤ 32) (v : BitVec n) :
    (place v low).extractLsb' low n = v := by
  refine BitVec.eq_of_getLsbD_eq fun k hk => ?_
  rw [BitVec.getLsbD_extractLsb', getLsbD_place]
  simp [hk, show low + k < 32 by omega]

/-- A field below a placed value reads zeros. -/
@[simp] theorem extract_place_below {n m low low' : Nat} (h : low' + m ≤ low) (v : BitVec n) :
    (place v low).extractLsb' low' m = 0#m := by
  refine BitVec.eq_of_getLsbD_eq fun k hk => ?_
  rw [BitVec.getLsbD_extractLsb', getLsbD_place]
  simp [show low' + k < low by omega]

/-- A field above a placed value reads zeros. -/
@[simp] theorem extract_place_above {n m low low' : Nat} (h : low + n ≤ low') (v : BitVec n) :
    (place v low).extractLsb' low' m = 0#m := by
  refine BitVec.eq_of_getLsbD_eq fun k hk => ?_
  rw [BitVec.getLsbD_extractLsb', getLsbD_place, BitVec.getLsbD_of_ge v _ (by omega)]
  simp

/-- A field put back at its place is what a mask leaves of the word. -/
theorem place_extract (w : Word) (low n : Nat) : place (w.extractLsb' low n) low = w &&& place (BitVec.allOnes n) low := by
  refine BitVec.eq_of_getLsbD_eq fun k hk => ?_
  rw [BitVec.getLsbD_and, getLsbD_place, getLsbD_place, BitVec.getLsbD_extractLsb', BitVec.getLsbD_allOnes]
  by_cases h : k < low
  · simp [h]
  · simp [h, show low + (k - low) = k by omega, Bool.and_comm, hk]

/-- A one-bit field read as a truth value. -/
theorem ofBool_getLsbD (w : Word) (k : Nat) : BitVec.ofBool (w.getLsbD k) = w.extractLsb' k 1 := by
  refine BitVec.eq_of_getLsbD_eq fun j hj => ?_
  obtain rfl : j = 0 := by omega
  simp

theorem getLsbD_eq_iff (w : Word) (k : Nat) (b : Bool) : w.getLsbD k = b ↔ w.extractLsb' k 1 = BitVec.ofBool b := by
  rw [← ofBool_getLsbD]
  cases w.getLsbD k <;> cases b <;> decide

@[simp] theorem bufOfCode_bufCode (b : Buf) : bufOfCode (bufCode b) = b := by
  cases b <;> rfl

theorem bufCode_bufOfCode : ∀ c : BitVec 2, bufCode (bufOfCode c) = c := by decide

theorem ushiftRight_24_eq_iff (w v : Word) : w >>> 24 = v >>> 24 ↔ fieldOp w = fieldOp v := by
  simp only [← BitVec.toNat_inj, fieldOp, BitVec.extractLsb'_toNat, BitVec.toNat_ushiftRight, Nat.shiftRight_eq_div_pow]
  omega

/-! ### A row of the opcode map as a match and a mask (R73) -/

/-- The bits that a row fixes: its opcode at the top. -/
def rowMatch (r : Row) : Word := place r.op 24

/-- The bits that a row looks at: the opcode and the reserved bits of its format. -/
def rowMask (r : Row) : Word := 0xFF000000#32 ||| reservedMask r.fmt

/-- The spec's table lists the rows of the opcode map, as match and mask. -/
theorem opcodeTable_eq : opcodeTable = opcodeMap.map fun r => (rowMatch r, rowMask r) := by decide

/-- What holds of all rows of the spec's table, said of the opcode map. -/
theorem forall_opcodeTable {P : Word × Word → Prop} :
    (∀ e ∈ opcodeTable, P e) ↔ ∀ r ∈ opcodeMap, P (rowMatch r, rowMask r) := by
  simp [opcodeTable_eq]

theorem exists_opcodeTable {P : Word × Word → Prop} :
    (∃ e ∈ opcodeTable, P e) ↔ ∃ r ∈ opcodeMap, P (rowMatch r, rowMask r) := by
  simp [opcodeTable_eq]

theorem fieldOp_rowMatch (r : Row) : fieldOp (rowMatch r) = r.op := extract_place_self (by decide) r.op

/-- The opcode alone, put back at its place. -/
theorem place_fieldOp (w : Word) : place (fieldOp w) 24 = w &&& 0xFF000000#32 := place_extract w 24 8

/-- A row's mask keeps the opcode. -/
theorem fieldOp_and_rowMask (w : Word) (r : Row) : fieldOp (w &&& rowMask r) = fieldOp w := by
  have hones : (rowMask r).extractLsb' 24 8 = BitVec.allOnes 8 := by
    unfold rowMask
    cases r.fmt <;> decide
  rw [fieldOp, BitVec.extractLsb'_and, hones, BitVec.and_allOnes, fieldOp]

/-- The bits a row fixes to 1 are no reserved bits. -/
theorem rowMatch_and_reserved (r : Row) : rowMatch r &&& reservedMask r.fmt = 0#32 := by
  have hdisjoint : 0xFF000000#32 &&& reservedMask r.fmt = 0#32 := by
    cases r.fmt <;> decide
  rw [rowMatch, ← fieldOp_rowMatch r, place_fieldOp, BitVec.and_assoc, hdisjoint, BitVec.and_zero]

/-- A word matches a row exactly when it has the row's opcode and no reserved bit of the row's format (R74). -/
theorem matches_row_iff (w : Word) (r : Row) :
    w &&& rowMask r = rowMatch r ↔ fieldOp w = r.op ∧ w &&& reservedMask r.fmt = 0#32 := by
  constructor
  · intro h
    have hreserved : rowMask r &&& reservedMask r.fmt = reservedMask r.fmt := by
      unfold rowMask
      cases r.fmt <;> decide
    refine ⟨?_, ?_⟩
    · rw [← fieldOp_and_rowMask w r, h, fieldOp_rowMatch]
    · rw [← hreserved, ← BitVec.and_assoc, h, rowMatch_and_reserved]
  · rintro ⟨hop, hres⟩
    rw [rowMask, BitVec.and_or_distrib_left, hres, BitVec.or_zero, ← place_fieldOp, hop, rowMatch]

/-- A word has the top byte of a row's match exactly when it has the row's opcode. -/
theorem top_eq_rowMatch_iff (w : Word) (r : Row) : w >>> 24 = rowMatch r >>> 24 ↔ fieldOp w = r.op := by
  rw [ushiftRight_24_eq_iff, fieldOp_rowMatch]

/-! ### The decoder, answer by answer (R74) -/

theorem opcodeMap_ops_nodup : (opcodeMap.map Row.op).Nodup := by decide

/-- No two rows of the opcode map have one opcode. -/
theorem row_eq_of_op {r r' : Row} (h : r ∈ opcodeMap) (h' : r' ∈ opcodeMap) (hop : r.op = r'.op) : r = r' :=
  List.inj_on_of_nodup_map opcodeMap_ops_nodup h h' hop

theorem rowOf_eq_none_iff (op : BitVec 8) : rowOf op = none ↔ ∀ r ∈ opcodeMap, op ≠ r.op := by
  simp [rowOf, eq_comm (a := op)]

theorem mem_of_rowOf {op : BitVec 8} {r : Row} (h : rowOf op = some r) : r ∈ opcodeMap ∧ op = r.op := by
  have hop := List.find?_some h
  exact ⟨List.mem_of_find?_eq_some h, (beq_iff_eq.1 hop).symm⟩

theorem rowOf_of_mem {op : BitVec 8} {r : Row} (h : r ∈ opcodeMap) (hop : op = r.op) : rowOf op = some r := by
  cases e : rowOf op with
  | none => exact absurd hop ((rowOf_eq_none_iff op).1 e r h)
  | some r' =>
    obtain ⟨hr', hop'⟩ := mem_of_rowOf e
    rw [row_eq_of_op hr' h (hop'.symm.trans hop)]

/-- The decoder on a word whose opcode has a row. -/
theorem decode_row {w : Word} {r : Row} (h : r ∈ opcodeMap) (hop : fieldOp w = r.op) :
    decode w = if w &&& reservedMask r.fmt = 0#32 then .ok (r.build w) else .error .reservedBits := by
  simp only [decode, rowOf_of_mem h hop]

/-- The decoder on a word whose opcode has none. -/
theorem decode_noRow {w : Word} (h : ∀ r ∈ opcodeMap, fieldOp w ≠ r.op) : decode w = .error .illegalOpcode := by
  simp only [decode, (rowOf_eq_none_iff _).2 h]

/-- The three answers of the decoder (R74): the command of the row that matches, a reserved bit set, no row. -/
theorem decode_cases (w : Word) :
    (∃ r ∈ opcodeMap, (fieldOp w = r.op ∧ w &&& reservedMask r.fmt = 0#32) ∧ decode w = .ok (r.build w)) ∨
    (∃ r ∈ opcodeMap, (fieldOp w = r.op ∧ w &&& reservedMask r.fmt ≠ 0#32) ∧ decode w = .error .reservedBits) ∨
    ((∀ r ∈ opcodeMap, fieldOp w ≠ r.op) ∧ decode w = .error .illegalOpcode) := by
  by_cases hrow : ∃ r ∈ opcodeMap, fieldOp w = r.op
  · obtain ⟨r, hr, hop⟩ := hrow
    by_cases hres : w &&& reservedMask r.fmt = 0#32
    · exact .inl ⟨r, hr, ⟨hop, hres⟩, by rw [decode_row hr hop, if_pos hres]⟩
    · exact .inr (.inl ⟨r, hr, ⟨hop, hres⟩, by rw [decode_row hr hop, if_neg hres]⟩)
  · have hnone : ∀ r ∈ opcodeMap, fieldOp w ≠ r.op := fun r hr hop => hrow ⟨r, hr, hop⟩
    exact .inr (.inr ⟨hnone, decode_noRow hnone⟩)

theorem decode_ok_iff (w : Word) (i : Instr) :
    decode w = .ok i ↔ ∃ r ∈ opcodeMap, (fieldOp w = r.op ∧ w &&& reservedMask r.fmt = 0#32) ∧ r.build w = i := by
  constructor
  · intro h
    obtain ⟨r, hr, hmatch, e⟩ | ⟨r, -, -, e⟩ | ⟨-, e⟩ := decode_cases w <;> rw [h] at e
    · exact ⟨r, hr, hmatch, (Except.ok.inj e).symm⟩
    · cases e
    · cases e
  · rintro ⟨r, hr, ⟨hop, hres⟩, rfl⟩
    rw [decode_row hr hop, if_pos hres]

theorem decode_reservedBits_iff (w : Word) :
    decode w = .error .reservedBits ↔ ∃ r ∈ opcodeMap, fieldOp w = r.op ∧ w &&& reservedMask r.fmt ≠ 0#32 := by
  constructor
  · intro h
    obtain ⟨r, -, -, e⟩ | ⟨r, hr, hres, -⟩ | ⟨-, e⟩ := decode_cases w
    · rw [h] at e
      cases e
    · exact ⟨r, hr, hres⟩
    · rw [h] at e
      cases e
  · rintro ⟨r, hr, hop, hres⟩
    rw [decode_row hr hop, if_neg hres]

theorem decode_illegalOpcode_iff (w : Word) :
    decode w = .error .illegalOpcode ↔ ∀ r ∈ opcodeMap, fieldOp w ≠ r.op := by
  constructor
  · intro h r hr hop
    rw [decode_row hr hop] at h
    split at h <;> cases h
  · exact decode_noRow

/-- Settles O3: the spec's table is the opcode map, and matching a row is having its opcode and no reserved bit. At most one
row has the word's opcode, so where that one has a reserved bit no other row matches. -/
theorem decodeFollowsOpcodeTable : Obligations.DecodeFollowsOpcodeTable := by
  unfold Obligations.DecodeFollowsOpcodeTable
  intro w
  simp only [forall_opcodeTable, exists_opcodeTable, matches_row_iff, top_eq_rowMatch_iff, ne_eq]
  refine ⟨?_, ?_, decode_illegalOpcode_iff w⟩
  · constructor
    · rintro ⟨i, h⟩
      obtain ⟨r, hr, hmatch, -⟩ := (decode_ok_iff w i).1 h
      exact ⟨r, hr, hmatch⟩
    · rintro ⟨r, hr, hmatch⟩
      exact ⟨r.build w, (decode_ok_iff w _).2 ⟨r, hr, hmatch, rfl⟩⟩
  · rw [decode_reservedBits_iff]
    constructor
    · rintro ⟨r, hr, hop, hres⟩
      refine ⟨?_, r, hr, hop⟩
      rintro r' hr' ⟨hop', hres'⟩
      obtain rfl := row_eq_of_op hr hr' (hop.symm.trans hop')
      exact hres hres'
    · rintro ⟨hnone, r, hr, hop⟩
      exact ⟨r, hr, hop, fun hres => hnone r hr ⟨hop, hres⟩⟩

/-! ### Encoding what a row builds (R71, R73) -/

/-- The operand bits of a format: below the opcode, those that it does not reserve. -/
def operandMask (f : Format) : Word := 0x00FFFFFF#32 &&& ~~~reservedMask f

/-- The command that a row builds has the row's opcode, and its operands are the word's operand bits. -/
def Builds (r : Row) : Prop :=
  ∀ w : Word, opcodeOf (r.build w) = r.op ∧ operandBits (r.build w) = w &&& operandMask r.fmt

/-- A command without operands. -/
theorem builds_z {op : BitVec 8} {i : Instr} (hop : opcodeOf i = op) (hbits : operandBits i = 0#32) :
    Builds ⟨op, .z, fun _ => i⟩ := by
  have hmask : operandMask .z = 0#32 := rfl
  exact fun w => ⟨hop, by rw [hbits, hmask, BitVec.and_zero]⟩

/-- A command whose one operand is the field of `n` bits at the bottom of the word. -/
theorem builds_low {n : Nat} {op : BitVec 8} {fmt : Format} {c : BitVec n → Instr} (hop : ∀ v, opcodeOf (c v) = op)
    (hbits : ∀ v, operandBits (c v) = place v 0) (hmask : place (BitVec.allOnes n) 0 = operandMask fmt) :
    Builds ⟨op, fmt, fun w => c (w.extractLsb' 0 n)⟩ := fun w =>
  ⟨hop _, by rw [hbits, place_extract, hmask]⟩

theorem place_fieldBuf (w : Word) : place (bufCode (bufOfCode (fieldBuf w))) 22 = w &&& 0x00C00000#32 := by
  rw [bufCode_bufOfCode]
  exact place_extract w 22 2

theorem place_fieldIdx (w : Word) : place (fieldIdx w) 8 = w &&& 0x003FFF00#32 := place_extract w 8 14

theorem place_fieldVal (w : Word) : place (fieldVal w) 0 = w &&& 0x000000FF#32 := place_extract w 0 8

theorem rowsBuffers_build : ∀ r ∈ rowsBuffers, Builds r := by
  simp only [rowsBuffers, List.forall_mem_cons, List.not_mem_nil, false_imp_iff, implies_true, and_true]
  refine ⟨builds_z rfl rfl, fun w => ⟨rfl, ?ld⟩, fun w => ⟨rfl, ?st⟩, fun w => ⟨rfl, ?getlen⟩, fun w => ⟨rfl, ?setlen⟩⟩
  case ld | setlen =>
    simp only [operandBits, place_fieldBuf, place_fieldIdx, ← BitVec.and_or_distrib_left]
    rfl
  case st =>
    simp only [operandBits, place_fieldBuf, place_fieldIdx, place_fieldVal, ← BitVec.and_or_distrib_left]
    rfl
  case getlen => exact place_fieldBuf w

/-- CV.CFG's four fields fill the ten low bits. -/
theorem operandBits_cvCfg_fields (w : Word) :
    operandBits (.cvCfg (fieldFrom w) (fieldTo w) (fieldPad w) (fieldDir w)) = w &&& operandMask .cf := by
  simp only [operandBits, fieldFrom, fieldTo, fieldPad, fieldDir, ofBool_getLsbD, place_extract,
    ← BitVec.and_or_distrib_left]
  rfl

theorem rowsConverter_build : ∀ r ∈ rowsConverter, Builds r := by
  simp only [rowsConverter, List.forall_mem_cons, List.not_mem_nil, false_imp_iff, implies_true, and_true]
  exact ⟨fun w => ⟨rfl, operandBits_cvCfg_fields w⟩, builds_z rfl rfl,
    builds_low (c := .cvPush) (fun _ => rfl) (fun _ => rfl) rfl,
    builds_z rfl rfl, builds_z rfl rfl, builds_z rfl rfl, builds_z rfl rfl⟩

theorem rowsChecksum_build : ∀ r ∈ rowsChecksum, Builds r := by
  simp only [rowsChecksum, List.forall_mem_cons, List.not_mem_nil, false_imp_iff, implies_true, and_true]
  exact ⟨builds_z rfl rfl, builds_low (c := .pmStep) (fun _ => rfl) (fun _ => rfl) rfl, builds_z rfl rfl, builds_z rfl rfl,
    builds_z rfl rfl, builds_z rfl rfl, builds_z rfl rfl, builds_low (c := .ckRd) (fun _ => rfl) (fun _ => rfl) rfl⟩

theorem rowsAlphabet_build : ∀ r ∈ rowsAlphabet, Builds r := by
  simp only [rowsAlphabet, List.forall_mem_cons, List.not_mem_nil, false_imp_iff, implies_true, and_true]
  exact ⟨builds_low (c := .alEnc) (fun _ => rfl) (fun _ => rfl) rfl,
    builds_low (c := .alDec) (fun _ => rfl) (fun _ => rfl) rfl,
    builds_low (c := .alFold) (fun _ => rfl) (fun _ => rfl) rfl, builds_z rfl rfl, builds_z rfl rfl⟩

theorem opcodeMap_build : ∀ r ∈ opcodeMap, Builds r := by
  simp only [opcodeMap, List.forall_mem_append]
  exact ⟨⟨⟨rowsBuffers_build, rowsConverter_build⟩, rowsChecksum_build⟩, rowsAlphabet_build⟩

/-- The opcode and the operand bits of a format are all that it does not reserve. -/
theorem opcode_or_operandMask (f : Format) : 0xFF000000#32 ||| operandMask f = ~~~reservedMask f := by
  cases f <;> decide

/-- A word without reserved bits is what remains of it when they are cleared. -/
theorem and_not_reserved {w m : Word} (h : w &&& m = 0#32) : w &&& ~~~m = w :=
  calc w &&& ~~~m = w &&& m ||| w &&& ~~~m := by rw [h, BitVec.zero_or]
    _ = w := by rw [← BitVec.and_or_distrib_left, BitVec.or_not_self, BitVec.and_allOnes]

/-- Settles O2: the row that matched builds a command with its opcode and the word's operand bits, and the word has no
other bits. -/
theorem encodeInvertsDecode : Obligations.EncodeInvertsDecode := by
  unfold Obligations.EncodeInvertsDecode
  intro w i h
  obtain ⟨r, hr, ⟨hop, hres⟩, rfl⟩ := (decode_ok_iff w i).1 h
  obtain ⟨hopcode, hoperands⟩ := opcodeMap_build r hr w
  calc encode (r.build w) = place (fieldOp w) 24 ||| (w &&& operandMask r.fmt) := by
        rw [encode, hopcode, hoperands, hop]
    _ = w &&& ~~~reservedMask r.fmt := by
        rw [place_fieldOp, ← BitVec.and_or_distrib_left, opcode_or_operandMask]
    _ = w := and_not_reserved hres

/-! ### Decoding what was encoded (R70, R71) -/

/-- A field below the opcode reads the operand bits alone. -/
theorem extract_encode {low n : Nat} (h : low + n ≤ 24) (i : Instr) :
    (encode i).extractLsb' low n = (operandBits i).extractLsb' low n := by
  rw [encode, BitVec.extractLsb'_or, extract_place_below h, BitVec.zero_or]

theorem extract_encode_low {n : Nat} (h : n ≤ 24) {i : Instr} {v : BitVec n} (hbits : operandBits i = place v 0) :
    (encode i).extractLsb' 0 n = v := by
  rw [extract_encode (by omega), hbits, extract_place_self (by omega)]

theorem fields_encode_ld (b : Buf) (idx : BitVec 14) :
    bufOfCode (fieldBuf (encode (.ld b idx))) = b ∧ fieldIdx (encode (.ld b idx)) = idx := by
  simp [fieldBuf, fieldIdx, extract_encode, operandBits, BitVec.extractLsb'_or]

theorem fields_encode_st (b : Buf) (idx : BitVec 14) (val : Byte) :
    bufOfCode (fieldBuf (encode (.st b idx val))) = b ∧ fieldIdx (encode (.st b idx val)) = idx ∧
      fieldVal (encode (.st b idx val)) = val := by
  simp [fieldBuf, fieldIdx, fieldVal, extract_encode, operandBits, BitVec.extractLsb'_or]

theorem field_encode_getlen (b : Buf) : bufOfCode (fieldBuf (encode (.getlen b))) = b := by
  simp [fieldBuf, extract_encode, operandBits]

theorem fields_encode_setlen (b : Buf) (n : BitVec 14) :
    bufOfCode (fieldBuf (encode (.setlen b n))) = b ∧ fieldIdx (encode (.setlen b n)) = n := by
  simp [fieldBuf, fieldIdx, extract_encode, operandBits, BitVec.extractLsb'_or]

theorem fields_encode_cvCfg (fromBits toBits : BitVec 4) (pad dir : Bool) :
    fieldFrom (encode (.cvCfg fromBits toBits pad dir)) = fromBits ∧
      fieldTo (encode (.cvCfg fromBits toBits pad dir)) = toBits ∧
      fieldPad (encode (.cvCfg fromBits toBits pad dir)) = pad ∧
      fieldDir (encode (.cvCfg fromBits toBits pad dir)) = dir := by
  simp only [fieldFrom, fieldTo, fieldPad, fieldDir, getLsbD_eq_iff]
  simp [extract_encode, operandBits, BitVec.extractLsb'_or]

/-- The word of a command is decoded as what the command's row makes of it. -/
theorem decode_encode_of_row {i : Instr} {r : Row} (hrow : rowOf (opcodeOf i) = some r)
    (hmatch : rowMatchMask i = (rowMatch r, rowMask r)) (htable : TableRow.Statement i)
    (hbuild : r.build (encode i) = i) : decode (encode i) = .ok i := by
  rw [TableRow.Statement, hmatch, matches_row_iff] at htable
  exact (decode_ok_iff _ _).2 ⟨r, (mem_of_rowOf hrow).1, htable, hbuild⟩

/-- A command whose one operand is the field of `n` bits at the bottom of the word. -/
theorem decode_encode_low {n : Nat} (hn : n ≤ 24) {c : BitVec n → Instr} {v : BitVec n} {op : BitVec 8} {fmt : Format}
    (hrow : rowOf (opcodeOf (c v)) = some ⟨op, fmt, fun w => c (w.extractLsb' 0 n)⟩)
    (hmatch : rowMatchMask (c v) = (place op 24, 0xFF000000#32 ||| reservedMask fmt))
    (htable : TableRow.Statement (c v)) (hbits : operandBits (c v) = place v 0) :
    decode (encode (c v)) = .ok (c v) :=
  decode_encode_of_row hrow hmatch htable (congrArg c (extract_encode_low hn hbits))

/-- Settles O1: each command's word matches its row, whose fields read the operands back. -/
theorem decodeInvertsEncode : Obligations.DecodeInvertsEncode := by
  unfold Obligations.DecodeInvertsEncode
  intro i
  cases i with
  | srst => exact decode_encode_of_row rfl rfl TableRow.srst rfl
  | ld buf idx =>
    obtain ⟨hbuf, hidx⟩ := fields_encode_ld buf idx
    exact decode_encode_of_row rfl rfl (TableRow.ld buf idx) (congrArg₂ Instr.ld hbuf hidx)
  | st buf idx val =>
    obtain ⟨hbuf, hidx, hval⟩ := fields_encode_st buf idx val
    exact decode_encode_of_row rfl rfl (TableRow.st buf idx val) (by dsimp only; rw [hbuf, hidx, hval])
  | getlen buf => exact decode_encode_of_row rfl rfl (TableRow.getlen buf) (congrArg Instr.getlen (field_encode_getlen buf))
  | setlen buf n =>
    obtain ⟨hbuf, hn⟩ := fields_encode_setlen buf n
    exact decode_encode_of_row rfl rfl (TableRow.setlen buf n) (congrArg₂ Instr.setlen hbuf hn)
  | cvCfg fromBits toBits pad dir =>
    obtain ⟨hfrom, hto, hpad, hdir⟩ := fields_encode_cvCfg fromBits toBits pad dir
    exact decode_encode_of_row rfl rfl (TableRow.cvCfg fromBits toBits pad dir)
      (by dsimp only; rw [hfrom, hto, hpad, hdir])
  | cvInit => exact decode_encode_of_row rfl rfl TableRow.cvInit rfl
  | cvPush val => exact decode_encode_low (by decide) rfl rfl (TableRow.cvPush val) rfl
  | cvFlush => exact decode_encode_of_row rfl rfl TableRow.cvFlush rfl
  | cvRun => exact decode_encode_of_row rfl rfl TableRow.cvRun rfl
  | cvRd => exact decode_encode_of_row rfl rfl TableRow.cvRd rfl
  | cvRdcfg => exact decode_encode_of_row rfl rfl TableRow.cvRdcfg rfl
  | pmInit => exact decode_encode_of_row rfl rfl TableRow.pmInit rfl
  | pmStep sym => exact decode_encode_low (by decide) rfl rfl (TableRow.pmStep sym) rfl
  | pmRd => exact decode_encode_of_row rfl rfl TableRow.pmRd rfl
  | pmHrp => exact decode_encode_of_row rfl rfl TableRow.pmHrp rfl
  | pmSym => exact decode_encode_of_row rfl rfl TableRow.pmSym rfl
  | ckCreate => exact decode_encode_of_row rfl rfl TableRow.ckCreate rfl
  | ckVerify => exact decode_encode_of_row rfl rfl TableRow.ckVerify rfl
  | ckRd num => exact decode_encode_low (by decide) rfl rfl (TableRow.ckRd num) rfl
  | alEnc sym => exact decode_encode_low (by decide) rfl rfl (TableRow.alEnc sym) rfl
  | alDec val => exact decode_encode_low (by decide) rfl rfl (TableRow.alDec val) rfl
  | alFold val => exact decode_encode_low (by decide) rfl rfl (TableRow.alFold val) rfl
  | encode => exact decode_encode_of_row rfl rfl TableRow.encode rfl
  | decode => exact decode_encode_of_row rfl rfl TableRow.decode rfl

/-- A word worked out for a command decodes to it. -/
theorem decode_of_encode {i : Instr} {w : Word} (h : encode i = w) : decode w = .ok i := h ▸ decodeInvertsEncode i

/-- Settles O4: the eight words by evaluating the encoder; decoding inverts it. -/
theorem workedEncodings : Obligations.WorkedEncodings := by
  unfold Obligations.WorkedEncodings
  exact ⟨decode_of_encode rfl, decode_of_encode rfl, decode_of_encode rfl, decode_of_encode rfl, decode_of_encode rfl,
    decode_of_encode rfl, decode_of_encode rfl, decode_of_encode rfl, rfl, rfl, rfl, rfl, rfl, rfl, rfl, rfl⟩

/-! ### Failure words (R79) -/

theorem failureWord_eq (f : Failure) :
    failureWord f = place 1#1 31 ||| place (kindCode (causeKind f.cause)) 28 ||| place (causeSub f.cause) 24 |||
      place f.idx 8 ||| place f.val 0 := by
  simp only [failureWord, place, BitVec.shiftLeft_zero]
  rfl

theorem kindCode_ne_zero (k : Kind) : kindCode k ≠ 0#3 := by
  cases k <;> decide

/-- Settles O8: each field reads what was placed there, and no kind has the code 0. -/
theorem failureWordLayout : Obligations.FailureWordLayout := by
  unfold Obligations.FailureWordLayout
  intro f
  simp only [getLsbD_eq_iff, failureWord_eq]
  simp [BitVec.extractLsb'_or, kindCode_ne_zero]

/-! ### A word that is no command (R74 to R76) -/

/-- Settles O5: the table tells the decoder's error (O3), and the port answers it with its failure word. -/
theorem wordsThatAreNoCommandFail : Obligations.WordsThatAreNoCommandFail := by
  unfold Obligations.WordsThatAreNoCommandFail
  intro s w rest h
  obtain ⟨-, hreserved, hillegal⟩ := decodeFollowsOpcodeTable w
  refine ⟨fun hop => ?_, fun hop hrows => ?_⟩
  · rw [step_badWord h (hillegal.2 hop)]
    rfl
  · rw [step_badWord h (hreserved.2 ⟨hrows, hop⟩)]
    rfl

/-! ### The old response has no part in a command (log 2) -/

/-- The same block with no response at the port. -/
def quiet (s : State) : State := { s with resp := none }

@[simp] theorem quiet_config (s : State) : (quiet s).config = s.config := rfl
@[simp] theorem quiet_chk (s : State) : (quiet s).chk = s.chk := rfl
@[simp] theorem quiet_acc (s : State) : (quiet s).acc = s.acc := rfl
@[simp] theorem quiet_bits (s : State) : (quiet s).bits = s.bits := rfl
@[simp] theorem quiet_cfg (s : State) : (quiet s).cfg = s.cfg := rfl
@[simp] theorem quiet_lenOf (s : State) (b : Buf) : (quiet s).lenOf b = s.lenOf b := rfl
@[simp] theorem quiet_element (s : State) (b : Buf) (i : Nat) : (quiet s).element b i = s.element b i := rfl

/-- An answer replaces the response that stands at the port. -/
@[simp] theorem quiet_respond (s : State) (d : BitVec 30) : (quiet s).respond d = s.respond d := rfl
@[simp] theorem quiet_raise (s : State) (f : Failure) : (quiet s).raise f = s.raise f := rfl

/-- Apply `f` to the state in which a piece of pseudocode ends. -/
def mapState {α : Type} (f : State → State) : Res α → Res α
  | .ok t a => .ok (f t) a
  | .fail t e => .fail (f t) e

/-! Each operation does the same in the quiet state, and leaves the quiet form of what it leaves. -/

theorem memRead_quiet (s : State) (b : Buf) (i : Nat) :
    (quiet s).memRead b i = ((s.memRead b i).1, quiet (s.memRead b i).2) := by
  cases e : s.element b i with
  | some v => rw [memRead_known e, memRead_known ((quiet_element s b i).trans e)]
  | none =>
    rw [memRead_free e, memRead_free ((quiet_element s b i).trans e)]
    rfl

theorem readSeq_quiet (b : Buf) (n i : Nat) (s : State) :
    State.readSeq b n i (quiet s) = ((State.readSeq b n i s).1, quiet (State.readSeq b n i s).2) := by
  induction n generalizing i s with
  | zero => rfl
  | succ n ih => simp only [State.readSeq, memRead_quiet, ih]

theorem readBuf_quiet (s : State) (b : Buf) : (quiet s).readBuf b = ((s.readBuf b).1, quiet (s.readBuf b).2) :=
  readSeq_quiet b _ 0 s

theorem feedHrp_quiet (s : State) : (quiet s).feedHrp = quiet s.feedHrp := by
  simp only [State.feedHrp, readBuf_quiet]
  rfl

theorem feedSym_quiet (s : State) : (quiet s).feedSym = mapState quiet s.feedSym := by
  simp only [State.feedSym, readBuf_quiet, quiet_chk]
  cases feedSymbols (s.readBuf .sym).1 0 s.chk <;> rfl

theorem pushGroup_quiet (s : State) (v : Byte) : pushGroup (quiet s) v = mapState quiet (pushGroup s v) := by
  simp only [pushGroup, quiet_config, quiet_acc, quiet_bits, quiet_cfg, quiet_lenOf, apply_ite (mapState quiet)]
  rfl

theorem pushAll_quiet (xs : List Byte) (k : Nat) (s : State) :
    pushAll xs k (quiet s) = mapState quiet (pushAll xs k s) := by
  induction xs generalizing k s with
  | nil => rfl
  | cons x xs ih =>
    simp only [pushAll, pushGroup_quiet]
    cases pushGroup s x with
    | ok t g => exact ih (k + 1) t
    | fail t f =>
      simp only [mapState]
      split <;> rfl

theorem paddedResidual_quiet (s : State) :
    paddedResidual (quiet s) = ((paddedResidual s).1, quiet (paddedResidual s).2) := by
  by_cases h : s.bits.toNat ≤ s.cfg.toBits.toNat
  · simp only [paddedResidual, quiet_acc, quiet_bits, quiet_cfg, h, if_true]
  · simp only [paddedResidual, quiet_bits, quiet_cfg, h, if_false]
    rfl

theorem flushGroup_quiet (s : State) : flushGroup (quiet s) = mapState quiet (flushGroup s) := by
  simp only [flushGroup, paddedResidual_quiet, quiet_config, quiet_bits, quiet_cfg, quiet_lenOf,
    apply_ite (mapState quiet)]
  rfl

theorem execCvRun_quiet (s : State) : execCvRun (quiet s) = execCvRun s := by
  have hinit (t : State) : (quiet t).initConverter = quiet t.initConverter := rfl
  simp only [execCvRun, readBuf_quiet, hinit, pushAll_quiet, quiet_cfg]
  cases pushAll (s.readBuf (srcBuf s.cfg)).1 0 (s.readBuf (srcBuf s.cfg)).2.initConverter with
  | fail t f => rfl
  | ok t _ =>
    simp only [mapState, flushGroup_quiet]
    cases flushGroup t <;> rfl

/-- PM.HRP and PM.SYM as CK.CREATE and CK.VERIFY run them. -/
theorem feedBoth_quiet (s : State) :
    ({ quiet s with chk := 1#30 } : State).feedHrp.feedSym =
      mapState quiet ({ s with chk := 1#30 } : State).feedHrp.feedSym := by
  rw [← feedSym_quiet, ← feedHrp_quiet]
  rfl

theorem execCkCreate_quiet (s : State) : execCkCreate (quiet s) = execCkCreate s := by
  simp only [execCkCreate, feedBoth_quiet]
  cases ({ s with chk := 1#30 } : State).feedHrp.feedSym <;> rfl

theorem execCkVerify_quiet (s : State) : execCkVerify (quiet s) = execCkVerify s := by
  simp only [execCkVerify, feedBoth_quiet]
  cases ({ s with chk := 1#30 } : State).feedHrp.feedSym <;> rfl

theorem execEncode_quiet (s : State) : execEncode (quiet s) = execEncode s := by
  have hfailed (t : State) : (quiet t).encodeFailed = quiet t.encodeFailed := rfl
  have hresults (t : State) (h ds : List Byte) (m T : Nat) :
      (quiet t).encodeResults h ds m T = quiet (t.encodeResults h ds m T) := rfl
  simp only [execEncode, readBuf_quiet, hfailed, hresults, quiet_lenOf, quiet_config, quiet_respond, quiet_raise]

theorem execDecode_quiet (s : State) : execDecode (quiet s) = execDecode s := by
  have hfailed (t : State) : (quiet t).decodeFailed = quiet t.decodeFailed := rfl
  have hresults (t : State) (r : Decoded) : (quiet t).decodeResults r = quiet (t.decodeResults r) := rfl
  simp only [execDecode, readBuf_quiet, hfailed, hresults, quiet_respond, quiet_raise]

/-- Every command does the same with and without a response before it. -/
theorem exec_quiet (i : Instr) (s : State) : exec i (quiet s) = exec i s := by
  cases i with
  | ld buf idx =>
    simp only [exec, execLd, memRead_quiet]
    rfl
  | cvPush val =>
    simp only [exec, execCvPush, pushGroup_quiet]
    cases pushGroup s val <;> rfl
  | cvFlush =>
    simp only [exec, execCvFlush, flushGroup_quiet]
    cases flushGroup s <;> rfl
  | cvRun => exact execCvRun_quiet s
  | pmHrp =>
    simp only [exec, execPmHrp, feedHrp_quiet]
    rfl
  | pmSym =>
    simp only [exec, execPmSym, feedSym_quiet]
    cases s.feedSym <;> rfl
  | ckCreate => exact execCkCreate_quiet s
  | ckVerify => exact execCkVerify_quiet s
  | ckRd num =>
    simp only [exec, execCkRd]
    split <;> rfl
  | alDec val =>
    simp only [exec, execAlDec]
    cases revLookup val <;> rfl
  | encode => exact execEncode_quiet s
  | decode => exact execDecode_quiet s
  | srst | st _ _ _ | getlen _ | setlen _ _ | cvCfg _ _ _ _ | cvInit | cvRd | cvRdcfg | pmInit | pmStep _ | pmRd
  | alEnc _ | alFold _ => rfl

/-! ### The answer to a command word (R77 to R79) -/

/-- A response word as R77 to R79 have it: a success word has bit 30 clear, a failure word a kind and bits 23:22 clear. -/
def WellFormedResponse (r : Word) : Prop :=
  (r.getLsbD 31 = false → r.getLsbD 30 = false) ∧
    (r.getLsbD 31 = true → r.extractLsb' 28 3 ≠ 0#3 ∧ r.extractLsb' 22 2 = 0#2)

theorem successWord_wellFormed (d : BitVec 30) : WellFormedResponse (successWord d) := by
  have hE : (successWord d).getLsbD 31 = false := by simp [successWord]
  exact ⟨fun _ => by simp [successWord], fun h => absurd (hE.symm.trans h) (by decide)⟩

theorem failureWord_wellFormed (f : Failure) : WellFormedResponse (failureWord f) := by
  obtain ⟨hE, hkind, -, hzero, -, -, hne⟩ := failureWordLayout f
  exact ⟨fun h => absurd (hE.symm.trans h) (by decide), fun _ => ⟨hkind ▸ hne, hzero⟩⟩

theorem Answered.response {t : State} (h : Answered (.next t)) : ∃ r, t.resp = some r ∧ WellFormedResponse r := by
  cases h with
  | respond u d => exact ⟨_, rfl, successWord_wellFormed d⟩
  | raise u f => exact ⟨_, rfl, failureWord_wellFormed f⟩

/-- Settles O7: a word that decodes is answered by its command, which writes no input and does not see the old response;
any other word by the failure word of the port. -/
theorem everyCommandWordIsAnswered : Obligations.EveryCommandWordIsAnswered := by
  unfold Obligations.EveryCommandWordIsAnswered
  intro s w rest h
  have hq : (quiet s).inputs = .command w :: rest := h
  cases hd : decode w with
  | ok i =>
    have hans := exec_answered i (s.take rest)
    obtain ⟨t, ht⟩ := hans.next
    rw [ht] at hans
    obtain ⟨r, hr, hwf⟩ := hans.response
    refine ⟨t, r, (step_command h hd).trans ht, ?_, (exec_frame i _ t ht).inputs, hr, hwf⟩
    calc step (quiet s) = exec i (quiet (s.take rest)) := step_command hq hd
      _ = .next t := (exec_quiet i _).trans ht
  | error e =>
    exact ⟨_, _, step_badWord h hd, step_badWord hq hd, rfl, rfl, failureWord_wellFormed _⟩

end Sys2Proof.Proofs

/-!
PROOFS. The Bit Converter (spec/40_bit_converter.md): the encodings of its commands by their rows of the opcode map, the
configuration and the commands that read and clear registers (R101 to R103, R112).
-/

namespace Sys2Proof.Proofs

open Sys2Proof Sys2Proof.Machine Sys2Proof.Laws Sys2Proof.Claims

/-! ### Encodings, by the row of the opcode map (R73) -/

theorem decodesAs_row {k : Nat} {r : Row} (h : opcodeMap[k]? = some r) :
    DecodesAs r.op (reservedMask r.fmt) r.build :=
  fun _ hop => decode_row (List.mem_of_getElem? h) hop

/-! ### Fields put together by `or` are sums -/

theorem or_eq_add {a b : Nat} (n : Nat) (hb : b < 2 ^ n) (ha : 2 ^ n ∣ a) : a ||| b = a + b := by
  obtain ⟨c, rfl⟩ := ha
  exact (Nat.two_pow_add_eq_or_of_lt hb c).symm

theorem widthsByte_eq (f t : BitVec 4) : widthsByte f t = BitVec.ofNat 8 (16 * t.toNat + f.toNat) := by
  have hf := f.isLt
  have ht := t.isLt
  refine BitVec.eq_of_toNat_eq ?_
  simp only [widthsByte, BitVec.toNat_or, BitVec.toNat_shiftLeft, BitVec.toNat_setWidth, Nat.shiftLeft_eq,
    BitVec.toNat_ofNat]
  rw [or_eq_add 4 (by omega) (by omega)]
  omega

theorem cfgWord_eq (c : Cfg) : zext30 (cfgWord c) = BitVec.ofNat 30
    (512 * c.dir.toNat + 256 * c.pad.toNat + 16 * c.toBits.toNat + c.fromBits.toNat) := by
  have hf := c.fromBits.isLt
  have ht := c.toBits.isLt
  have hp := Bool.toNat_lt c.pad
  have hd := Bool.toNat_lt c.dir
  refine BitVec.eq_of_toNat_eq ?_
  simp only [zext30, cfgWord, BitVec.toNat_or, BitVec.toNat_shiftLeft, BitVec.toNat_setWidth, Nat.shiftLeft_eq,
    BitVec.toNat_ofNat, BitVec.toNat_ofBool]
  rw [or_eq_add (a := _ % 2 ^ 10) 9 (by omega) (by omega), or_eq_add (a := _ + _) 8 (by omega) (by omega),
    or_eq_add (a := _ + _) 4 (by omega) (by omega)]
  omega

theorem bitsAndAcc_eq (bits : BitVec 4) (acc : BitVec 16) :
    zext30 bits <<< 16 ||| zext30 acc = BitVec.ofNat 30 (65536 * bits.toNat + acc.toNat) := by
  have hb := bits.isLt
  have ha := acc.isLt
  refine BitVec.eq_of_toNat_eq ?_
  simp only [zext30, BitVec.toNat_or, BitVec.toNat_shiftLeft, BitVec.toNat_setWidth, Nat.shiftLeft_eq,
    BitVec.toNat_ofNat]
  rw [or_eq_add 16 (by omega) (by omega)]
  omega

/-! ### The register commands -/

/-- Settles O21: the two branches of the operand check. -/
theorem cvCfgConfigures : Obligations.CvCfgConfigures := by
  unfold Obligations.CvCfgConfigures
  refine ⟨decodesAs_row (k := 5) rfl, fun s f t pad dir => ⟨fun h => if_pos h, fun h => ?_⟩⟩
  rw [← widthsByte_eq]
  exact if_neg h

/-- Settles O22: the fields that the two commands join do not overlap. -/
theorem converterReadCommands : Obligations.ConverterReadCommands := by
  unfold Obligations.ConverterReadCommands
  refine ⟨decodesAs_row (k := 11) rfl, decodesAs_row (k := 10) rfl, fun s => ⟨?_, ?_⟩⟩
  · rw [← cfgWord_eq]
    rfl
  · rw [← bitsAndAcc_eq]
    rfl

theorem initConverter_lenOf (s : State) (b : Buf) :
    s.initConverter.lenOf b = if b = dstBuf s.cfg then 0 else s.lenOf b :=
  lenOf_setLen s.clearConverter _ b 0

/-- Settles O23: clearing the accumulator and setting one length. -/
theorem cvInitClears : Obligations.CvInitClears := by
  unfold Obligations.CvInitClears
  exact ⟨decodesAs_row (k := 6) rfl, fun s => ⟨_, rfl, rfl, initConverter_lenOf s⟩⟩

end Sys2Proof.Proofs

/-!
PROOFS. The function `convert` (R100, R56): the emitting loop cuts the groups of an accumulator from the top down, and the
loop over the input shifts values in below, so its output is cut from the one number that the input spells.
-/

namespace Sys2Proof.Proofs

open Sys2Proof Sys2Proof.Machine Sys2Proof.Laws Sys2Proof.Claims

/-! ### The groups of an accumulator (R56, R100, R104) -/

theorem and_maxGroup (n T : Nat) : n &&& maxGroup T = n % 2 ^ T := Nat.and_two_pow_sub_one_eq_mod n T

theorem topGroup_eq (T acc bits : Nat) : topGroup T acc bits = BitVec.ofNat 8 (acc / 2 ^ bits % 2 ^ T) := by
  rw [topGroup, and_maxGroup, Nat.shiftRight_eq_div_pow]

theorem topGroup_toNat {T : Nat} (hT : T ≤ 8) (acc bits : Nat) : (topGroup T acc bits).toNat = acc / 2 ^ bits % 2 ^ T := by
  have hlt : acc / 2 ^ bits % 2 ^ T < 2 ^ 8 :=
    Nat.lt_of_lt_of_le (Nat.mod_lt _ (Nat.two_pow_pos T)) (Nat.pow_le_pow_right (by decide) hT)
  rw [topGroup_eq, BitVec.toNat_ofNat, Nat.mod_eq_of_lt hlt]

/-- Congruence modulo a power of two, carried to a smaller one. -/
theorem mod_two_pow_of_le {a b m n : Nat} (h : a % 2 ^ n = b % 2 ^ n) (hm : m ≤ n) : a % 2 ^ m = b % 2 ^ m := by
  rw [← Nat.mod_mod_of_dvd a (Nat.pow_dvd_pow 2 hm), h, Nat.mod_mod_of_dvd b (Nat.pow_dvd_pow 2 hm)]

/-- A group depends on the bits up to its top only. -/
theorem topGroup_congr {T acc acc' bits : Nat} (h : acc % 2 ^ (bits + T) = acc' % 2 ^ (bits + T)) :
    topGroup T acc bits = topGroup T acc' bits := by
  rw [topGroup_eq, topGroup_eq, ← Nat.mod_mul_right_div_self acc, ← Nat.mod_mul_right_div_self acc', ← Nat.pow_add, h]

/-- The groups cut from the low `bits` bits of an accumulator, from the top down. -/
def groups (T acc bits : Nat) : List Byte := (emitGroups T acc bits bits).1

section
variable {T : Nat} (hT : 1 ≤ T)
include hT

/-- The emitting loop gives the groups and leaves the bits below them. -/
theorem emitGroups_eq_groups (acc : Nat) {fuel bits : Nat} (h : bits ≤ fuel) :
    emitGroups T acc fuel bits = (groups T acc bits, bits % T) := by
  rw [groups, emitGroups_eq acc hT h, emitGroups_eq acc hT (Nat.le_refl bits)]

theorem groups_length (acc bits : Nat) : (groups T acc bits).length = bits / T :=
  emitGroups_length acc hT (Nat.le_refl bits)

theorem groups_getElem? (acc : Nat) {bits j : Nat} (h : j < bits / T) :
    (groups T acc bits)[j]? = some (topGroup T acc (bits - (j + 1) * T)) := by
  simp [groups, emitGroups_eq acc hT (Nat.le_refl bits), h]

omit hT in
theorem groups_of_lt (acc : Nat) {bits : Nat} (h : bits < T) : groups T acc bits = [] := by
  cases bits with
  | zero => rfl
  | succ bits => simp [groups, emitGroups, Nat.not_le_of_lt h]

/-- The top group, and the groups of the bits below it. -/
theorem groups_add (acc bits : Nat) : groups T acc (bits + T) = topGroup T acc bits :: groups T acc bits := by
  obtain ⟨t, rfl⟩ : ∃ t, T = t + 1 := ⟨T - 1, by omega⟩
  have hfuel := emitGroups_eq_groups hT acc (Nat.le_add_right bits t)
  rw [groups, ← Nat.add_assoc, emitGroups, if_pos (by omega), Nat.add_assoc, Nat.add_sub_cancel, hfuel]

/-- Induction over an accumulator's bits, one group at a time. -/
theorem groups_induction {P : Nat → Prop} (base : ∀ bits, bits < T → P bits) (step : ∀ bits, P bits → P (bits + T))
    (bits : Nat) : P bits := by
  induction bits using Nat.strong_induction_on with
  | h bits ih =>
    by_cases hb : bits < T
    · exact base bits hb
    · have := step (bits - T) (ih _ (by omega))
      rwa [Nat.sub_add_cancel (by omega)] at this

theorem groups_congr {acc acc' bits : Nat} (h : acc % 2 ^ bits = acc' % 2 ^ bits) :
    groups T acc bits = groups T acc' bits := by
  induction bits using groups_induction hT with
  | base bits hb => rw [groups_of_lt acc hb, groups_of_lt acc' hb]
  | step bits ih =>
    rw [groups_add hT, groups_add hT, topGroup_congr h, ih (mod_two_pow_of_le h (Nat.le_add_right bits T))]

/-- The groups of a longer accumulator: those that its upper bits already give, then those of the bits they leave. -/
theorem groups_append (acc bits m : Nat) :
    groups T acc (bits + m) = groups T (acc / 2 ^ m) bits ++ groups T acc (bits % T + m) := by
  induction bits using groups_induction hT with
  | base bits hb => rw [groups_of_lt _ hb, Nat.mod_eq_of_lt hb, List.nil_append]
  | step bits ih =>
    have htop : topGroup T acc (bits + m) = topGroup T (acc / 2 ^ m) bits := by
      rw [topGroup_eq, topGroup_eq, Nat.div_div_eq_div_mul, ← Nat.pow_add, Nat.add_comm m]
    rw [Nat.add_right_comm, groups_add hT, groups_add hT, ih, htop, Nat.add_mod_right, List.cons_append]

theorem groups_lt (hT8 : T ≤ 8) (acc bits : Nat) : ∀ x ∈ groups T acc bits, x.toNat < 2 ^ T := by
  induction bits using groups_induction hT with
  | base bits hb => simp [groups_of_lt acc hb]
  | step bits ih =>
    rw [groups_add hT]
    refine List.forall_mem_cons.2 ⟨?_, ih⟩
    rw [topGroup_toNat hT8]
    exact Nat.mod_lt _ (Nat.two_pow_pos T)

end

/-! ### The number that groups spell (R56) -/

theorem groupsValue_append (w : Nat) (xs ys : List Byte) :
    groupsValue w (xs ++ ys) = groupsValue w xs * 2 ^ (w * ys.length) + groupsValue w ys := by
  have hfold (ys : List Byte) (a : Nat) :
      ys.foldl (fun a x => a * 2 ^ w + x.toNat) a = a * 2 ^ (w * ys.length) + groupsValue w ys := by
    induction ys generalizing a with
    | nil => simp [groupsValue]
    | cons y ys ih =>
      rw [groupsValue, List.foldl_cons, List.foldl_cons, ih, ih (0 * 2 ^ w + _), List.length_cons, Nat.mul_succ, Nat.pow_add]
      ring
  rw [groupsValue, List.foldl_append, hfold]
  rfl

theorem groupsValue_singleton (w : Nat) (x : Byte) : groupsValue w [x] = x.toNat := by
  simp [groupsValue]

theorem groupsValue_cons (w : Nat) (x : Byte) (xs : List Byte) :
    groupsValue w (x :: xs) = x.toNat * 2 ^ (w * xs.length) + groupsValue w xs := by
  rw [← List.singleton_append, groupsValue_append, groupsValue_singleton]

/-- All values of a converter's input fit `F` bits. -/
def Fits (F : Nat) (xs : List Byte) : Prop := ∀ x ∈ xs, x.toNat < 2 ^ F

theorem fits_cons {F : Nat} {x : Byte} {xs : List Byte} : Fits F (x :: xs) ↔ x.toNat < 2 ^ F ∧ Fits F xs :=
  List.forall_mem_cons

theorem groupsValue_lt {w : Nat} {xs : List Byte} (h : Fits w xs) : groupsValue w xs < 2 ^ (w * xs.length) := by
  induction xs with
  | nil => simp [groupsValue]
  | cons x xs ih =>
    obtain ⟨hx, hxs⟩ := fits_cons.1 h
    rw [groupsValue_cons, List.length_cons, Nat.mul_succ, Nat.add_comm (w * _), Nat.pow_add]
    calc x.toNat * 2 ^ (w * xs.length) + groupsValue w xs
        < x.toNat * 2 ^ (w * xs.length) + 2 ^ (w * xs.length) := Nat.add_lt_add_left (ih hxs) _
      _ = (x.toNat + 1) * 2 ^ (w * xs.length) := by ring
      _ ≤ 2 ^ w * 2 ^ (w * xs.length) := Nat.mul_le_mul_right _ hx

/-- The groups of an accumulator spell its bits but those below the last group. -/
theorem groupsValue_groups {T : Nat} (hT : 1 ≤ T) (hT8 : T ≤ 8) (acc bits : Nat) :
    groupsValue T (groups T acc bits) = acc % 2 ^ bits / 2 ^ (bits % T) := by
  induction bits using groups_induction hT with
  | base bits hb =>
    rw [groups_of_lt acc hb, Nat.mod_eq_of_lt hb, Nat.div_eq_of_lt (Nat.mod_lt _ (Nat.two_pow_pos bits))]
    rfl
  | step bits ih =>
    have hbits : 2 ^ bits = 2 ^ (bits % T) * 2 ^ (T * (bits / T)) := by rw [← Nat.pow_add, Nat.mod_add_div]
    have hsplit : acc % 2 ^ (bits + T) =
        2 ^ (bits % T) * (acc / 2 ^ bits % 2 ^ T * 2 ^ (T * (bits / T))) + acc % 2 ^ bits := by
      rw [Nat.pow_add, Nat.mod_mul, Nat.mul_left_comm, ← hbits, Nat.add_comm, Nat.mul_comm]
    rw [groups_add hT, groupsValue_cons, topGroup_toNat hT8, groups_length hT, ih, Nat.add_mod_right, hsplit,
      Nat.mul_add_div (Nat.two_pow_pos _)]

/-! ### Which value of an input does not fit -/

theorem shiftRight_of_lt {v F : Nat} (h : v < 2 ^ F) : v >>> F = 0 := by
  rw [Nat.shiftRight_eq_div_pow, Nat.div_eq_of_lt h]

theorem shiftRight_of_ge {v F : Nat} (h : 2 ^ F ≤ v) : v >>> F ≠ 0 := by
  rw [Nat.shiftRight_eq_div_pow]
  exact (Nat.div_pos h (Nat.two_pow_pos F)).ne'

/-- The lowest bad element stands after good ones. -/
theorem lowestBad_split {bad : Byte → Prop} {xs : List Byte} {k : Nat} {v : Byte} (h : LowestBad bad xs k v) :
    ∃ pre post, xs = pre ++ v :: post ∧ pre.length = k ∧ bad v ∧ ∀ x ∈ pre, ¬ bad x := by
  obtain ⟨hk, hv, hlow⟩ := h
  obtain ⟨hlt, rfl⟩ := List.getElem?_eq_some_iff.1 hk
  refine ⟨xs.take k, xs.drop (k + 1), by simp, by simp; omega, hv, fun x hx => ?_⟩
  obtain ⟨j, hj, rfl⟩ := List.mem_take_iff_getElem.1 hx
  exact hlow j _ (by omega) (List.getElem?_eq_getElem _)

/-- An input fits, or it has a first value that does not. -/
theorem fits_or_misfit (F : Nat) (xs : List Byte) :
    Fits F xs ∨ ∃ pre v post, xs = pre ++ v :: post ∧ Fits F pre ∧ 2 ^ F ≤ v.toNat := by
  cases e : xs.find? (fun x => decide (2 ^ F ≤ x.toNat)) with
  | none =>
    refine .inl fun x hx => ?_
    simpa using List.find?_eq_none.1 e x hx
  | some v =>
    obtain ⟨hv, pre, post, rfl, hpre⟩ := List.find?_eq_some_iff_append.1 e
    exact .inr ⟨pre, v, post, rfl, fun x hx => by simpa using hpre x hx, by simpa using hv⟩

/-! ### `convert` in closed form (R100) -/

theorem shiftIn_eq {F v : Nat} (hv : v < 2 ^ F) (acc : Nat) : (acc <<< F) ||| v = acc * 2 ^ F + v := by
  rw [← Nat.shiftLeft_add_eq_or_of_lt hv, Nat.shiftLeft_eq]

theorem shiftIn_add {F : Nat} (acc : Nat) (v : Byte) (vs : List Byte) :
    (acc * 2 ^ F + v.toNat) * 2 ^ (F * vs.length) + groupsValue F vs =
      acc * 2 ^ (F * (v :: vs).length) + groupsValue F (v :: vs) := by
  rw [groupsValue_cons, List.length_cons, Nat.mul_succ, Nat.pow_add]
  ring

/-- The accumulator's upper bits, once values that fit have been shifted in below them. -/
theorem shifted_div {F : Nat} {vs : List Byte} (h : Fits F vs) (acc : Nat) :
    (acc * 2 ^ (F * vs.length) + groupsValue F vs) / 2 ^ (F * vs.length) = acc := by
  rw [Nat.mul_comm, Nat.mul_add_div (Nat.two_pow_pos _), Nat.div_eq_of_lt (groupsValue_lt h), Nat.add_zero]

section
variable {F T : Nat} (hT : 1 ≤ T)

include hT in
/-- The loop of R100 over values that fit: their bits are shifted in, and all groups cut from what the accumulator holds. -/
theorem convertLoop_fits {vs : List Byte} (h : Fits F vs) (k acc : Nat) {bits : Nat} (hb : bits < T) :
    convertLoop F T vs k acc bits =
      .ok (acc * 2 ^ (F * vs.length) + groupsValue F vs, (bits + F * vs.length) % T,
        groups T (acc * 2 ^ (F * vs.length) + groupsValue F vs) (bits + F * vs.length)) := by
  induction vs generalizing k acc bits with
  | nil => simp [convertLoop, groupsValue, groups_of_lt acc hb, Nat.mod_eq_of_lt hb]
  | cons v vs ih =>
    obtain ⟨hv, hvs⟩ := fits_cons.1 h
    have hsum : bits + F * (v :: vs).length = bits + F + F * vs.length := by rw [List.length_cons, Nat.mul_succ]; omega
    simp only [convertLoop, shiftRight_of_lt hv, ne_eq, not_true, if_false, shiftIn_eq hv,
      emitGroups_eq_groups hT _ (Nat.le_refl _), ih hvs (k + 1) _ (Nat.mod_lt _ hT), shiftIn_add, hsum,
      groups_append hT _ (bits + F), Nat.mod_add_mod]
    rw [← shiftIn_add, shifted_div hvs]

/-- The loop ends at the first value that does not fit. -/
theorem convertLoop_misfit {pre : List Byte} (h : Fits F pre) {v : Byte} (hv : 2 ^ F ≤ v.toNat) (post : List Byte)
    (k acc bits : Nat) : convertLoop F T (pre ++ v :: post) k acc bits = .error (.outOfRange (k + pre.length) v) := by
  induction pre generalizing k acc bits with
  | nil => simp [convertLoop, shiftRight_of_ge hv]
  | cons x pre ih =>
    obtain ⟨hx, hpre⟩ := fits_cons.1 h
    simp only [List.cons_append, convertLoop, shiftRight_of_lt hx, ne_eq, not_true, if_false, ih hpre (k + 1),
      List.length_cons]
    rw [Nat.add_right_comm, Nat.add_assoc]

theorem convert_misfit {pre : List Byte} (h : Fits F pre) {v : Byte} (hv : 2 ^ F ≤ v.toNat) (post : List Byte)
    (pad : Bool) : convert F T pad (pre ++ v :: post) = .error (.outOfRange pre.length v) := by
  simp only [convert, convertLoop_misfit h hv, Nat.zero_add]

end

/-- The live bits at the top of a group, zeros below (R56, R108). -/
theorem paddedGroup_eq {T acc bits : Nat} (h : bits ≤ T) : paddedGroup T acc bits = acc % 2 ^ bits * 2 ^ (T - bits) := by
  have hT : 2 ^ T = 2 ^ bits * 2 ^ (T - bits) := by rw [← Nat.pow_add, Nat.add_sub_cancel' h]
  rw [paddedGroup, and_maxGroup, Nat.shiftLeft_eq, hT, Nat.mul_mod_mul_right]

theorem paddedGroup_lt (T acc bits : Nat) : paddedGroup T acc bits < 2 ^ T := by
  rw [paddedGroup, and_maxGroup]
  exact Nat.mod_lt _ (Nat.two_pow_pos T)

/-- The whole groups that the bits of an input make. -/
def wholeGroups (F T : Nat) (xs : List Byte) : List Byte := groups T (groupsValue F xs) (xs.length * F)

/-- The bits of an input left over after its whole groups, at the top of a group. -/
def leftOver (F T : Nat) (xs : List Byte) : Nat := paddedGroup T (groupsValue F xs) (xs.length * F % T)

section
variable {F T : Nat} {xs : List Byte} (hT : 1 ≤ T)
include hT

theorem wholeGroups_length : (wholeGroups F T xs).length = xs.length * F / T := groups_length hT _ _

theorem leftOver_eq : leftOver F T xs = groupsValue F xs % 2 ^ (xs.length * F % T) * 2 ^ (T - xs.length * F % T) :=
  paddedGroup_eq (Nat.mod_lt _ hT).le

theorem leftOver_eq_zero_iff : leftOver F T xs = 0 ↔ groupsValue F xs % 2 ^ (xs.length * F % T) = 0 := by
  simp [leftOver_eq hT]

variable (h : Fits F xs)
include h

/-- The whole groups spell the input but for the bits left over. -/
theorem groupsValue_wholeGroups (hT8 : T ≤ 8) :
    groupsValue T (wholeGroups F T xs) = groupsValue F xs / 2 ^ (xs.length * F % T) := by
  rw [wholeGroups, groupsValue_groups hT hT8, Nat.mod_eq_of_lt (Nat.mul_comm F _ ▸ groupsValue_lt h)]

/-- `convert` on values that fit: the whole groups, then what R100 does with the bits left over. -/
theorem convert_fits (pad : Bool) :
    convert F T pad xs =
      if pad then
        if xs.length * F % T > 0 then .ok (wholeGroups F T xs ++ [BitVec.ofNat 8 (leftOver F T xs)])
        else .ok (wholeGroups F T xs)
      else if F ≤ xs.length * F % T then .error (.residual (xs.length * F % T))
      else if leftOver F T xs ≠ 0 then .error (.nonzeroPad (leftOver F T xs))
      else .ok (wholeGroups F T xs) := by
  simp only [convert, convertLoop_fits hT h 0 0 hT, Nat.zero_mul, Nat.zero_add, Nat.mul_comm F]
  rfl

theorem convert_padded_left (hr : xs.length * F % T > 0) :
    convert F T true xs = .ok (wholeGroups F T xs ++ [BitVec.ofNat 8 (leftOver F T xs)]) := by
  rw [convert_fits hT h, if_pos rfl, if_pos hr]

theorem convert_padded_whole (hr : xs.length * F % T = 0) : convert F T true xs = .ok (wholeGroups F T xs) := by
  rw [convert_fits hT h, if_pos rfl, if_neg (by omega)]

theorem convert_strict_residual (hr : F ≤ xs.length * F % T) :
    convert F T false xs = .error (.residual (xs.length * F % T)) := by
  rw [convert_fits hT h, if_neg (by decide), if_pos hr]

theorem convert_strict_nonzero (hr : xs.length * F % T < F) (hne : leftOver F T xs ≠ 0) :
    convert F T false xs = .error (.nonzeroPad (leftOver F T xs)) := by
  rw [convert_fits hT h, if_neg (by decide), if_neg (by omega), if_pos hne]

theorem convert_strict_zero (hr : xs.length * F % T < F) (hz : leftOver F T xs = 0) :
    convert F T false xs = .ok (wholeGroups F T xs) := by
  rw [convert_fits hT h, if_neg (by decide), if_neg (by omega), if_neg (not_not_intro hz)]

/-- With padding, the left-over bits with zeros below them are one more group. -/
theorem convert_padded_value (hT8 : T ≤ 8) :
    ∃ out, convert F T true xs = .ok out ∧ Fits T out ∧
      groupsValue T out = groupsValue F xs * 2 ^ (T * out.length - xs.length * F) := by
  have hfits : Fits T (wholeGroups F T xs) := groups_lt hT hT8 _ _
  have hvalue := groupsValue_wholeGroups hT h hT8
  have hlen := wholeGroups_length (F := F) (xs := xs) hT
  have hdiv := Nat.div_add_mod (xs.length * F) T
  have hlt : xs.length * F % T < T := Nat.mod_lt _ hT
  by_cases hr : xs.length * F % T > 0
  · have hleft : leftOver F T xs < 2 ^ T := paddedGroup_lt T _ _
    have hbyte : (BitVec.ofNat 8 (leftOver F T xs)).toNat = leftOver F T xs := by
      rw [BitVec.toNat_ofNat, Nat.mod_eq_of_lt (hleft.trans_le (Nat.pow_le_pow_right (by decide) hT8))]
    refine ⟨_, convert_padded_left hT h hr, ?_, ?_⟩
    · exact List.forall_mem_append.2 ⟨hfits, List.forall_mem_singleton.2 (by rwa [hbyte])⟩
    · have hzeros : T * (xs.length * F / T + 1) - xs.length * F = T - xs.length * F % T := by
        rw [Nat.mul_succ]; omega
      have htop : 2 ^ T = 2 ^ (xs.length * F % T) * 2 ^ (T - xs.length * F % T) := by
        rw [← Nat.pow_add, Nat.add_sub_cancel' hlt.le]
      rw [groupsValue_append, groupsValue_singleton, hbyte, leftOver_eq hT, hvalue, List.length_append, hlen,
        List.length_singleton, hzeros, Nat.mul_one, htop, ← Nat.mul_assoc, ← Nat.add_mul, Nat.mul_comm (_ / _),
        Nat.div_add_mod]
  · have h0 : xs.length * F % T = 0 := by omega
    refine ⟨_, convert_padded_whole hT h h0, hfits, ?_⟩
    rw [hvalue, hlen, h0, show T * (xs.length * F / T) - xs.length * F = 0 by omega, Nat.pow_zero, Nat.div_one, Nat.mul_one]

end

/-- Settles O27: the first value that does not fit ends the loop; otherwise the groups are cut from the number that the input
spells. -/
theorem convertRegroupsBits : Obligations.ConvertRegroupsBits := by
  unfold Obligations.ConvertRegroupsBits
  rintro F T n q r N xs hF - hT hT8 rfl rfl rfl rfl
  refine ⟨fun pad k v hbad => ?_, fun h => ⟨?_, convert_strict_residual hT h, fun hr hne => ?_, fun hr hz => ?_⟩⟩
  · obtain ⟨pre, post, rfl, rfl, hv, hpre⟩ := lowestBad_split hbad
    exact convert_misfit (fun x hx => Nat.lt_of_not_le (hpre x hx)) hv post pad
  · obtain ⟨out, e, hfits, hvalue⟩ := convert_padded_value hT h hT8
    have hlen := convert_length hT e
    rw [if_pos rfl, Nat.mul_comm F, ← Nat.add_sub_assoc hT] at hlen
    exact ⟨out, e, hlen, hfits, hvalue⟩
  · rw [convert_strict_nonzero hT h hr (fun hz => hne ((leftOver_eq_zero_iff hT).1 hz)), leftOver_eq hT]
  · exact ⟨_, convert_strict_zero hT h hr ((leftOver_eq_zero_iff hT).2 hz), wholeGroups_length hT, groups_lt hT hT8 _ _,
      groupsValue_wholeGroups hT h hT8⟩

end Sys2Proof.Proofs

/-!
PROOFS. Pushes and flushes on the state (R104 to R109): a push appends the groups that the accumulator holds, every bit goes
into a group or stays, and the dead bits of the accumulator are never seen.
-/

namespace Sys2Proof.Proofs

open Sys2Proof Sys2Proof.Machine Sys2Proof.Laws Sys2Proof.Claims

theorem dstOf_eq (s : State) : dstOf s = dstBuf s.cfg := rfl

/-! ### A push (R104) -/

/-- `ACC` with a value shifted in. -/
def shiftedAcc (s : State) (v : Byte) : BitVec 16 := s.acc <<< s.cfg.fromBits.toNat ||| v.setWidth 16

theorem ofNat_shiftIn (s : State) (v : Byte) :
    BitVec.ofNat 16 ((s.acc.toNat <<< s.cfg.fromBits.toNat) ||| v.toNat) = shiftedAcc s v := by
  refine BitVec.eq_of_toNat_eq ?_
  simp [shiftedAcc]

theorem shiftedAcc_toNat {s : State} {v : Byte} (hv : v.toNat < 2 ^ s.cfg.fromBits.toNat) :
    (shiftedAcc s v).toNat = (s.acc.toNat * 2 ^ s.cfg.fromBits.toNat + v.toNat) % 2 ^ 16 := by
  rw [← ofNat_shiftIn, shiftIn_eq hv, BitVec.toNat_ofNat]

/-- What pushes leave: their groups appended to the destination, and a new accumulator and bit count. -/
def appended (s : State) (gs : List Byte) (acc : BitVec 16) (bits : Nat) : State :=
  { (s.writeSeq (dstBuf s.cfg) (s.lenOf (dstBuf s.cfg)) gs).setLen (dstBuf s.cfg) (s.lenOf (dstBuf s.cfg) + gs.length) with
    acc := acc, bits := BitVec.ofNat 4 bits }

section
variable (s : State) (gs : List Byte) (acc : BitVec 16) (bits : Nat)

@[simp] theorem appended_cfg : (appended s gs acc bits).cfg = s.cfg := rfl
@[simp] theorem appended_acc : (appended s gs acc bits).acc = acc := rfl

@[simp] theorem appended_bits : (appended s gs acc bits).bits = BitVec.ofNat 4 bits := rfl

theorem appended_element (b : Buf) (k : Nat) : (appended s gs acc bits).element b k =
    if b = dstBuf s.cfg ∧ s.lenOf (dstBuf s.cfg) ≤ k ∧ k < s.lenOf (dstBuf s.cfg) + gs.length then
      gs[k - s.lenOf (dstBuf s.cfg)]?
    else s.element b k :=
  element_writeSeq s _ b _ k gs

end

theorem appended_lenOf {s : State} {gs : List Byte} (hlen : s.lenOf (dstBuf s.cfg) + gs.length < 2 ^ 14) (acc : BitVec 16)
    (bits : Nat) (b : Buf) : (appended s gs acc bits).lenOf b =
      if b = dstBuf s.cfg then s.lenOf (dstBuf s.cfg) + gs.length else s.lenOf b := by
  have := lenOf_setLen (s.writeSeq (dstBuf s.cfg) (s.lenOf (dstBuf s.cfg)) gs) (dstBuf s.cfg) b
    (s.lenOf (dstBuf s.cfg) + gs.length)
  rw [Nat.mod_eq_of_lt hlen] at this
  exact this

theorem pushGroup_misfit {s : State} {v : Byte} (hv : 2 ^ s.cfg.fromBits.toNat ≤ v.toNat) :
    pushGroup s v = .fail s ⟨.outOfRange, 0#14, v⟩ :=
  if_pos (shiftRight_of_ge hv)

theorem pushGroup_full {s : State} {v : Byte} (hv : v.toNat < 2 ^ s.cfg.fromBits.toNat)
    (hfull : s.lenOf (dstBuf s.cfg) + (s.bits.toNat + s.cfg.fromBits.toNat) / s.cfg.toBits.toNat > s.config.cap) :
    pushGroup s v = .fail s ⟨.capacity, 0#14, 0#8⟩ :=
  (if_neg (not_not_intro (shiftRight_of_lt hv))).trans (if_pos hfull)

/-- What a push that finds room leaves. -/
def pushed (s : State) (v : Byte) : State :=
  appended s (groups s.cfg.toBits.toNat (shiftedAcc s v).toNat (s.bits.toNat + s.cfg.fromBits.toNat)) (shiftedAcc s v)
    ((s.bits.toNat + s.cfg.fromBits.toNat) % s.cfg.toBits.toNat)

@[simp] theorem pushed_cfg (s : State) (v : Byte) : (pushed s v).cfg = s.cfg := rfl
@[simp] theorem pushed_acc (s : State) (v : Byte) : (pushed s v).acc = shiftedAcc s v := rfl

theorem pushGroup_room {s : State} {v : Byte} (hT : 1 ≤ s.cfg.toBits.toNat) (hv : v.toNat < 2 ^ s.cfg.fromBits.toNat)
    (hroom : s.lenOf (dstBuf s.cfg) + (s.bits.toNat + s.cfg.fromBits.toNat) / s.cfg.toBits.toNat ≤ s.config.cap) :
    pushGroup s v = .ok (pushed s v) ((s.bits.toNat + s.cfg.fromBits.toNat) / s.cfg.toBits.toNat) := by
  simp only [pushGroup, shiftRight_of_lt hv, ne_eq, not_true, if_false, Nat.not_lt_of_le hroom, ofNat_shiftIn,
    emitGroups_eq_groups hT _ (Nat.le_refl _)]
  rfl

section
variable {s : State} (hs : s.Inv) (v : Byte)
include hs

theorem pushed_bits :
    (pushed s v).bits.toNat = (s.bits.toNat + s.cfg.fromBits.toNat) % s.cfg.toBits.toNat := by
  have hT8 := hs.to_legal.2
  have hlt := Nat.mod_lt (s.bits.toNat + s.cfg.fromBits.toNat) hs.to_legal.1
  rw [pushed, appended_bits, BitVec.toNat_ofNat, Nat.mod_eq_of_lt (by omega)]

theorem pushed_lenOf
    (hroom : s.lenOf (dstBuf s.cfg) + (s.bits.toNat + s.cfg.fromBits.toNat) / s.cfg.toBits.toNat ≤ s.config.cap) (b : Buf) :
    (pushed s v).lenOf b = if b = dstBuf s.cfg then
      s.lenOf (dstBuf s.cfg) + (s.bits.toNat + s.cfg.fromBits.toNat) / s.cfg.toBits.toNat else s.lenOf b := by
  have hcap := hs.cap_legal.2
  have hlen := groups_length hs.to_legal.1 (shiftedAcc s v).toNat (s.bits.toNat + s.cfg.fromBits.toNat)
  rw [pushed, appended_lenOf (by omega), hlen]

theorem pushed_element (b : Buf) (k : Nat) :
    (pushed s v).element b k =
      if b = dstBuf s.cfg ∧ s.lenOf (dstBuf s.cfg) ≤ k ∧
          k < s.lenOf (dstBuf s.cfg) + (s.bits.toNat + s.cfg.fromBits.toNat) / s.cfg.toBits.toNat then
        some (topGroup s.cfg.toBits.toNat (shiftedAcc s v).toNat
          (s.bits.toNat + s.cfg.fromBits.toNat - (k - s.lenOf (dstBuf s.cfg) + 1) * s.cfg.toBits.toNat))
      else s.element b k := by
  rw [pushed, appended_element, groups_length hs.to_legal.1]
  exact ite_congr rfl (fun ⟨_, hk, hk'⟩ => groups_getElem? hs.to_legal.1 _ (by omega)) fun _ => rfl

end

theorem execCvPush_ok {s t : State} {v : Byte} {g : Nat} (h : pushGroup s v = .ok t g) :
    exec (.cvPush v) s = .next (t.respond (data30 g)) := by
  simp only [exec, execCvPush, h]

theorem execCvPush_fail {s t : State} {v : Byte} {f : Failure} (h : pushGroup s v = .fail t f) :
    exec (.cvPush v) s = .next (t.raise f) := by
  simp only [exec, execCvPush, h]

/-- Settles O24: the three ways a push ends; the groups by their places in the accumulator. -/
theorem cvPushEmitsGroups : Obligations.CvPushEmitsGroups := by
  unfold Obligations.CvPushEmitsGroups
  refine ⟨decodesAs_row (k := 7) rfl, ?_⟩
  rintro s v F T g L hs rfl rfl rfl rfl
  simp only [dstOf_eq, ← topGroup_eq]
  refine ⟨fun hv => ?_, fun hv hfull => ?_, fun hv hroom => ?_⟩
  · rw [execCvPush_fail (pushGroup_misfit hv)]
    rfl
  · rw [execCvPush_fail (pushGroup_full hv hfull)]
    rfl
  · exact ⟨_, execCvPush_ok (pushGroup_room hs.to_legal.1 hv hroom), rfl, rfl, pushed_bits hs v, pushed_lenOf hs v hroom,
      pushed_element hs v⟩

/-! ### A flush (R108) -/

/-- What a flush that appends the group `r` leaves. -/
def flushed (s : State) (r : Nat) : State :=
  ((s.memWrite (dstBuf s.cfg) (s.lenOf (dstBuf s.cfg)) (BitVec.ofNat 8 r)).setLen (dstBuf s.cfg)
    (s.lenOf (dstBuf s.cfg) + 1)).clearConverter

theorem flushed_lenOf {s : State} (hs : s.Inv) (hroom : s.lenOf (dstBuf s.cfg) + 1 ≤ s.config.cap) (r : Nat) (b : Buf) :
    (flushed s r).lenOf b = if b = dstBuf s.cfg then s.lenOf (dstBuf s.cfg) + 1 else s.lenOf b := by
  have hcap := hs.cap_legal.2
  rw [flushed, lenOf_congr (clearConverter_len _), lenOf_setLen, Nat.mod_eq_of_lt (by omega)]
  rfl

theorem flushed_element (s : State) (r : Nat) (b : Buf) (k : Nat) :
    (flushed s r).element b k =
      if b = dstBuf s.cfg ∧ k = s.lenOf (dstBuf s.cfg) then some (BitVec.ofNat 8 r) else s.element b k :=
  element_memWrite s _ b _ k _

section
variable {s : State}

/-! The ways a flush ends: with padding nothing left, no room, one more group; in strict mode too many bits left, bits that
are not all zero, and a clean end. -/

theorem flushGroup_padEmpty (hp : s.cfg.pad = true) (hB : s.bits.toNat = 0) :
    flushGroup s = .ok s.clearConverter 0 := by
  simp [flushGroup, hp, hB]

theorem flushGroup_padFull (hp : s.cfg.pad = true) (hB : 0 < s.bits.toNat)
    (hfull : s.lenOf (dstBuf s.cfg) + 1 > s.config.cap) : flushGroup s = .fail s ⟨.capacity, 0#14, 0#8⟩ := by
  simp [flushGroup, hp, hB, hfull]

theorem flushGroup_strictResidual (hp : s.cfg.pad = false) (hB : s.cfg.fromBits.toNat ≤ s.bits.toNat) :
    flushGroup s = .fail s (failureAt .residual 0 s.bits.toNat) := by
  simp [flushGroup, hp, hB]

variable {r d : Nat} (hr : paddedResidual s = (r, { s with draws := d }))
include hr

theorem flushGroup_padRoom (hp : s.cfg.pad = true) (hB : 0 < s.bits.toNat)
    (hroom : s.lenOf (dstBuf s.cfg) + 1 ≤ s.config.cap) : flushGroup s = .ok (flushed { s with draws := d } r) 1 := by
  simp only [flushGroup, hp, hB, hr, if_true, Nat.not_lt_of_le hroom, if_false]
  rfl

theorem flushGroup_strictNonzero (hp : s.cfg.pad = false) (hB : s.bits.toNat < s.cfg.fromBits.toNat) (hne : r ≠ 0) :
    flushGroup s = .fail { s with draws := d } (failureAt .nonzeroPad 0 r) := by
  simp [flushGroup, hp, Nat.not_le_of_lt hB, hr, hne]

theorem flushGroup_strictZero (hp : s.cfg.pad = false) (hB : s.bits.toNat < s.cfg.fromBits.toNat) (hz : r = 0) :
    flushGroup s = .ok ({ s with draws := d } : State).clearConverter 0 := by
  simp [flushGroup, hp, Nat.not_le_of_lt hB, hr, hz]

end

/-- With `BITS` at most `TO` the residual is the live bits at the top of a group, and no free value is drawn. -/
theorem paddedResidual_live {s : State} (h : s.bits.toNat ≤ s.cfg.toBits.toNat) :
    paddedResidual s =
      (s.acc.toNat % 2 ^ s.bits.toNat * 2 ^ (s.cfg.toBits.toNat - s.bits.toNat), { s with draws := s.draws }) := by
  obtain ⟨r, d, hr, -, hlive⟩ := paddedResidual_spec s
  obtain ⟨rfl, rfl⟩ := hlive h
  rw [hr, paddedGroup_eq h]

theorem execCvFlush_ok {s t : State} {g : Nat} (h : flushGroup s = .ok t g) :
    exec .cvFlush s = .next (t.respond (data30 g)) := by
  simp only [exec, execCvFlush, h]

theorem execCvFlush_fail {s t : State} {f : Failure} (h : flushGroup s = .fail t f) :
    exec .cvFlush s = .next (t.raise f) := by
  simp only [exec, execCvFlush, h]

/-- Settles O25: the ways a flush ends, with the live bits as the residual. -/
theorem cvFlushEndsInput : Obligations.CvFlushEndsInput := by
  unfold Obligations.CvFlushEndsInput
  refine ⟨decodesAs_row (k := 8) rfl, ?_⟩
  rintro s F T B L r hs rfl rfl rfl rfl hBT rfl
  have hr := paddedResidual_live hBT
  simp only [dstOf_eq]
  refine ⟨fun hp hB => ?_, fun hp hB hfull => ?_, fun hp hB hroom => ?_, fun hp hB => ?_, fun hp hB hne => ?_,
    fun hp hB hz => ?_⟩
  · rw [execCvFlush_ok (flushGroup_padEmpty hp hB)]
    rfl
  · rw [execCvFlush_fail (flushGroup_padFull hp hB hfull)]
    rfl
  · exact ⟨_, execCvFlush_ok (flushGroup_padRoom hr hp hB hroom), rfl, flushed_lenOf hs hroom _, flushed_element s _⟩
  · rw [execCvFlush_fail (flushGroup_strictResidual hp hB)]
    rfl
  · rw [execCvFlush_fail (flushGroup_strictNonzero hr hp hB hne)]
    rfl
  · rw [execCvFlush_ok (flushGroup_strictZero hr hp hB hz)]
    rfl

/-- Settles O26: the same ways, with a free value of `TO` bits as the residual. -/
theorem cvFlushOfUnspecifiedBits : Obligations.CvFlushOfUnspecifiedBits := by
  unfold Obligations.CvFlushOfUnspecifiedBits
  rintro s F T B L hs rfl rfl rfl rfl hTB
  obtain ⟨r, d, hr, hlt, -⟩ := paddedResidual_spec s
  have hB : 0 < s.bits.toNat := Nat.zero_lt_of_lt hTB
  simp only [dstOf_eq]
  refine ⟨fun hp hfull => ?_, fun hp hroom => ?_, fun hp hF => ?_, fun hp hF => ⟨r, d, hlt, ?_⟩⟩
  · rw [execCvFlush_fail (flushGroup_padFull hp hB hfull)]
    rfl
  · exact ⟨_, r, d, hlt, execCvFlush_ok (flushGroup_padRoom hr hp hB hroom), rfl, flushed_lenOf hs hroom r,
      flushed_element s r⟩
  · rw [execCvFlush_fail (flushGroup_strictResidual hp hF)]
    rfl
  · split
    · rw [execCvFlush_ok (flushGroup_strictZero hr hp hF ‹_›)]
      rfl
    · rw [execCvFlush_fail (flushGroup_strictNonzero hr hp hF ‹_›)]
      rfl

/-! ### Counting bits over several pushes (R105, R106) -/

/-- `LEN[dst]` once `n` more values have been pushed. -/
def lenAfter (s : State) (n : Nat) : Nat :=
  s.lenOf (dstBuf s.cfg) + (s.bits.toNat + n * s.cfg.fromBits.toNat) / s.cfg.toBits.toNat

/-- `BITS` once `n` more values have been pushed. -/
def bitsAfter (s : State) (n : Nat) : Nat := (s.bits.toNat + n * s.cfg.fromBits.toNat) % s.cfg.toBits.toNat

theorem lenAfter_one (s : State) : lenAfter s 1 =
    s.lenOf (dstBuf s.cfg) + (s.bits.toNat + s.cfg.fromBits.toNat) / s.cfg.toBits.toNat := by
  rw [lenAfter, Nat.one_mul]

theorem lenAfter_mono (s : State) {m n : Nat} (h : m ≤ n) : lenAfter s m ≤ lenAfter s n :=
  Nat.add_le_add_left (Nat.div_le_div_right (Nat.add_le_add_left (Nat.mul_le_mul_right _ h) _)) _

theorem lenAfter_zero {s : State} (hb : s.bits.toNat < s.cfg.toBits.toNat) : lenAfter s 0 = s.lenOf (dstBuf s.cfg) := by
  simp [lenAfter, Nat.div_eq_of_lt hb]

theorem bitsAfter_zero {s : State} (hb : s.bits.toNat < s.cfg.toBits.toNat) : bitsAfter s 0 = s.bits.toNat := by
  simp [bitsAfter, Nat.mod_eq_of_lt hb]

section
variable {s : State} (hs : s.Inv) (v : Byte)
include hs

theorem pushed_bits_lt : (pushed s v).bits.toNat < (pushed s v).cfg.toBits.toNat := by
  rw [pushed_bits hs v]
  exact Nat.mod_lt _ hs.to_legal.1

theorem pushed_inv (hv : v.toNat < 2 ^ s.cfg.fromBits.toNat) (hroom : lenAfter s 1 ≤ s.config.cap) : (pushed s v).Inv :=
  pushGroup_inv hs (pushGroup_room hs.to_legal.1 hv (lenAfter_one s ▸ hroom))

theorem lenAfter_pushed (hroom : lenAfter s 1 ≤ s.config.cap) (n : Nat) :
    lenAfter (pushed s v) n = lenAfter s (n + 1) := by
  have hT : 0 < s.cfg.toBits.toNat := hs.to_legal.1
  have hlen := pushed_lenOf hs v (lenAfter_one s ▸ hroom) (dstBuf s.cfg)
  have hdiv := Nat.div_add_mod (s.bits.toNat + s.cfg.fromBits.toNat) s.cfg.toBits.toNat
  rw [if_pos rfl] at hlen
  rw [lenAfter, lenAfter, pushed_bits hs v, pushed_cfg, hlen, Nat.add_assoc, ← Nat.mul_add_div hT, ← Nat.add_assoc, hdiv,
    Nat.succ_mul]
  congr 2
  omega

theorem bitsAfter_pushed (n : Nat) : bitsAfter (pushed s v) n = bitsAfter s (n + 1) := by
  rw [bitsAfter, bitsAfter, pushed_bits hs v, pushed_cfg, Nat.mod_add_mod, Nat.succ_mul]
  congr 1
  omega

end

/-! ### Length laws (R105, R109) -/

theorem execAll_cons {i : Instr} {is : List Instr} {s t : State} (h : exec i s = .next t) :
    execAll (i :: is) s = execAll is t := by
  simp only [execAll, h]

/-- Pushes of values that fit, one command each: every bit goes into a group or stays in the accumulator. -/
theorem execAll_cvPush {xs : List Byte} {s : State} (hs : s.Inv) (hfits : Fits s.cfg.fromBits.toNat xs)
    (hb : s.bits.toNat < s.cfg.toBits.toNat) (hroom : lenAfter s xs.length ≤ s.config.cap) :
    ∃ t, execAll (xs.map .cvPush) s = .next t ∧ t.Inv ∧ t.cfg = s.cfg ∧
      t.lenOf (dstBuf s.cfg) = lenAfter s xs.length ∧ t.bits.toNat = bitsAfter s xs.length := by
  induction xs generalizing s with
  | nil => exact ⟨s, rfl, hs, rfl, (lenAfter_zero hb).symm, (bitsAfter_zero hb).symm⟩
  | cons x xs ih =>
    obtain ⟨hx, hxs⟩ := fits_cons.1 hfits
    have hone : lenAfter s 1 ≤ s.config.cap := (lenAfter_mono s (by simp)).trans hroom
    have hlen := lenAfter_pushed hs x hone xs.length
    rw [List.map_cons, execAll_cons (execCvPush_ok (pushGroup_room hs.to_legal.1 hx (lenAfter_one s ▸ hone))),
      List.length_cons, ← hlen, ← bitsAfter_pushed hs x]
    exact ih (respond_inv (pushed_inv hs x hx hone) _) hxs (pushed_bits_lt hs x) (hlen.trans_le hroom)

theorem not_succeeded_raise (s : State) (f : Failure) : ¬ Succeeded (s.raise f) := by
  rintro ⟨_, ⟨⟩, hE⟩
  exact absurd (hE.symm.trans (failureWordLayout f).1) (by decide)

/-- A flush that succeeds leaves no bit behind: with padding those left over make one more group. -/
theorem execCvFlush_lenOf {s u : State} (hs : s.Inv) (hb : s.bits.toNat < s.cfg.toBits.toNat)
    (hu : exec .cvFlush s = .next u) (hok : Succeeded u) :
    u.lenOf (dstBuf s.cfg) = if s.cfg.pad ∧ 0 < s.bits.toNat then s.lenOf (dstBuf s.cfg) + 1
      else s.lenOf (dstBuf s.cfg) := by
  have hr := paddedResidual_live hb.le
  have ends {t : State} {g : Nat} (e : flushGroup s = .ok t g) : u = t.respond (data30 g) :=
    (Host.Outcome.next.inj ((execCvFlush_ok e).symm.trans hu)).symm
  have fails {t : State} {f : Failure} (e : flushGroup s = .fail t f) : False := by
    obtain rfl := Host.Outcome.next.inj ((execCvFlush_fail e).symm.trans hu)
    exact not_succeeded_raise t f hok
  cases hp : s.cfg.pad with
  | true =>
    by_cases hB : 0 < s.bits.toNat
    · by_cases hroom : s.lenOf (dstBuf s.cfg) + 1 ≤ s.config.cap
      · obtain rfl := ends (flushGroup_padRoom hr hp hB hroom)
        rw [if_pos ⟨rfl, hB⟩]
        exact (flushed_lenOf hs hroom _ _).trans (if_pos rfl)
      · exact (fails (flushGroup_padFull hp hB (Nat.lt_of_not_le hroom))).elim
    · obtain rfl := ends (flushGroup_padEmpty hp (by omega))
      rw [if_neg (fun h => hB h.2)]
      rfl
  | false =>
    rw [if_neg (by simp)]
    by_cases hB : s.cfg.fromBits.toNat ≤ s.bits.toNat
    · exact (fails (flushGroup_strictResidual hp hB)).elim
    · by_cases hz : s.acc.toNat % 2 ^ s.bits.toNat * 2 ^ (s.cfg.toBits.toNat - s.bits.toNat) = 0
      · obtain rfl := ends (flushGroup_strictZero hr hp (by omega) hz)
        rfl
      · exact (fails (flushGroup_strictNonzero hr hp (by omega) hz)).elim

/-- Rounding up: one more than the quotient, unless nothing is left over. -/
theorem ceilDiv_eq {T : Nat} (hT : 1 ≤ T) (N : Nat) : (N + T - 1) / T = if 0 < N % T then N / T + 1 else N / T := by
  have hlt := Nat.mod_lt N hT
  have quotient {q r : Nat} (hr : r < T) : (T * q + r) / T = q := by
    rw [Nat.mul_add_div hT, Nat.div_eq_of_lt hr, Nat.add_zero]
  obtain ⟨q, r, hq, hr⟩ : ∃ q r, N / T = q ∧ N % T = r := ⟨_, _, rfl, rfl⟩
  obtain rfl : N = T * q + r := by rw [← hq, ← hr, Nat.div_add_mod]
  rw [hr] at hlt
  rw [hq, hr]
  split
  · rw [show T * q + r + T - 1 = T * (q + 1) + (r - 1) by rw [Nat.mul_succ]; omega, quotient (by omega)]
  · rw [show T * q + r + T - 1 = T * q + (T - 1) by omega, quotient (by omega)]

/-- From CV.INIT on, the pushes alone count. -/
theorem lenAfter_init (s : State) (n : Nat) :
    lenAfter s.initConverter n = n * s.cfg.fromBits.toNat / s.cfg.toBits.toNat := by
  have hlen : s.initConverter.lenOf (dstBuf s.cfg) = 0 := (initConverter_lenOf s _).trans (if_pos rfl)
  have hbits : s.initConverter.bits.toNat = 0 := rfl
  have hcfg : s.initConverter.cfg = s.cfg := rfl
  rw [lenAfter, hcfg, hlen, hbits, Nat.zero_add, Nat.zero_add]

theorem bitsAfter_init (s : State) (n : Nat) :
    bitsAfter s.initConverter n = n * s.cfg.fromBits.toNat % s.cfg.toBits.toNat := by
  have hbits : s.initConverter.bits.toNat = 0 := rfl
  have hcfg : s.initConverter.cfg = s.cfg := rfl
  rw [bitsAfter, hcfg, hbits, Nat.zero_add]

/-- Settles O30: CV.INIT leaves no bits and no groups, the pushes keep every bit, the flush rounds. -/
theorem conversionLengthLaws : Obligations.ConversionLengthLaws := by
  unfold Obligations.ConversionLengthLaws
  rintro s xs F T n hs rfl rfl rfl hfits hroom
  have hT := hs.to_legal.1
  obtain ⟨t, ht, htinv, hcfg, htlen, htbits⟩ := execAll_cvPush (respond_inv (initConverter_inv hs) 0#30) hfits hT
    ((lenAfter_init s _).trans_le hroom)
  replace hcfg : t.cfg = s.cfg := hcfg
  replace htlen := htlen.trans (lenAfter_init s _)
  replace htbits := htbits.trans (bitsAfter_init s _)
  refine ⟨t, (execAll_cons rfl).trans ht, htlen, htbits, fun u hu hok => ?_⟩
  have hb : t.bits.toNat < t.cfg.toBits.toNat := by rw [htbits, hcfg]; exact Nat.mod_lt _ hT
  have hulen := execCvFlush_lenOf htinv hb hu hok
  rw [hcfg, htbits] at hulen
  rw [dstOf_eq, hulen, ceilDiv_eq hT, ite_and]
  simp only [show t.lenOf (dstBuf s.cfg) = _ from htlen]

/-! ### Dead bits (R107) -/

/-- The live bits of an accumulator and a value shifted in below them do not depend on its dead bits. -/
theorem shiftedAcc_congr {s : State} (hs : s.Inv) {a : BitVec 16}
    (h : a.toNat % 2 ^ s.bits.toNat = s.acc.toNat % 2 ^ s.bits.toNat) {v : Byte} (hv : v.toNat < 2 ^ s.cfg.fromBits.toNat) :
    (shiftedAcc { s with acc := a } v).toNat % 2 ^ (s.bits.toNat + s.cfg.fromBits.toNat) =
      (shiftedAcc s v).toNat % 2 ^ (s.bits.toNat + s.cfg.fromBits.toNat) := by
  have hb := hs.bits_small
  have hF := hs.from_legal.2
  have hdvd : 2 ^ (s.bits.toNat + s.cfg.fromBits.toNat) ∣ 2 ^ 16 := Nat.pow_dvd_pow 2 (by omega)
  have hmod : a.toNat * 2 ^ s.cfg.fromBits.toNat + v.toNat ≡ s.acc.toNat * 2 ^ s.cfg.fromBits.toNat + v.toNat
      [MOD 2 ^ s.bits.toNat * 2 ^ s.cfg.fromBits.toNat] :=
    (Nat.ModEq.mul_right' _ h).add_right _
  rw [shiftedAcc_toNat (s := { s with acc := a }) hv, shiftedAcc_toNat hv, Nat.mod_mod_of_dvd _ hdvd,
    Nat.mod_mod_of_dvd _ hdvd, Nat.pow_add]
  exact hmod

/-- A push cuts its groups from the live bits and the value. -/
theorem pushed_deadBits {s : State} (hs : s.Inv) {a : BitVec 16}
    (h : a.toNat % 2 ^ s.bits.toNat = s.acc.toNat % 2 ^ s.bits.toNat) {v : Byte} (hv : v.toNat < 2 ^ s.cfg.fromBits.toNat) :
    pushed { s with acc := a } v = { pushed s v with acc := shiftedAcc { s with acc := a } v } := by
  simp only [pushed, groups_congr hs.to_legal.1 (shiftedAcc_congr hs h hv)]
  rfl

/-- A flush tests and emits the live bits; it succeeds in the same state, or fails without a change. -/
theorem flushGroup_deadBits {s : State} (hb : s.bits.toNat ≤ s.cfg.toBits.toNat) {a : BitVec 16}
    (h : a.toNat % 2 ^ s.bits.toNat = s.acc.toNat % 2 ^ s.bits.toNat) :
    (∃ t g, flushGroup s = .ok t g ∧ flushGroup { s with acc := a } = .ok t g) ∨
    (∃ f, flushGroup s = .fail s f ∧ flushGroup { s with acc := a } = .fail { s with acc := a } f) := by
  have hr := paddedResidual_live hb
  have hr' := paddedResidual_live (s := { s with acc := a }) hb
  have hlen (b : Buf) : ({ s with acc := a } : State).lenOf b = s.lenOf b := rfl
  simp only [h] at hr'
  simp only [flushGroup, hr, hr', hlen]
  split
  · split
    · split
      · exact .inr ⟨_, rfl, rfl⟩
      · exact .inl ⟨_, _, rfl, rfl⟩
    · exact .inl ⟨_, _, rfl, rfl⟩
  · split
    · exact .inr ⟨_, rfl, rfl⟩
    · split
      · exact .inr ⟨_, rfl, rfl⟩
      · exact .inl ⟨_, _, rfl, rfl⟩

/-- Settles O31: a failure leaves the accumulator, a flush clears it, and a push shifts a value in below the live bits. -/
theorem deadBitsDoNotMatter : Obligations.DeadBitsDoNotMatter := by
  unfold Obligations.DeadBitsDoNotMatter
  rintro s a i hs hb h (rfl | ⟨v, rfl⟩)
  · obtain ⟨t, g, e, e'⟩ | ⟨f, e, e'⟩ := flushGroup_deadBits hb h
    · exact ⟨_, _, execCvFlush_ok e, execCvFlush_ok e', rfl, rfl⟩
    · exact ⟨_, _, execCvFlush_fail e, execCvFlush_fail e', rfl, h⟩
  · by_cases hv : 2 ^ s.cfg.fromBits.toNat ≤ v.toNat
    · exact ⟨_, _, execCvPush_fail (pushGroup_misfit hv), execCvPush_fail (pushGroup_misfit (s := { s with acc := a }) hv),
        rfl, h⟩
    · replace hv := Nat.lt_of_not_le hv
      by_cases hfull : lenAfter s 1 > s.config.cap
      · rw [lenAfter_one] at hfull
        exact ⟨_, _, execCvPush_fail (pushGroup_full hv hfull),
          execCvPush_fail (pushGroup_full (s := { s with acc := a }) hv hfull), rfl, h⟩
      · have hroom := Nat.le_of_not_lt hfull
        rw [lenAfter_one] at hroom
        have hT := hs.to_legal.1
        have e := pushGroup_room (s := { s with acc := a }) hT hv hroom
        rw [pushed_deadBits hs h hv] at e
        refine ⟨_, _, execCvPush_ok (pushGroup_room hT hv hroom), execCvPush_ok e, rfl, ?_⟩
        refine mod_two_pow_of_le (shiftedAcc_congr hs h hv) ?_
        exact (pushed_bits hs v).trans_le (Nat.mod_le _ _)

end Sys2Proof.Proofs

/-!
PROOFS. CV.RUN (R110, R111): its pushes leave the groups that the source's values spell, cut as `convert` cuts them, and its
flush ends as `convert` does; where it fails, the error it reports.
-/

namespace Sys2Proof.Proofs

open Sys2Proof Sys2Proof.Machine Sys2Proof.Laws Sys2Proof.Claims

/-! ### CV.RUN's loop -/

theorem writeSeq_append (m : Memory) (i : Nat) (xs ys : List Byte) :
    (m.writeSeq i xs).writeSeq (i + xs.length) ys = m.writeSeq i (xs ++ ys) := by
  induction xs generalizing m i with
  | nil => rfl
  | cons x xs ih =>
    rw [List.length_cons, Nat.add_comm xs.length, ← Nat.add_assoc]
    exact ih (m.write i x) (i + 1)

theorem banks_set_set {α : Type} (x : Banks α) (b : Buf) (v w : α) : (x.set b v).set b w = x.set b w := by
  cases b <;> rfl

theorem banks_set_get {α : Type} (x : Banks α) (b : Buf) : x.set b (x.get b) = x := by
  cases b <;> rfl

/-- Appending twice. -/
theorem appended_appended {s : State} {gs : List Byte} (hlen : s.lenOf (dstBuf s.cfg) + gs.length < 2 ^ 14) (gs' : List Byte)
    (acc acc' : BitVec 16) (bits bits' : Nat) :
    appended (appended s gs acc bits) gs' acc' bits' = appended s (gs ++ gs') acc' bits' := by
  have hl : (appended s gs acc bits).lenOf (dstBuf s.cfg) = s.lenOf (dstBuf s.cfg) + gs.length :=
    (appended_lenOf hlen acc bits _).trans (if_pos rfl)
  rw [appended, appended_cfg, hl, appended, appended]
  simp only [State.writeSeq, State.setLen, banks_set_set, banks_get_set_self, writeSeq_append, List.length_append,
    Nat.add_assoc]

theorem appended_nil (s : State) : appended s [] s.acc s.bits.toNat = s := by
  simp [appended, State.writeSeq, State.setLen, Memory.writeSeq, State.lenOf, banks_set_get]

/-- The number in an accumulator without a width, once the values have been shifted in. -/
def accAfter (s : State) (xs : List Byte) : Nat :=
  s.acc.toNat * 2 ^ (s.cfg.fromBits.toNat * xs.length) + groupsValue s.cfg.fromBits.toNat xs

/-- What pushes of all the values leave, where there is room. -/
def pushedAll (s : State) (xs : List Byte) : State :=
  appended s (groups s.cfg.toBits.toNat (accAfter s xs) (s.bits.toNat + xs.length * s.cfg.fromBits.toNat))
    (BitVec.ofNat 16 (accAfter s xs)) (bitsAfter s xs.length)

@[simp] theorem pushedAll_cfg (s : State) (xs : List Byte) : (pushedAll s xs).cfg = s.cfg := rfl

theorem pushedAll_nil {s : State} (hb : s.bits.toNat < s.cfg.toBits.toNat) : pushedAll s [] = s := by
  have hacc : accAfter s [] = s.acc.toNat := by simp [accAfter, groupsValue]
  have hbits : s.bits.toNat + ([] : List Byte).length * s.cfg.fromBits.toNat = s.bits.toNat := by simp
  rw [pushedAll, hbits, groups_of_lt _ hb, hacc, BitVec.ofNat_toNat, BitVec.setWidth_eq]
  exact (congrArg (appended s [] s.acc) (bitsAfter_zero hb)).trans (appended_nil s)

/-- The 16-bit accumulator agrees with the unbounded one in its low 16 bits and in all that is shifted in below them. -/
theorem accAfter_pushed {s : State} {x : Byte} (hx : x.toNat < 2 ^ s.cfg.fromBits.toNat) (xs : List Byte) :
    accAfter (pushed s x) xs % 2 ^ (16 + s.cfg.fromBits.toNat * xs.length) =
      accAfter s (x :: xs) % 2 ^ (16 + s.cfg.fromBits.toNat * xs.length) := by
  have hmod : (s.acc.toNat * 2 ^ s.cfg.fromBits.toNat + x.toNat) % 2 ^ 16 ≡
      s.acc.toNat * 2 ^ s.cfg.fromBits.toNat + x.toNat [MOD 2 ^ 16] := Nat.mod_modEq _ _
  rw [accAfter, pushed_acc, pushed_cfg, shiftedAcc_toNat hx, accAfter, ← shiftIn_add, Nat.pow_add]
  exact (hmod.mul_right' _).add_right _

/-- The first push and then the others are all the pushes. -/
theorem pushedAll_cons {s : State} (hs : s.Inv) {x : Byte} (hx : x.toNat < 2 ^ s.cfg.fromBits.toNat) {xs : List Byte}
    (hxs : Fits s.cfg.fromBits.toNat xs) (hroom : lenAfter s 1 ≤ s.config.cap) :
    pushedAll (pushed s x) xs = pushedAll s (x :: xs) := by
  have hT := hs.to_legal.1
  have hT8 := hs.to_legal.2
  have hF8 := hs.from_legal.2
  have hb := hs.bits_small
  have hcap := hs.cap_legal.2
  have hlt := Nat.mod_lt (s.bits.toNat + s.cfg.fromBits.toNat) hT
  have hmod := accAfter_pushed hx xs
  have hacc : BitVec.ofNat 16 (accAfter (pushed s x) xs) = BitVec.ofNat 16 (accAfter s (x :: xs)) :=
    BitVec.eq_of_toNat_eq (mod_two_pow_of_le hmod (Nat.le_add_right _ _))
  have htop : groups s.cfg.toBits.toNat (shiftedAcc s x).toNat (s.bits.toNat + s.cfg.fromBits.toNat) =
      groups s.cfg.toBits.toNat (accAfter s (x :: xs) / 2 ^ (s.cfg.fromBits.toNat * xs.length))
        (s.bits.toNat + s.cfg.fromBits.toNat) := by
    rw [shiftedAcc_toNat hx, accAfter, ← shiftIn_add, shifted_div hxs]
    exact groups_congr hT (Nat.mod_mod_of_dvd _ (Nat.pow_dvd_pow 2 (by omega)))
  have hlow : groups s.cfg.toBits.toNat (accAfter (pushed s x) xs)
        ((s.bits.toNat + s.cfg.fromBits.toNat) % s.cfg.toBits.toNat + s.cfg.fromBits.toNat * xs.length) =
      groups s.cfg.toBits.toNat (accAfter s (x :: xs))
        ((s.bits.toNat + s.cfg.fromBits.toNat) % s.cfg.toBits.toNat + s.cfg.fromBits.toNat * xs.length) :=
    groups_congr hT (mod_two_pow_of_le hmod (by omega))
  have hsum : s.bits.toNat + (x :: xs).length * s.cfg.fromBits.toNat =
      s.bits.toNat + s.cfg.fromBits.toNat + s.cfg.fromBits.toNat * xs.length := by
    rw [List.length_cons, Nat.succ_mul, Nat.mul_comm]; omega
  rw [lenAfter_one] at hroom
  rw [pushedAll, pushed_cfg, pushed_bits hs, bitsAfter_pushed hs, hacc, Nat.mul_comm, hlow, pushed,
    appended_appended (by rw [groups_length hT]; omega), htop, ← groups_append hT, pushedAll, hsum, List.length_cons]

theorem pushAll_cons_ok {s t : State} {x : Byte} {g : Nat} (h : pushGroup s x = .ok t g) (xs : List Byte) (k : Nat) :
    pushAll (x :: xs) k s = pushAll xs (k + 1) t := by
  simp only [pushAll, h]

section
variable {s : State} {pre : List Byte}

/-- The loop over values that fit and whose groups find room. -/
theorem pushAll_room (hs : s.Inv) (hfits : Fits s.cfg.fromBits.toNat pre) (hb : s.bits.toNat < s.cfg.toBits.toNat)
    (hroom : lenAfter s pre.length ≤ s.config.cap) (post : List Byte) (k : Nat) :
    pushAll (pre ++ post) k s = pushAll post (k + pre.length) (pushedAll s pre) := by
  induction pre generalizing s k with
  | nil => rw [pushedAll_nil hb]; rfl
  | cons x pre ih =>
    obtain ⟨hx, hpre⟩ := fits_cons.1 hfits
    have hone : lenAfter s 1 ≤ s.config.cap := (lenAfter_mono s (by simp)).trans hroom
    rw [List.cons_append, pushAll_cons_ok (pushGroup_room hs.to_legal.1 hx (lenAfter_one s ▸ hone)),
      ih (pushed_inv hs x hx hone) hpre (pushed_bits_lt hs x) ((lenAfter_pushed hs x hone _).trans_le hroom),
      pushedAll_cons hs hx hpre hone, List.length_cons, Nat.add_right_comm, Nat.add_assoc]

/-- The loop over values that fit and whose groups do not find room. -/
theorem pushAll_full (hs : s.Inv) (hfits : Fits s.cfg.fromBits.toNat pre) (hb : s.bits.toNat < s.cfg.toBits.toNat)
    (hfull : s.config.cap < lenAfter s pre.length) (post : List Byte) (k : Nat) :
    ∃ t, pushAll (pre ++ post) k s = .fail t ⟨.capacity, 0#14, 0#8⟩ := by
  induction pre generalizing s k with
  | nil => exact absurd ((lenAfter_zero hb).trans_le (hs.len_legal _)) (Nat.not_le_of_lt hfull)
  | cons x pre ih =>
    obtain ⟨hx, hpre⟩ := fits_cons.1 hfits
    by_cases hone : lenAfter s 1 ≤ s.config.cap
    · rw [List.cons_append, pushAll_cons_ok (pushGroup_room hs.to_legal.1 hx (lenAfter_one s ▸ hone))]
      exact ih (pushed_inv hs x hx hone) hpre (pushed_bits_lt hs x) (hfull.trans_eq (lenAfter_pushed hs x hone _).symm) _
    · have e := pushGroup_full hx (lenAfter_one s ▸ Nat.lt_of_not_le hone)
      exact ⟨s, by simp [pushAll, e]⟩

/-- The loop at a value that does not fit. -/
theorem pushAll_misfit {v : Byte} (hv : 2 ^ s.cfg.fromBits.toNat ≤ v.toNat) (post : List Byte) (k : Nat) :
    pushAll (v :: post) k s = .fail s ⟨.outOfRange, BitVec.ofNat 14 k, v⟩ := by
  simp [pushAll, pushGroup_misfit hv]

end

/-! ### How CV.RUN ends -/

/-- The state in which CV.RUN's loop begins: CV.INIT's, after `d` draws of free values in all. -/
def started (s : State) (d : Nat) : State := ({ s with draws := d } : State).initConverter

/-- CV.RUN fails and reports `f`. -/
def RunFails (s : State) (f : Failure) : Prop := Leaves (fun t => t.resp = some (failureWord f)) (exec .cvRun s)

section
variable {s : State} {xs : List Byte} {d : Nat} (hread : s.readBuf (srcBuf s.cfg) = (xs, { s with draws := d }))
include hread

theorem runFails_of_push {t : State} {f : Failure} (h : pushAll xs 0 (started s d) = .fail t f) : RunFails s f := by
  have e : exec .cvRun s = .next (t.runFailed.raise f) := by
    rw [started] at h
    simp only [exec, execCvRun, hread, h]
  rw [RunFails, e]
  exact .next rfl

theorem runFails_of_flush {t u : State} {f : Failure} (h : pushAll xs 0 (started s d) = .ok t ())
    (h' : flushGroup t = .fail u f) : RunFails s f := by
  have e : exec .cvRun s = .next (u.runFailed.raise f) := by
    rw [started] at h
    simp only [exec, execCvRun, hread, h, h']
  rw [RunFails, e]
  exact .next rfl

theorem execCvRun_ok {t u : State} {g : Nat} (h : pushAll xs 0 (started s d) = .ok t ()) (h' : flushGroup t = .ok u g) :
    exec .cvRun s = .next (u.respond (data30 (u.lenOf (dstBuf u.cfg)))) := by
  rw [started] at h
  simp only [exec, execCvRun, hread, h, h', data30, State.lenOf, BitVec.ofNat_toNat, zext30]

end

section
variable {s : State} (hs : s.Inv) (d : Nat)

@[simp] theorem started_cfg (s : State) (d : Nat) : (started s d).cfg = s.cfg := rfl

theorem started_lenOf (s : State) (d : Nat) : (started s d).lenOf (dstBuf s.cfg) = 0 :=
  (initConverter_lenOf _ _).trans (if_pos rfl)

theorem lenAfter_started (s : State) (d n : Nat) :
    lenAfter (started s d) n = n * s.cfg.fromBits.toNat / s.cfg.toBits.toNat :=
  lenAfter_init { s with draws := d } n

/-- After the loop the destination holds the groups of the number that the values spell. -/
theorem pushedAll_started (s : State) (d : Nat) (xs : List Byte) :
    pushedAll (started s d) xs =
      appended (started s d) (wholeGroups s.cfg.fromBits.toNat s.cfg.toBits.toNat xs)
        (BitVec.ofNat 16 (groupsValue s.cfg.fromBits.toNat xs)) (xs.length * s.cfg.fromBits.toNat % s.cfg.toBits.toNat) := by
  have hacc : accAfter (started s d) xs = groupsValue s.cfg.fromBits.toNat xs := by
    simp [accAfter, started, State.initConverter]
  have hbits : (started s d).bits.toNat = 0 := rfl
  rw [pushedAll, hacc, hbits, started_cfg, Nat.zero_add]
  exact congrArg _ (bitsAfter_init { s with draws := d } xs.length)

include hs

theorem started_inv : (started s d).Inv := initConverter_inv (inv_congr hs rfl rfl rfl rfl rfl)

/-- What a run of CV.RUN leaves: `gs` is all that the destination holds. -/
theorem started_appended_lenOf {gs : List Byte} (hroom : gs.length ≤ s.config.cap) (acc : BitVec 16) (bits : Nat)
    (b : Buf) :
    (appended (started s d) gs acc bits).lenOf b = if b = dstBuf s.cfg then gs.length else s.lenOf b := by
  have hcap := hs.cap_legal.2
  rw [appended_lenOf (by rw [started_cfg, started_lenOf]; omega), started_cfg, started_lenOf, Nat.zero_add]
  refine ite_congr rfl (fun _ => rfl) fun hb => ?_
  exact (initConverter_lenOf _ _).trans (if_neg hb)

omit hs in
theorem started_appended_element (gs : List Byte) (acc : BitVec 16) (bits : Nat) (b : Buf) (k : Nat) :
    (appended (started s d) gs acc bits).element b k =
      if b = dstBuf s.cfg ∧ k < gs.length then gs[k]? else s.element b k := by
  rw [appended_element, started_cfg, started_lenOf]
  simp only [Nat.zero_le, true_and, Nat.zero_add, Nat.sub_zero]
  rfl

end

section
variable {s : State} (hs : s.Inv) {xs : List Byte} {d : Nat}
  (hread : s.readBuf (srcBuf s.cfg) = (xs, { s with draws := d }))
include hs hread

/-- The groups of the first values, which fit, do not find room. -/
theorem runFails_noRoom {pre post : List Byte} (hxs : xs = pre ++ post) (hfits : Fits s.cfg.fromBits.toNat pre)
    (hfull : s.config.cap < pre.length * s.cfg.fromBits.toNat / s.cfg.toBits.toNat) :
    RunFails s ⟨.capacity, 0#14, 0#8⟩ := by
  subst hxs
  obtain ⟨t, e⟩ :=
    pushAll_full (started_inv hs d) hfits hs.to_legal.1 (hfull.trans_eq (lenAfter_started s d _).symm) post 0
  exact runFails_of_push hread e

/-- The groups of the first values find room, and the next value does not fit. -/
theorem runFails_misfit {pre post : List Byte} {v : Byte} (hxs : xs = pre ++ v :: post)
    (hfits : Fits s.cfg.fromBits.toNat pre) (hv : 2 ^ s.cfg.fromBits.toNat ≤ v.toNat)
    (hroom : pre.length * s.cfg.fromBits.toNat / s.cfg.toBits.toNat ≤ s.config.cap) :
    RunFails s ⟨.outOfRange, BitVec.ofNat 14 pre.length, v⟩ := by
  subst hxs
  have e := pushAll_room (started_inv hs d) hfits hs.to_legal.1 ((lenAfter_started s d _).trans_le hroom) (v :: post) 0
  rw [Nat.zero_add, pushAll_misfit (s := pushedAll (started s d) pre) hv] at e
  exact runFails_of_push hread e

end

section
variable {s : State} (hs : s.Inv) (d : Nat) {xs : List Byte}
  (hroom : xs.length * s.cfg.fromBits.toNat / s.cfg.toBits.toNat ≤ s.config.cap)
include hs

theorem pushedAll_started_bits : (pushedAll (started s d) xs).bits.toNat =
    xs.length * s.cfg.fromBits.toNat % s.cfg.toBits.toNat := by
  have hT8 := hs.to_legal.2
  have hlt := Nat.mod_lt (xs.length * s.cfg.fromBits.toNat) hs.to_legal.1
  rw [pushedAll_started, appended_bits, BitVec.toNat_ofNat, Nat.mod_eq_of_lt (by omega)]

include hroom in
theorem pushedAll_started_lenOf : (pushedAll (started s d) xs).lenOf (dstBuf s.cfg) =
    xs.length * s.cfg.fromBits.toNat / s.cfg.toBits.toNat := by
  rw [pushedAll_started, started_appended_lenOf hs d (by rwa [wholeGroups_length hs.to_legal.1]), if_pos rfl,
    wholeGroups_length hs.to_legal.1]

/-- The flush that follows the loop sees the residual that `convert` sees: 16 bits of accumulator hold all live bits. -/
theorem pushedAll_started_residual : paddedResidual (pushedAll (started s d) xs) =
    (leftOver s.cfg.fromBits.toNat s.cfg.toBits.toNat xs, { pushedAll (started s d) xs with draws := d }) := by
  have hT8 := hs.to_legal.2
  have hlt := Nat.mod_lt (xs.length * s.cfg.fromBits.toNat) hs.to_legal.1
  have hbits := pushedAll_started_bits hs d (xs := xs)
  have hacc : (pushedAll (started s d) xs).acc.toNat = groupsValue s.cfg.fromBits.toNat xs % 2 ^ 16 := by
    rw [pushedAll_started, appended_acc, BitVec.toNat_ofNat]
  have hlive := paddedResidual_live (s := pushedAll (started s d) xs) (by rw [hbits]; exact hlt.le)
  rw [hacc, hbits, pushedAll_cfg, started_cfg, Nat.mod_mod_of_dvd _ (Nat.pow_dvd_pow 2 (by omega)),
    ← paddedGroup_eq hlt.le] at hlive
  exact hlive

end

/-- `convert` of a source, as CFG has it. -/
abbrev converted (s : State) (xs : List Byte) : Except ConvError (List Byte) :=
  convert s.cfg.fromBits.toNat s.cfg.toBits.toNat s.cfg.pad xs

/-- How a run whose pushes all succeed ends, beside how `convert` of the source `xs` ends. -/
inductive RunEnds (s : State) (d : Nat) (xs : List Byte) : Prop
  | delivers {out : List Byte} (hconv : converted s xs = .ok out) (hout : out.length ≤ s.config.cap)
      (e : exec .cvRun s = .next ((appended (started s d) out 0#16 0).respond (data30 out.length)))
  | noRoom {out : List Byte} (hconv : converted s xs = .ok out) (hout : s.config.cap < out.length)
      (hfail : RunFails s ⟨.capacity, 0#14, 0#8⟩)
  | residual {m : Nat} (hconv : converted s xs = .error (.residual m)) (hfail : RunFails s (failureAt .residual 0 m))
  | nonzeroPad {r : Nat} (hconv : converted s xs = .error (.nonzeroPad r)) (hfail : RunFails s (failureAt .nonzeroPad 0 r))

theorem pushedAll_started_clear (s : State) (d : Nat) (xs : List Byte) : (pushedAll (started s d) xs).clearConverter =
    appended (started s d) (wholeGroups s.cfg.fromBits.toNat s.cfg.toBits.toNat xs) 0#16 0 := by
  rw [pushedAll_started]
  rfl

/-- The flush's group joins those of the pushes. -/
theorem flushed_pushedAll_started {s : State} (hs : s.Inv) (d : Nat) {xs : List Byte}
    (hroom : xs.length * s.cfg.fromBits.toNat / s.cfg.toBits.toNat ≤ s.config.cap) (r : Nat) :
    flushed { pushedAll (started s d) xs with draws := d } r = appended (started s d)
      (wholeGroups s.cfg.fromBits.toNat s.cfg.toBits.toNat xs ++ [BitVec.ofNat 8 r]) 0#16 0 := by
  have hcap := hs.cap_legal.2
  rw [← appended_appended (by rw [started_cfg, started_lenOf, wholeGroups_length hs.to_legal.1]; omega),
    ← pushedAll_started]
  rfl

section
variable {s : State} (hs : s.Inv) {xs : List Byte} {d : Nat}
  (hread : s.readBuf (srcBuf s.cfg) = (xs, { s with draws := d })) (hfits : Fits s.cfg.fromBits.toNat xs)
  (hroom : xs.length * s.cfg.fromBits.toNat / s.cfg.toBits.toNat ≤ s.config.cap)
include hs hfits hroom

theorem pushAll_started : pushAll xs 0 (started s d) = .ok (pushedAll (started s d) xs) () := by
  have e := pushAll_room (started_inv hs d) hfits hs.to_legal.1 ((lenAfter_started s d _).trans_le hroom) [] 0
  rwa [List.append_nil] at e

include hread

/-- A run that succeeds answers how much it delivers. -/
theorem execCvRun_delivers {out : List Byte} {g : Nat} (hout : out.length ≤ s.config.cap)
    (e : flushGroup (pushedAll (started s d) xs) = .ok (appended (started s d) out 0#16 0) g) :
    exec .cvRun s = .next ((appended (started s d) out 0#16 0).respond (data30 out.length)) := by
  have hlen := started_appended_lenOf hs d hout 0#16 0 (dstBuf s.cfg)
  rw [execCvRun_ok hread (pushAll_started hs hfits hroom) e, appended_cfg, started_cfg, hlen, if_pos rfl]

/-- With padding: room for the left-over bits' group, no room for it, or no bits left over. -/
theorem runEnds_padded (hp : s.cfg.pad = true) : RunEnds s d xs := by
  have hT := hs.to_legal.1
  have hbits := pushedAll_started_bits hs d (xs := xs)
  have hlen := pushedAll_started_lenOf hs d hroom
  have hwhole := wholeGroups_length (F := s.cfg.fromBits.toNat) (xs := xs) hT
  by_cases hr : xs.length * s.cfg.fromBits.toNat % s.cfg.toBits.toNat > 0
  · have hconv : converted s xs = _ := hp ▸ convert_padded_left hT hfits hr
    by_cases hone : xs.length * s.cfg.fromBits.toNat / s.cfg.toBits.toNat + 1 ≤ s.config.cap
    · have hout : (wholeGroups s.cfg.fromBits.toNat s.cfg.toBits.toNat xs ++
          [BitVec.ofNat 8 (leftOver s.cfg.fromBits.toNat s.cfg.toBits.toNat xs)]).length ≤ s.config.cap := by
        simpa [hwhole] using hone
      have e := (flushGroup_padRoom (pushedAll_started_residual hs d) hp (hbits ▸ hr) (hlen ▸ hone)).trans
        (congrArg (Res.ok · 1) (flushed_pushedAll_started hs d hroom _))
      exact .delivers hconv hout (execCvRun_delivers hs hread hfits hroom hout e)
    · exact .noRoom hconv (by simp [hwhole]; omega) (runFails_of_flush hread (pushAll_started hs hfits hroom)
        (flushGroup_padFull hp (hbits ▸ hr) (hlen ▸ Nat.lt_of_not_le hone)))
  · have h0 : xs.length * s.cfg.fromBits.toNat % s.cfg.toBits.toNat = 0 := by omega
    have hconv : converted s xs = _ := hp ▸ convert_padded_whole hT hfits h0
    have e := flushGroup_padEmpty (s := pushedAll (started s d) xs) hp (hbits.trans h0)
    rw [pushedAll_started_clear] at e
    exact .delivers hconv (hwhole.trans_le hroom) (execCvRun_delivers hs hread hfits hroom (hwhole.trans_le hroom) e)

/-- In strict mode: too many bits left over, all zero, or not all zero. -/
theorem runEnds_strict (hp : s.cfg.pad = false) : RunEnds s d xs := by
  have hT := hs.to_legal.1
  have hbits := pushedAll_started_bits hs d (xs := xs)
  have hpush := pushAll_started (d := d) hs hfits hroom
  have hres := pushedAll_started_residual hs d (xs := xs)
  have hwhole := wholeGroups_length (F := s.cfg.fromBits.toNat) (xs := xs) hT
  by_cases hr : s.cfg.fromBits.toNat ≤ xs.length * s.cfg.fromBits.toNat % s.cfg.toBits.toNat
  · have hconv : converted s xs = _ := hp ▸ convert_strict_residual hT hfits hr
    have e := flushGroup_strictResidual (s := pushedAll (started s d) xs) hp (hbits ▸ hr)
    rw [hbits] at e
    exact .residual hconv (runFails_of_flush hread hpush e)
  · have hB : (pushedAll (started s d) xs).bits.toNat < (pushedAll (started s d) xs).cfg.fromBits.toNat :=
      hbits.trans_lt (Nat.lt_of_not_le hr)
    by_cases hz : leftOver s.cfg.fromBits.toNat s.cfg.toBits.toNat xs = 0
    · have hconv : converted s xs = _ := hp ▸ convert_strict_zero hT hfits (Nat.lt_of_not_le hr) hz
      have e := (flushGroup_strictZero hres hp hB hz).trans
        (congrArg (Res.ok · 0) (pushedAll_started_clear s d xs))
      exact .delivers hconv (hwhole.trans_le hroom) (execCvRun_delivers hs hread hfits hroom (hwhole.trans_le hroom) e)
    · have hconv : converted s xs = _ := hp ▸ convert_strict_nonzero hT hfits (Nat.lt_of_not_le hr) hz
      exact .nonzeroPad hconv (runFails_of_flush hread hpush (flushGroup_strictNonzero hres hp hB hz))

/-- All values fit and their groups find room: the flush ends as `convert` does, or has no room for its group. -/
theorem runEnds : RunEnds s d xs := by
  cases hp : s.cfg.pad with
  | true => exact runEnds_padded hs hread hfits hroom hp
  | false => exact runEnds_strict hs hread hfits hroom hp

end

/-! ### CV.RUN and `convert` (R110, R111) -/

/-- `convert` finds no misfit only where there is none. -/
theorem fits_of_converted {s : State} {xs : List Byte} (h : ∀ k v, converted s xs ≠ .error (.outOfRange k v)) :
    Fits s.cfg.fromBits.toNat xs := by
  obtain hfits | ⟨pre, v, post, rfl, hpre, hv⟩ := fits_or_misfit s.cfg.fromBits.toNat xs
  · exact hfits
  · exact absurd (convert_misfit hpre hv post s.cfg.pad) (h _ _)

theorem wholeGroups_le_of_convert {F T : Nat} (hT : 1 ≤ T) {pad : Bool} {xs out : List Byte}
    (h : convert F T pad xs = .ok out) : xs.length * F / T ≤ out.length := by
  rw [convert_length hT h, Nat.mul_comm]
  split
  · exact Nat.div_le_div_right (Nat.le_add_right _ _)
  · exact Nat.le_refl _

section
variable {s : State} (hs : s.Inv) {xs : List Byte} {d : Nat}
  (hread : s.readBuf (srcBuf s.cfg) = (xs, { s with draws := d }))
include hs hread

theorem execCvRun_of_ok {out : List Byte} (e : converted s xs = .ok out) (hout : out.length ≤ s.config.cap) :
    exec .cvRun s = .next ((appended (started s d) out 0#16 0).respond (data30 out.length)) := by
  have hfits := fits_of_converted (s := s) (xs := xs) (by simp [e])
  cases runEnds hs hread hfits ((wholeGroups_le_of_convert hs.to_legal.1 e).trans hout) with
  | delivers hconv _ hnext => rwa [Except.ok.inj (e.symm.trans hconv)]
  | noRoom hconv hlong _ =>
    obtain rfl := Except.ok.inj (e.symm.trans hconv)
    exact absurd hout (Nat.not_le_of_lt hlong)
  | residual hconv _ | nonzeroPad hconv _ => cases e.symm.trans hconv

theorem runFails_of_ok {out : List Byte} (e : converted s xs = .ok out) (hout : s.config.cap < out.length) :
    RunFails s ⟨.capacity, 0#14, 0#8⟩ := by
  have hfits := fits_of_converted (s := s) (xs := xs) (by simp [e])
  by_cases hroom : xs.length * s.cfg.fromBits.toNat / s.cfg.toBits.toNat ≤ s.config.cap
  · cases runEnds hs hread hfits hroom with
    | delivers hconv hshort _ =>
      obtain rfl := Except.ok.inj (e.symm.trans hconv)
      exact absurd hshort (Nat.not_le_of_lt hout)
    | noRoom _ _ hfail => exact hfail
    | residual hconv _ | nonzeroPad hconv _ => cases e.symm.trans hconv
  · exact runFails_noRoom hs hread (List.append_nil xs).symm hfits (Nat.lt_of_not_le hroom)

/-- A value that does not fit, or the groups before it that do not. -/
theorem runFails_of_misfit {pre post : List Byte} {v : Byte} (hxs : xs = pre ++ v :: post)
    (hpre : Fits s.cfg.fromBits.toNat pre) (hv : 2 ^ s.cfg.fromBits.toNat ≤ v.toNat) : ∃ f, RunFails s f := by
  by_cases hroom : pre.length * s.cfg.fromBits.toNat / s.cfg.toBits.toNat ≤ s.config.cap
  · exact ⟨_, runFails_misfit hs hread hxs hpre hv hroom⟩
  · exact ⟨_, runFails_noRoom hs hread hxs hpre (Nat.lt_of_not_le hroom)⟩

theorem runFails_of_error {err : ConvError} (e : converted s xs = .error err) : ∃ f, RunFails s f := by
  obtain hfits | ⟨pre, v, post, hxs, hpre, hv⟩ := fits_or_misfit s.cfg.fromBits.toNat xs
  · by_cases hroom : xs.length * s.cfg.fromBits.toNat / s.cfg.toBits.toNat ≤ s.config.cap
    · cases runEnds hs hread hfits hroom with
      | delivers hconv _ _ => cases e.symm.trans hconv
      | noRoom _ _ hfail => exact ⟨_, hfail⟩
      | residual _ hfail => exact ⟨_, hfail⟩
      | nonzeroPad _ hfail => exact ⟨_, hfail⟩
    · exact ⟨_, runFails_noRoom hs hread (List.append_nil xs).symm hfits (Nat.lt_of_not_le hroom)⟩
  · exact runFails_of_misfit hs hread hxs hpre hv

variable (hroom : xs.length * s.cfg.fromBits.toNat / s.cfg.toBits.toNat ≤ s.config.cap)
include hroom

theorem runFails_of_residual {m : Nat} (e : converted s xs = .error (.residual m)) :
    RunFails s (failureAt .residual 0 m) := by
  have hfits := fits_of_converted (s := s) (xs := xs) (by simp [e])
  cases runEnds hs hread hfits hroom with
  | residual hconv hfail =>
    cases e.symm.trans hconv
    exact hfail
  | delivers hconv _ _ | noRoom hconv _ _ | nonzeroPad hconv _ => cases e.symm.trans hconv

theorem runFails_of_nonzeroPad {r : Nat} (e : converted s xs = .error (.nonzeroPad r)) :
    RunFails s (failureAt .nonzeroPad 0 r) := by
  have hfits := fits_of_converted (s := s) (xs := xs) (by simp [e])
  cases runEnds hs hread hfits hroom with
  | nonzeroPad hconv hfail =>
    cases e.symm.trans hconv
    exact hfail
  | delivers hconv _ _ | noRoom hconv _ _ | residual hconv _ => cases e.symm.trans hconv

end

/-- Settles O28: a result of `convert` that fits is delivered, one that does not fails for lack of room, and an error of
`convert` fails the run. -/
theorem cvRunComputesConvert : Obligations.CvRunComputesConvert := by
  unfold Obligations.CvRunComputesConvert
  refine ⟨decodesAs_row (k := 9) rfl, fun s hs => ?_⟩
  obtain ⟨xs, d, hread, hreads⟩ := readBuf_spec s (srcBuf s.cfg)
  obtain ⟨t, ht⟩ := (exec_answered .cvRun s).next
  refine ⟨xs, t, hreads, ht, fun out e hout => ?_, fun out e hout => ?_, fun err e => ?_⟩
  · obtain rfl := Host.Outcome.next.inj ((execCvRun_of_ok hs hread e hout).symm.trans ht)
    exact ⟨rfl, started_appended_lenOf hs d hout 0#16 0, started_appended_element d out 0#16 0⟩
  · exact runFails_of_ok hs hread e hout t ht
  · obtain ⟨f, hfail⟩ := runFails_of_error hs hread e
    exact ⟨_, hfail t ht, (failureWordLayout f).1⟩

/-- Settles O29: the run stops at the first group that finds no room or the first value that does not fit; past both,
`convert` tells how it ends. -/
theorem cvRunReportsConvertErrors : Obligations.CvRunReportsConvertErrors := by
  unfold Obligations.CvRunReportsConvertErrors
  rintro s xs F T n hs hholds rfl rfl rfl
  have hread : s.readBuf (srcBuf s.cfg) = (xs, { s with draws := s.draws }) := readBuf_holds hholds
  have hT := hs.to_legal.1
  obtain ⟨t, ht⟩ := (exec_answered .cvRun s).next
  refine ⟨t, ht, fun k v hbad hfull => ?_, fun k v hbad hroom => ?_, fun hfits hfull => ?_, fun hfits hp hfull => ?_,
    fun m e hroom => runFails_of_residual hs hread hroom e t ht,
    fun r e hroom => runFails_of_nonzeroPad hs hread hroom e t ht⟩
  · obtain ⟨pre, post, hxs, rfl, -, hpre⟩ := lowestBad_split hbad
    exact runFails_noRoom hs hread hxs (fun x hx => Nat.lt_of_not_le (hpre x hx)) hfull t ht
  · obtain ⟨pre, post, hxs, rfl, hv, hpre⟩ := lowestBad_split hbad
    exact runFails_misfit hs hread hxs (fun x hx => Nat.lt_of_not_le (hpre x hx)) hv hroom t ht
  · exact runFails_noRoom hs hread (List.append_nil xs).symm hfits hfull t ht
  · obtain ⟨out, e, -, -⟩ := convert_padded_value hT hfits hs.to_legal.2
    have hlen := convert_length hT e
    rw [if_pos rfl, Nat.mul_comm, ← Nat.add_sub_assoc hT] at hlen
    rw [← hp] at e
    exact runFails_of_ok hs hread e (hlen ▸ hfull) t ht

end Sys2Proof.Proofs

/-!
PROOFS. The polymod step and its iteration (R131, R133): in closed form, linear over XOR, injective in `CHK` and in the
symbol; what the six checksum symbols feed (R140) and what one changed symbol does (R141).
-/

namespace Sys2Proof.Proofs

open Sys2Proof Sys2Proof.Machine Sys2Proof.Laws Sys2Proof.Claims

/-! ### The step in closed form (R131, R133) -/

theorem xor_ite (t : Bool) (c g : BitVec 30) : (if t then c ^^^ g else c) = c ^^^ (if t then g else 0#30) := by
  cases t <;> simp

theorem ite_xor (t u : Bool) (g : BitVec 30) :
    (if t ^^ u then g else 0#30) = (if t then g else 0#30) ^^^ (if u then g else 0#30) := by
  cases t <;> cases u <;> simp

/-- The XOR of the generators that the top 5 bits of `CHK` apply (R32, R131). -/
def generatorSum (top : BitVec 5) : BitVec 30 :=
  (if top.getLsbD 0 then 0x3b6a57b2#30 else 0#30) ^^^ (if top.getLsbD 1 then 0x26508e6d#30 else 0#30) ^^^
  (if top.getLsbD 2 then 0x1ea119fa#30 else 0#30) ^^^ (if top.getLsbD 3 then 0x3d4233dd#30 else 0#30) ^^^
  (if top.getLsbD 4 then 0x2a1462b3#30 else 0#30)

theorem generatorSum_zero : generatorSum 0#5 = 0#30 := rfl

theorem generatorSum_xor (t u : BitVec 5) : generatorSum (t ^^^ u) = generatorSum t ^^^ generatorSum u := by
  simp only [generatorSum, BitVec.getLsbD_xor, ite_xor]
  ac_rfl

/-- The low 5 bits of the five generators are linearly independent. -/
theorem eq_zero_of_generatorSum_low : ∀ top : BitVec 5, (generatorSum top).setWidth 5 = 0#5 → top = 0#5 := by decide

/-- The low 25 bits of `CHK` moved up, the symbol below them. -/
def shiftedChk (c : BitVec 30) (b : BitVec 5) : BitVec 30 := c.extractLsb' 0 25 ++ b

theorem shiftedChk_toNat (c : BitVec 30) (b : BitVec 5) : (shiftedChk c b).toNat = c.toNat % 2 ^ 25 * 32 + b.toNat := by
  rw [shiftedChk, BitVec.toNat_append, Nat.shiftLeft_eq, or_eq_add 5 b.isLt (Nat.dvd_mul_left _ _),
    BitVec.extractLsb'_toNat, Nat.shiftRight_zero, show 2 ^ 5 = 32 from rfl]

/-- The mask keeps the low 25 bits, so the shifted value and the symbol share no bit. -/
theorem shiftedChk_eq (c : BitVec 30) (b : BitVec 5) :
    (c &&& 0x1FFFFFF#30) <<< 5 ^^^ b.setWidth 30 = shiftedChk c b := by
  have hmask : 0x1FFFFFF#30 = (BitVec.allOnes 25).setWidth 30 := rfl
  refine BitVec.eq_of_getLsbD_eq fun k hk => ?_
  simp only [hmask, shiftedChk, BitVec.getLsbD_append, BitVec.getLsbD_xor, BitVec.getLsbD_shiftLeft, BitVec.getLsbD_and,
    BitVec.getLsbD_setWidth, BitVec.getLsbD_allOnes, BitVec.getLsbD_extractLsb']
  by_cases hlow : k < 5
  · simp [hlow, hk]
  · simp [hlow, hk, show k - 5 < 25 by omega, show k - 5 < 30 by omega, BitVec.getLsbD_of_ge b k (Nat.le_of_not_lt hlow)]

theorem polyStep_eq (c : BitVec 30) (b : BitVec 5) :
    polyStep c b = shiftedChk c b ^^^ generatorSum (c.extractLsb' 25 5) := by
  simp [polyStep, genRom, shiftedChk_eq, xor_ite, generatorSum, BitVec.xor_assoc]

theorem polyStep_xor (c c' : BitVec 30) (b b' : BitVec 5) :
    polyStep (c ^^^ c') (b ^^^ b') = polyStep c b ^^^ polyStep c' b' := by
  simp only [polyStep_eq, shiftedChk, BitVec.extractLsb'_xor, generatorSum_xor, ← BitVec.xor_append]
  ac_rfl

/-- Settles O39: the step is an append of two fields and an XOR of generators that a third field selects. -/
theorem polymodStepIsLinear : Obligations.PolymodStepIsLinear := by
  unfold Obligations.PolymodStepIsLinear
  exact polyStep_xor

/-! ### The step is injective -/

/-- A symbol that differs makes the step's value differ. -/
theorem polyStep_symbol_inj {c : BitVec 30} {b b' : BitVec 5} (h : polyStep c b = polyStep c b') : b = b' := by
  rw [polyStep_eq, polyStep_eq, BitVec.xor_left_inj] at h
  have hnat := congrArg BitVec.toNat h
  rw [shiftedChk_toNat, shiftedChk_toNat] at hnat
  exact BitVec.eq_of_toNat_eq (Nat.add_left_cancel hnat)

/-- The low bits of the step's value tell which generators were applied, hence the top; the rest is the low part. -/
theorem eq_zero_of_polyStep {c : BitVec 30} (h : polyStep c 0#5 = 0#30) : c = 0#30 := by
  rw [polyStep_eq, BitVec.xor_eq_zero_iff] at h
  have htop : c.extractLsb' 25 5 = 0#5 := by
    refine eq_zero_of_generatorSum_low _ (BitVec.eq_of_toNat_eq ?_)
    rw [← h, BitVec.toNat_setWidth, shiftedChk_toNat]
    simp
  have hhigh : c.toNat >>> 25 % 2 ^ 5 = 0 := (BitVec.extractLsb'_toNat 25 5 c).symm.trans (congrArg BitVec.toNat htop)
  have hlow := shiftedChk_toNat c 0#5
  rw [h, htop, generatorSum_zero, BitVec.toNat_ofNat, BitVec.toNat_ofNat] at hlow
  have hc := c.isLt
  rw [Nat.shiftRight_eq_div_pow] at hhigh
  refine BitVec.eq_of_toNat_eq (?_ : c.toNat = 0)
  omega

/-- A `CHK` that differs makes the step's value differ. -/
theorem polyStep_chk_inj {c c' : BitVec 30} {b : BitVec 5} (h : polyStep c b = polyStep c' b) : c = c' := by
  rw [← BitVec.xor_eq_zero_iff, ← polyStep_xor, BitVec.xor_self] at h
  exact BitVec.xor_eq_zero_iff.1 (eq_zero_of_polyStep h)

/-! ### Several steps -/

theorem feed_eq (c : BitVec 30) (xs : List (BitVec 5)) : feed c xs = polyFeed c xs := rfl

theorem polyFeed_inj {xs : List (BitVec 5)} {c c' : BitVec 30} (h : polyFeed c xs = polyFeed c' xs) : c = c' := by
  induction xs generalizing c c' with
  | nil => exact h
  | cons x xs ih => exact polyStep_chk_inj (ih h)

/-- Settles O41: the steps before the changed symbol agree, its own step tells the symbols apart, and so do all after it. -/
theorem oneChangedSymbolIsDetected : Obligations.OneChangedSymbolIsDetected := by
  unfold Obligations.OneChangedSymbolIsDetected
  intro xs i b hi hne hone hset
  rw [List.set_eq_take_append_cons_drop, if_pos hi] at hset
  have hsplit : xs = xs.take i ++ xs[i] :: xs.drop (i + 1) := by simp
  have hsame : polyFeed 1#30 (xs.take i ++ xs[i] :: xs.drop (i + 1)) = polyFeed 1#30 (xs.take i ++ b :: xs.drop (i + 1)) := by
    rw [← hsplit]
    exact hone.trans hset.symm
  rw [polyFeed_append, polyFeed_append] at hsame
  have heq : xs[i] = b := polyStep_symbol_inj (polyFeed_inj hsame)
  exact hne (heq ▸ List.getElem?_eq_getElem hi)

/-! ### The trailer (R137, R140) -/

theorem polyFeed_xor (c d : BitVec 30) (ys : List (BitVec 5)) :
    polyFeed (c ^^^ d) ys = polyFeed c (List.replicate ys.length 0#5) ^^^ polyFeed d ys := by
  induction ys generalizing c d with
  | nil => rfl
  | cons y ys ih =>
    have hstep : polyStep (c ^^^ d) y = polyStep c 0#5 ^^^ polyStep d y := by
      rw [← polyStep_xor, BitVec.zero_xor]
    rw [polyFeed_cons, hstep, ih]
    rfl

/-- Symbols fed below an empty top only pack up: no generator applies. -/
theorem polyStep_pack (q : BitVec 30) : polyStep (q >>> 5) (q.setWidth 5) = q := by
  rw [polyStep_eq]
  have htop : (q >>> 5).extractLsb' 25 5 = 0#5 := by
    refine BitVec.eq_of_toNat_eq ?_
    rw [BitVec.extractLsb'_toNat, BitVec.toNat_ushiftRight, ← Nat.shiftRight_add, Nat.shiftRight_eq_div_pow,
      Nat.div_eq_of_lt q.isLt]
    rfl
  have hlow : shiftedChk (q >>> 5) (q.setWidth 5) = q := by
    refine BitVec.eq_of_toNat_eq ?_
    rw [shiftedChk_toNat, BitVec.toNat_ushiftRight, BitVec.toNat_setWidth, Nat.shiftRight_eq_div_pow]
    omega
  rw [htop, hlow, generatorSum_zero, BitVec.xor_zero]

theorem polyStep_packedSymbol (p : BitVec 30) {i : Nat} (hi : i < 6) :
    polyStep (p >>> (30 - 5 * i)) (packedSymbol p i) = p >>> (30 - 5 * (i + 1)) := by
  rw [packedSymbol, show 5 * (5 - i) = 30 - 5 * (i + 1) by omega, show 30 - 5 * i = 30 - 5 * (i + 1) + 5 by omega,
    BitVec.shiftRight_add]
  exact polyStep_pack _

theorem polyFeed_packedSymbols (p : BitVec 30) {n : Nat} (hn : n ≤ 6) :
    polyFeed 0#30 ((List.range n).map (packedSymbol p)) = p >>> (30 - 5 * n) := by
  induction n with
  | zero => exact (BitVec.eq_of_toNat_eq (by simp [Nat.shiftRight_eq_div_pow, Nat.div_eq_of_lt p.isLt])).symm
  | succ n ih =>
    rw [List.range_succ, List.map_append, polyFeed_append, ih (by omega)]
    exact polyStep_packedSymbol p hn

/-- Feeding a packed value's six symbols to an empty register gives the value back (R57). -/
theorem polyFeed_unpack6 (p : BitVec 30) : polyFeed 0#30 (unpack6 p).toList = p :=
  (polyFeed_packedSymbols p (Nat.le_refl 6)).trans (BitVec.ushiftRight_zero p)

/-- R140: the checksum in place of the six zeros makes the polymod 1. -/
theorem polyFeed_checksum (c : BitVec 30) :
    polyFeed c (unpack6 (polyFeed c (List.replicate 6 0#5) ^^^ 1#30)).toList = 1#30 := by
  have h := polyFeed_xor c 0#30 (unpack6 (polyFeed c (List.replicate 6 0#5) ^^^ 1#30)).toList
  rw [BitVec.xor_zero, polyFeed_unpack6, Vector.length_toList, ← BitVec.xor_assoc, BitVec.xor_self, BitVec.zero_xor] at h
  exact h

end Sys2Proof.Proofs

/-!
PROOFS. The commands of the Checksum Engine (R130 to R139): registers, the feeds of HRP and SYM, CK.CREATE and CK.VERIFY.
-/

namespace Sys2Proof.Proofs

open Sys2Proof Sys2Proof.Machine Sys2Proof.Laws Sys2Proof.Claims

/-! ### The terms of the statements are the model's -/

theorem symbolOf_eq (v : Byte) : BitVec.ofNat 5 v.toNat = symbolOf v := BitVec.ofNat_toNat 5 v

theorem highPart_eq (c : Byte) : BitVec.ofNat 5 (c.toNat / 32) = hrpHigh c := by
  refine BitVec.eq_of_toNat_eq ?_
  simp [hrpHigh, Nat.shiftRight_eq_div_pow]

theorem lowPart_eq (c : Byte) : BitVec.ofNat 5 (c.toNat % 32) = hrpLow c := by
  refine BitVec.eq_of_toNat_eq ?_
  simp [hrpLow, ← Nat.and_two_pow_sub_one_eq_mod c.toNat 5]

theorem expansion_eq (h : List Byte) : expansion h = expand h := by
  simp only [expansion, expand, highPart_eq, lowPart_eq]

theorem checksumSymbol_eq (p : BitVec 30) (i : Nat) : checksumSymbol p i = packedSymbol p i := by
  refine BitVec.eq_of_toNat_eq ?_
  simp [checksumSymbol, packedSymbol, Nat.shiftRight_eq_div_pow]

theorem unpack6_getElem (p : BitVec 30) (i : Fin 6) : (unpack6 p)[i] = packedSymbol p i := by
  fin_cases i <;> rfl

/-! ### PM.INIT, PM.RD, PM.STEP, CK.RD -/

/-- Settles O32: one register written, one register read. -/
theorem pmInitAndPmRd : Obligations.PmInitAndPmRd := by
  unfold Obligations.PmInitAndPmRd
  exact ⟨decodesAs_row (k := 12) rfl, decodesAs_row (k := 14) rfl, fun s => ⟨rfl, rfl⟩⟩

/-- Settles O33: the step in closed form. -/
theorem pmStepAppliesGenerators : Obligations.PmStepAppliesGenerators := by
  unfold Obligations.PmStepAppliesGenerators
  refine ⟨decodesAs_row (k := 13) rfl, fun s b c hc => ?_⟩
  have hstep : polyStep s.chk b = c := by
    rw [hc, polyStep_eq, ← shiftedChk_toNat, BitVec.ofNat_toNat, BitVec.setWidth_eq]
    simp [generatorSum, BitVec.xor_assoc]
  rw [← hstep]
  rfl

/-- Settles O38: the two branches of the operand check. -/
theorem ckRdReadsChecksumSymbol : Obligations.CkRdReadsChecksumSymbol := by
  unfold Obligations.CkRdReadsChecksumSymbol
  refine ⟨decodesAs_row (k := 19) rfl, fun s i => ⟨fun h => dif_pos h, fun h => ?_⟩⟩
  have hval : BitVec.ofNat 8 i.toNat = i.setWidth 8 := BitVec.ofNat_toNat 8 i
  rw [← hval]
  exact dif_neg (Nat.not_lt_of_le h)

/-! ### PM.HRP, PM.SYM -/

theorem exec_pmHrp (s : State) : exec .pmHrp s = .next (s.feedHrp.respond s.feedHrp.chk) := rfl

/-- Settles O34: the feed of HRP, of known bytes and of any. -/
theorem pmHrpFeedsExpansion : Obligations.PmHrpFeedsExpansion := by
  unfold Obligations.PmHrpFeedsExpansion
  refine ⟨decodesAs_row (k := 15) rfl, fun s h hh => ?_, fun s => ?_⟩
  · rw [expansion_eq, exec_pmHrp, feedHrp_holds hh]
    rfl
  · obtain ⟨his, los, d, hfeed, hhis, hlos⟩ := feedHrp_spec s
    refine ⟨his, los, d, _, hhis, hlos, rfl, ?_⟩
    rw [exec_pmHrp, hfeed]
    simp only [highPart_eq, lowPart_eq]
    rfl

/-- The lowest element above 31 ends PM.SYM's pseudocode (R135). -/
theorem feedSym_lowestBad {s : State} {vs : List Byte} (hs : s.Holds .sym vs) {k : Nat} {v : Byte}
    (hbad : LowestBad (fun x => 31 < x.toNat) vs k v) :
    s.feedSym = .fail s ⟨.outOfRange, BitVec.ofNat 14 k, v⟩ := by
  obtain ⟨hk, hv, hlow⟩ := hbad
  have herr := feedSymbols_error 0 s.chk hk hv fun i x hi hx => Nat.le_of_not_lt (hlow i x hi hx)
  rw [Nat.zero_add] at herr
  simp only [State.feedSym, readBuf_holds hs, herr]

/-- Settles O35: the feed of SYM, and its one failure. -/
theorem pmSymFeedsSymbols : Obligations.PmSymFeedsSymbols := by
  unfold Obligations.PmSymFeedsSymbols
  refine ⟨decodesAs_row (k := 16) rfl, fun s vs hs => ⟨fun hfit c hc => ?_, fun k v hbad => ?_⟩⟩
  · subst hc
    simp only [symbolOf_eq, exec, execPmSym, feedSym_holds hs hfit]
    rfl
  · refine ⟨s.forgetChk.raise ⟨.outOfRange, BitVec.ofNat 14 k, v⟩, ?_, rfl⟩
    simp only [exec, execPmSym, feedSym_lowestBad hs hbad]

/-! ### CK.CREATE, CK.VERIFY -/

/-- `CHK` replaced. -/
def withChk (s : State) (c : BitVec 30) : State := { s with chk := c }

/-- What a buffer holds depends on the lengths and the elements only. -/
theorem holds_congr {s t : State} (hl : t.len = s.len) (hm : t.mem = s.mem) {b : Buf} {xs : List Byte} (h : s.Holds b xs) :
    t.Holds b xs :=
  ⟨(lenOf_congr hl b).trans h.1, fun k hk => (element_congr hm b k).trans (h.2 k hk)⟩

theorem withChk_holds {s : State} {b : Buf} {xs : List Byte} (h : s.Holds b xs) (c : BitVec 30) :
    (withChk s c).Holds b xs := holds_congr rfl rfl h

/-- What the two commands feed from a fresh register: the HRP expansion and the symbols. -/
def fedBoth (h vs : List Byte) : BitVec 30 := polyFeed 1#30 (expand h ++ vs.map symbolOf)

theorem fedBoth_eq (h vs : List Byte) :
    polyFeed 1#30 (expansion h ++ vs.map (fun v => BitVec.ofNat 5 v.toNat)) = fedBoth h vs := by
  simp only [fedBoth, expansion_eq, symbolOf_eq]

/-- What CK.CREATE leaves once the polymod with the zero trailer is `c`. -/
def created (s : State) (c : BitVec 30) : State :=
  ({ s with chk := c, cks := unpack6 (c ^^^ 1#30) } : State).respond (c ^^^ 1#30)

section
variable {s : State} {h vs : List Byte} (hh : s.Holds .hrp h) (hs : s.Holds .sym vs)

include hh in
theorem withChk_feedHrp (c : BitVec 30) : (withChk s c).feedHrp = withChk s (polyFeed c (expand h)) :=
  feedHrp_holds (withChk_holds hh c)

include hh hs

theorem feedBoth_fits (hfit : ∀ v ∈ vs, v.toNat ≤ 31) :
    ({ s with chk := 1#30 } : State).feedHrp.feedSym = .ok (withChk s (fedBoth h vs)) () := by
  rw [← withChk, withChk_feedHrp hh, feedSym_holds (withChk_holds hs _) hfit, fedBoth, polyFeed_append]
  rfl

theorem execCkCreate_fits (hfit : ∀ v ∈ vs, v.toNat ≤ 31) :
    exec .ckCreate s = .next (created s (polyFeed (fedBoth h vs) (List.replicate 6 0#5))) := by
  simp only [exec, execCkCreate, feedBoth_fits hh hs hfit]
  rfl

theorem execCkVerify_fits (hfit : ∀ v ∈ vs, v.toNat ≤ 31) :
    exec .ckVerify s = .next ((withChk s (fedBoth h vs)).respond (verdictData (fedBoth h vs))) := by
  simp only [exec, execCkVerify, feedBoth_fits hh hs hfit]
  rfl

variable {k : Nat} {v : Byte} (hbad : LowestBad (fun x => 31 < x.toNat) vs k v)
include hbad

theorem feedBoth_lowestBad :
    ({ s with chk := 1#30 } : State).feedHrp.feedSym =
      .fail (withChk s (polyFeed 1#30 (expand h))) ⟨.outOfRange, BitVec.ofNat 14 k, v⟩ := by
  rw [← withChk, withChk_feedHrp hh, feedSym_lowestBad (withChk_holds hs _) hbad]

theorem execCkCreate_lowestBad :
    exec .ckCreate s = .next ((withChk s (polyFeed 1#30 (expand h))).forgetChk.forgetCks.raise
      ⟨.outOfRange, BitVec.ofNat 14 k, v⟩) := by
  simp only [exec, execCkCreate, feedBoth_lowestBad hh hs hbad]

theorem execCkVerify_lowestBad :
    exec .ckVerify s = .next ((withChk s (polyFeed 1#30 (expand h))).forgetChk.raise
      ⟨.outOfRange, BitVec.ofNat 14 k, v⟩) := by
  simp only [exec, execCkVerify, feedBoth_lowestBad hh hs hbad]

end

/-- Settles O36: with symbols that fit, the state `created`, its `CKS` symbol by symbol; else the feed's failure. -/
theorem ckCreateUnpacksChecksum : Obligations.CkCreateUnpacksChecksum := by
  unfold Obligations.CkCreateUnpacksChecksum
  refine ⟨decodesAs_row (k := 17) rfl, fun s h vs hh hs => ⟨fun hfit c p hc hp => ?_, fun k v hbad => ?_⟩⟩
  · have hchk : polyFeed (fedBoth h vs) (List.replicate 6 0#5) = c := by
      rw [hc, feed_eq, polyFeed_append, fedBoth_eq]
    subst hp
    refine ⟨created s c, hchk ▸ execCkCreate_fits hh hs hfit, rfl, fun i => ?_⟩
    rw [checksumSymbol_eq, ← unpack6_getElem]
    rfl
  · exact ⟨_, execCkCreate_lowestBad hh hs hbad, rfl⟩

/-- Settles O37: with symbols that fit, the comparison with 1; else the feed's failure. -/
theorem ckVerifyTellsVerdict : Obligations.CkVerifyTellsVerdict := by
  unfold Obligations.CkVerifyTellsVerdict
  refine ⟨decodesAs_row (k := 18) rfl, fun s h vs hh hs => ⟨fun hfit c hc => ?_, fun k v hbad => ?_⟩⟩
  · rw [hc, feed_eq, fedBoth_eq]
    exact execCkVerify_fits hh hs hfit
  · exact ⟨_, execCkVerify_lowestBad hh hs hbad, rfl⟩

end Sys2Proof.Proofs

/-!
PROOFS. Create-then-verify (R140): the checksum symbols stored after the data symbols, command by command.
-/

namespace Sys2Proof.Proofs

open Sys2Proof Sys2Proof.Machine Sys2Proof.Laws Sys2Proof.Claims

/-! ### Storing a sequence after what a buffer holds (R211, R213) -/

theorem memWrite_writeSeq (s : State) (b : Buf) (i : Nat) (v : Byte) (vs : List Byte) :
    (s.memWrite b i v).writeSeq b (i + 1) vs = s.writeSeq b i (v :: vs) := by
  simp only [State.writeSeq, State.memWrite, banks_set_set, banks_get_set_self, Memory.writeSeq]

/-- One ST for each element leaves what writing the sequence leaves, but for the last response. -/
theorem execAll_storeAll (b : Buf) {i : Nat} {vs : List Byte} {s : State} (hroom : i + vs.length ≤ s.config.cap)
    (hcap : s.config.cap < 2 ^ 14) (rest : List Instr) :
    ∃ r, execAll (storeAll b i vs ++ rest) s = execAll rest (({ s with resp := r } : State).writeSeq b i vs) := by
  induction vs generalizing i s with
  | nil => exact ⟨s.resp, by simp [storeAll, State.writeSeq, Memory.writeSeq, banks_set_get]⟩
  | cons v vs ih =>
    rw [List.length_cons] at hroom
    have hi : (BitVec.ofNat 14 i).toNat = i := Nat.mod_eq_of_lt (by omega)
    have hst : exec (.st b (BitVec.ofNat 14 i) v) s = .next ((s.memWrite b i v).respond 0#30) := by
      have hok : indexOk s.config.cap (BitVec.ofNat 14 i) := by rw [indexOk, hi]; omega
      simp only [exec, execSt, if_pos hok, hi]
    obtain ⟨r, hr⟩ := ih (i := i + 1) (s := (s.memWrite b i v).respond 0#30) (by simp; omega) hcap
    refine ⟨r, ?_⟩
    rw [storeAll, List.cons_append, execAll_cons hst, hr, ← memWrite_writeSeq]
    rfl

section
variable {s : State} {b : Buf} {vs ws : List Byte}

/-- A buffer with a sequence stored after what it holds and its length raised holds both. -/
theorem holds_append (h : s.Holds b vs) (hlen : vs.length + ws.length < 2 ^ 14) :
    ((s.writeSeq b vs.length ws).setLen b (vs.length + ws.length)).Holds b (vs ++ ws) := by
  refine ⟨by rw [lenOf_setLen, if_pos rfl, Nat.mod_eq_of_lt hlen, List.length_append], fun k hk => ?_⟩
  rw [List.length_append] at hk
  refine (element_writeSeq s b b vs.length k ws).trans ?_
  by_cases hkv : k < vs.length
  · rw [if_neg (by omega), h.2 k hkv, List.getElem?_append_left hkv]
  · rw [if_pos ⟨rfl, by omega, hk⟩, List.getElem?_append_right (by omega)]

/-- The other buffers hold what they held. -/
theorem holds_append_other {b' : Buf} (hb : b' ≠ b) {xs : List Byte} (h : s.Holds b' xs) (i n : Nat) :
    ((s.writeSeq b i ws).setLen b n).Holds b' xs := by
  refine ⟨by rw [lenOf_setLen, if_neg hb]; exact h.1, fun k hk => ?_⟩
  have hel := element_writeSeq s b b' i k ws
  rw [if_neg fun hc => hb hc.1] at hel
  exact hel.trans (h.2 k hk)

end

theorem exec_setlen_fits {s : State} (b : Buf) {n : Nat} (hn : n ≤ s.config.cap) (hcap : s.config.cap < 2 ^ 14) :
    exec (.setlen b (BitVec.ofNat 14 n)) s = .next ((s.setLen b n).respond 0#30) := by
  have hval : (BitVec.ofNat 14 n).toNat = n := Nat.mod_eq_of_lt (by omega)
  have hok : lengthOk s.config.cap (BitVec.ofNat 14 n) := by rw [lengthOk, hval]; exact hn
  simp only [exec, execSetlen, if_pos hok, hval]

/-! ### The checksum stored and verified (R140) -/

theorem asElements_map_symbolOf (xs : List (BitVec 5)) : (asElements xs).map symbolOf = xs := by
  have hback : ∀ x : BitVec 5, symbolOf (BitVec.ofNat 8 x.toNat) = x := by decide
  rw [asElements, List.map_map]
  exact (List.map_congr_left fun x _ => hback x).trans (List.map_id' xs)

theorem asElements_fits (xs : List (BitVec 5)) : ∀ v ∈ asElements xs, v.toNat ≤ 31 := by
  intro v hv
  obtain ⟨x, -, rfl⟩ := List.mem_map.1 hv
  have := x.isLt
  rw [BitVec.toNat_ofNat]
  omega

/-- Symbols and the checksum that CK.CREATE leaves for them make CK.VERIFY's polymod 1. -/
theorem fedBoth_created (s : State) (h vs : List Byte) :
    fedBoth h (vs ++ asElements (created s (polyFeed (fedBoth h vs) (List.replicate 6 0#5))).cks.toList) = 1#30 := by
  rw [fedBoth, List.map_append, asElements_map_symbolOf, ← List.append_assoc, polyFeed_append]
  exact polyFeed_checksum (fedBoth h vs)

/-- CK.VERIFY after elements that fit have been stored behind the symbols. -/
theorem execAll_storeAll_verify {s : State} {h vs ws : List Byte} (hh : s.Holds .hrp h) (hs : s.Holds .sym vs)
    (hfit : ∀ v ∈ vs ++ ws, v.toNat ≤ 31) (hroom : vs.length + ws.length ≤ s.config.cap) (hcap : s.config.cap < 2 ^ 14) :
    ∃ u, execAll (storeAll .sym vs.length ws ++ [.setlen .sym (BitVec.ofNat 14 (vs.length + ws.length)), .ckVerify]) s =
        .next u ∧ u.resp = some (successWord (verdictData (fedBoth h (vs ++ ws)))) := by
  obtain ⟨r, hstore⟩ := execAll_storeAll .sym hroom hcap
    [.setlen .sym (BitVec.ofNat 14 (vs.length + ws.length)), .ckVerify]
  have hset := exec_setlen_fits (s := ({ s with resp := r } : State).writeSeq .sym vs.length ws) .sym hroom hcap
  have hsym := holds_append hs (ws := ws) (by omega)
  have hhrp := holds_append_other (b := .sym) (ws := ws) (by decide) hh vs.length (vs.length + ws.length)
  rw [hstore, execAll_cons hset, execAll_cons (execCkVerify_fits (h := h) (vs := vs ++ ws) ?_ ?_ hfit)]
  · exact ⟨_, rfl, rfl⟩
  · exact holds_congr rfl rfl hhrp
  · exact holds_congr rfl rfl hsym

/-- Settles O40: the stores and SETLEN leave a SYM that holds the symbols and the checksum, whose polymod is 1. -/
theorem createThenVerify : Obligations.CreateThenVerify := by
  unfold Obligations.CreateThenVerify
  intro s h vs hinv hh hs hfit hroom
  have hcap : s.config.cap < 2 ^ 14 := Nat.lt_of_le_of_lt hinv.cap_legal.2 (by omega)
  set t := created s (polyFeed (fedBoth h vs) (List.replicate 6 0#5))
  have hone : fedBoth h (vs ++ asElements t.cks.toList) = 1#30 := fedBoth_created s h vs
  have hlen : (asElements t.cks.toList).length = 6 := by simp [asElements]
  have hfits : ∀ v ∈ vs ++ asElements t.cks.toList, v.toNat ≤ 31 := fun v hv =>
    (List.mem_append.1 hv).elim (hfit v) (asElements_fits _ v)
  obtain ⟨u, hrun, hresp⟩ := execAll_storeAll_verify (s := t) hh hs hfits (hlen.symm ▸ hroom) hcap
  rw [hone] at hresp
  rw [hlen] at hrun
  exact ⟨t, u, execCkCreate_fits hh hs hfit, hrun, hresp⟩

end Sys2Proof.Proofs

/-!
PROOFS. The Alphabet unit (spec/42_alphabet.md): its two tables spell the alphabet string and invert each other (R160,
R161), its commands look up in them or check a range (R162 to R164), and the round trip follows (R165).
-/

namespace Sys2Proof.Proofs

open Sys2Proof Sys2Proof.Machine Sys2Proof.Laws Sys2Proof.Claims

/-! ### The tables -/

theorem revLookup_alphaChar (b : BitVec 5) : revLookup (alphaChar b) = some b := by
  revert b
  decide

theorem alphaChar_of_mem_revRom {e : Byte × BitVec 5} (h : e ∈ revRom) : alphaChar e.2 = e.1 :=
  have hall : revRom.all (fun e => alphaChar e.2 == e.1) = true := by decide
  eq_of_beq (List.all_eq_true.1 hall e h)

/-- `REV` is the inverse of `ALPHA`: the entry that a look-up finds is one of the table. -/
theorem revLookup_eq_some_iff {c : Byte} {b : BitVec 5} : revLookup c = some b ↔ alphaChar b = c := by
  refine ⟨fun h => ?_, fun h => h ▸ revLookup_alphaChar b⟩
  obtain ⟨e, he, rfl⟩ := Option.map_eq_some_iff.1 h
  have hc : (e.1 == c) = true := List.find?_some (p := fun x : Byte × BitVec 5 => x.1 == c) he
  exact (alphaChar_of_mem_revRom (List.mem_of_find?_eq_some he)).trans (eq_of_beq hc)

/-- `ALPHA` is the alphabet string of R33. -/
theorem alphabetCodes_getElem? (b : BitVec 5) : alphabetCodes[b.toNat]? = some (alphaChar b).toNat := by
  revert b
  decide

theorem alphabetCodes_getElem?_iff {k n : Nat} :
    alphabetCodes[k]? = some n ↔ ∃ b : BitVec 5, b.toNat = k ∧ (alphaChar b).toNat = n := by
  constructor
  · intro h
    have hk : k < 32 := (List.getElem?_eq_some_iff.1 h).1
    have hb : (BitVec.ofNat 5 k).toNat = k := Nat.mod_eq_of_lt hk
    rw [← hb, alphabetCodes_getElem?] at h
    exact ⟨_, hb, Option.some.inj h⟩
  · rintro ⟨b, rfl, rfl⟩
    exact alphabetCodes_getElem? b

theorem mem_alphabetCodes_iff {c : Byte} : c.toNat ∈ alphabetCodes ↔ ∃ b, alphaChar b = c := by
  simp only [List.mem_iff_getElem?, alphabetCodes_getElem?_iff, BitVec.toNat_inj]
  exact ⟨fun ⟨_, b, _, h⟩ => ⟨b, h⟩, fun ⟨b, h⟩ => ⟨_, b, rfl, h⟩⟩

theorem revLookup_eq_none_iff {c : Byte} : revLookup c = none ↔ c.toNat ∉ alphabetCodes := by
  simp only [mem_alphabetCodes_iff, Option.eq_none_iff_forall_ne_some, ne_eq, revLookup_eq_some_iff, not_exists]

/-! ### Folding (R11) -/

theorem lower_eq_fold (c : Byte) : lower c = fold c := by
  rw [lower, fold, BitVec.ofNat_add, BitVec.ofNat_toNat, BitVec.setWidth_eq]

theorem lower_toNat_of_upper {c : Byte} (h : 0x41 ≤ c.toNat ∧ c.toNat ≤ 0x5A) : (lower c).toNat = c.toNat + 0x20 := by
  rw [lower, if_pos h, BitVec.toNat_ofNat]
  omega

/-! ### The answer of success (R77) -/

theorem succeeded_respond (s : State) (d : BitVec 30) : Succeeded (s.respond d) :=
  ⟨_, rfl, by simp [successWord]⟩

/-! ### The commands -/

theorem exec_alEnc (b : BitVec 5) (s : State) :
    exec (.alEnc b) s = .next (s.respond ((alphaChar b).setWidth 30)) := rfl

theorem exec_alDec_alphaChar (b : BitVec 5) (s : State) :
    exec (.alDec (alphaChar b)) s = .next (s.respond (b.setWidth 30)) := by
  simp only [exec, execAlDec, revLookup_alphaChar, zext30]

theorem exec_alDec_of_notMem {c : Byte} (h : c.toNat ∉ alphabetCodes) (s : State) :
    exec (.alDec c) s = .next (s.raise ⟨.badChar, 0#14, c⟩) := by
  simp only [exec, execAlDec, revLookup_eq_none_iff.2 h]

theorem exec_alFold_printable {c : Byte} (h : Printable c) (s : State) :
    exec (.alFold c) s = .next (s.respond ((lower c).setWidth 30)) := by
  rw [lower_eq_fold]
  exact if_pos h

theorem exec_alFold_unprintable {c : Byte} (h : ¬ Printable c) (s : State) :
    exec (.alFold c) s = .next (s.raise ⟨.invalidRange, 0#14, c⟩) := if_neg h

/-- Settles O42: the character at the symbol's place in the string is `ALPHA`'s. -/
theorem alEncLooksUpAlphabet : Obligations.AlEncLooksUpAlphabet := by
  unfold Obligations.AlEncLooksUpAlphabet
  refine ⟨decodesAs_row (k := 20) rfl, fun s b code h => ?_⟩
  obtain rfl : (alphaChar b).toNat = code := Option.some.inj ((alphabetCodes_getElem? b).symm.trans h)
  rw [exec_alEnc, BitVec.ofNat_toNat]
  rfl

/-- Settles O43: the two branches of the range check. -/
theorem alFoldFoldsCase : Obligations.AlFoldFoldsCase := by
  unfold Obligations.AlFoldFoldsCase
  refine ⟨decodesAs_row (k := 22) rfl, fun s c => ⟨fun h => ?_, exec_alFold_unprintable (s := s)⟩⟩
  rw [exec_alFold_printable h, BitVec.ofNat_toNat]
  rfl

/-- Settles O44: a character of the string is `ALPHA`'s at its place, where `REV` finds it; any other is in no entry. -/
theorem alDecInvertsAlphabet : Obligations.AlDecInvertsAlphabet := by
  unfold Obligations.AlDecInvertsAlphabet
  refine ⟨decodesAs_row (k := 21) rfl, fun s c => ⟨fun k h => ?_, fun h => exec_alDec_of_notMem h s⟩⟩
  obtain ⟨b, rfl, hc⟩ := alphabetCodes_getElem?_iff.1 h
  obtain rfl := BitVec.eq_of_toNat_eq hc
  rw [exec_alDec_alphaChar, BitVec.ofNat_toNat]
  rfl

/-- Settles O45: what AL.DEC accepts are the characters `alphaChar b`, and the fold of an upper-case letter of the alphabet
is one of them. -/
theorem alphabetRoundTrip : Obligations.AlphabetRoundTrip := by
  unfold Obligations.AlphabetRoundTrip
  refine fun s => ⟨fun b => ⟨alphaChar b, exec_alEnc b s, exec_alDec_alphaChar b s⟩, fun c t ht hs => ?_,
    fun c hlo hhi hmem => ?_⟩
  · by_cases hc : c.toNat ∈ alphabetCodes
    · obtain ⟨b, rfl⟩ := mem_alphabetCodes_iff.1 hc
      cases (exec_alDec_alphaChar b s).symm.trans ht
      exact ⟨b, rfl, exec_alEnc b s⟩
    · cases (exec_alDec_of_notMem hc s).symm.trans ht
      exact absurd hs (not_succeeded_raise s _)
  · have hprintable : Printable c := ⟨by omega, by omega⟩
    rw [← lower_toNat_of_upper ⟨hlo, hhi⟩] at hmem
    obtain ⟨b, hb⟩ := mem_alphabetCodes_iff.1 hmem
    exact ⟨_, exec_alFold_printable hprintable s, hb ▸ exec_alDec_alphaChar b s, succeeded_respond s _⟩

end Sys2Proof.Proofs

/-!
PROOFS. ENCODE on an HRP that is known (R180 to R185): its four ends, told by the capacity, the HRP and the length of the
payload; the string it writes, character by character; the state that a success leaves.
-/

namespace Sys2Proof.Proofs

open Sys2Proof Sys2Proof.Machine Sys2Proof.Laws Sys2Proof.Claims

/-! ### An answer leaves the lengths and the elements -/

theorem lenOf_respond (s : State) (d : BitVec 30) (b : Buf) : (s.respond d).lenOf b = s.lenOf b := rfl

theorem element_respond (s : State) (d : BitVec 30) (b : Buf) (k : Nat) : (s.respond d).element b k = s.element b k := rfl

theorem holds_respond {s : State} {b : Buf} {xs : List Byte} (h : s.Holds b xs) (d : BitVec 30) :
    (s.respond d).Holds b xs := h

/-! ### The range check of an HRP or a string (R181, R192) -/

theorem firstUnprintable_eq_none {xs : List Byte} (h : ∀ x ∈ xs, Printable x) (k : Nat) :
    firstUnprintable xs k = none := by
  induction xs generalizing k with
  | nil => rfl
  | cons x xs ih =>
    obtain ⟨hx, hxs⟩ := List.forall_mem_cons.1 h
    exact (if_pos hx).trans (ih hxs (k + 1))

/-- The range check ends at the first unprintable element. -/
theorem firstUnprintable_append {pre : List Byte} (h : ∀ x ∈ pre, Printable x) {v : Byte} (hv : ¬ Printable v)
    (post : List Byte) (k : Nat) : firstUnprintable (pre ++ v :: post) k = some (k + pre.length, v) := by
  induction pre generalizing k with
  | nil => exact if_neg hv
  | cons x pre ih =>
    obtain ⟨hx, hpre⟩ := List.forall_mem_cons.1 h
    refine (if_pos hx).trans ((ih hpre (k + 1)).trans ?_)
    rw [List.length_cons, Nat.add_right_comm, Nat.add_assoc]

theorem firstUnprintable_lowestBad {xs : List Byte} {k : Nat} {v : Byte}
    (h : LowestBad (fun x => ¬ Printable x) xs k v) : firstUnprintable xs 0 = some (k, v) := by
  obtain ⟨pre, post, rfl, rfl, hv, hpre⟩ := lowestBad_split h
  rw [firstUnprintable_append (fun x hx => not_not.1 (hpre x hx)) hv, Nat.zero_add]

theorem printable_of_firstUnprintable {xs : List Byte} {k : Nat} (h : firstUnprintable xs k = none) :
    ∀ x ∈ xs, Printable x := by
  induction xs generalizing k with
  | nil => simp
  | cons x xs ih =>
    unfold firstUnprintable at h
    split at h
    · rename_i hx
      exact List.forall_mem_cons.2 ⟨hx, ih h⟩
    · cases h

/-! ### The conversion of a payload (R180): it cannot fail -/

theorem fits_bytes (xs : List Byte) : Fits 8 xs := fun x _ => x.isLt

/-- The data symbols of a payload: one for every five bits, and as a number the payload with zeros below. -/
theorem convert_payload (dat : List Byte) :
    ∃ ds, convert 8 5 true dat = .ok ds ∧ Fits 5 ds ∧ ds.length = symbolCount dat.length ∧
      groupsValue 5 ds = groupsValue 8 dat * 2 ^ (5 * ds.length - dat.length * 8) := by
  obtain ⟨ds, e, hfits, hvalue⟩ := convert_padded_value (T := 5) (by decide) (fits_bytes dat) (by decide)
  exact ⟨ds, e, hfits, convert_length (by decide) e, hvalue⟩

/-! ### The ends of ENCODE (R180, R181) -/

theorem execEncode_emptyHrp {s : State} (h : s.lenOf .hrp = 0) :
    exec .encode s = .next (s.encodeFailed.raise ⟨.emptyHrp, 0#14, 0#8⟩) := if_pos h

theorem execEncode_tooLong {s : State} (h : 0 < s.lenOf .hrp)
    (hT : s.config.cap < stringLength (s.lenOf .hrp) (s.lenOf .dat)) :
    exec .encode s = .next (s.encodeFailed.raise ⟨.stringCapacity, 0#14, 0#8⟩) :=
  (if_neg h.ne').trans (if_pos hT)

section
variable {s : State} {hrp : List Byte} (hh : s.Holds .hrp hrp) (hL : 0 < s.lenOf .hrp)
  (hT : stringLength (s.lenOf .hrp) (s.lenOf .dat) ≤ s.config.cap)
include hh hL hT

theorem execEncode_unprintable {k : Nat} {c : Byte} (hbad : firstUnprintable hrp 0 = some (k, c)) :
    exec .encode s = .next (s.encodeFailed.raise ⟨.hrpRange, BitVec.ofNat 14 k, c⟩) := by
  simp only [exec, execEncode, hL.ne', Nat.not_lt_of_le hT, if_false, readBuf_holds hh, hbad]

/-- The payload is what the loop over DAT reads, be it written or not. -/
theorem execEncode_delivers {dat ds : List Byte} {d : Nat} (hread : s.readBuf .dat = (dat, { s with draws := d }))
    (hp : firstUnprintable hrp 0 = none) (hconv : convert 8 5 true dat = .ok ds) :
    exec .encode s = .next ((({ s with draws := d } : State).encodeResults (hrp.map fold) ds
      (symbolCount (s.lenOf .dat)) (stringLength (s.lenOf .hrp) (s.lenOf .dat))).respond
        (data30 (stringLength (s.lenOf .hrp) (s.lenOf .dat)))) := by
  simp only [exec, execEncode, hL.ne', Nat.not_lt_of_le hT, if_false, readBuf_holds hh, hp, hread, hconv]

end

/-- Over a written payload, in terms of what the two buffers hold. -/
theorem execEncode_delivers_written {s : State} {hrp dat ds : List Byte} (hh : s.Holds .hrp hrp) (hd : s.Holds .dat dat)
    (hL : 0 < hrp.length) (hT : stringLength hrp.length dat.length ≤ s.config.cap) (hp : firstUnprintable hrp 0 = none)
    (hconv : convert 8 5 true dat = .ok ds) :
    exec .encode s = .next ((s.encodeResults (hrp.map fold) ds (symbolCount dat.length)
      (stringLength hrp.length dat.length)).respond (data30 (stringLength hrp.length dat.length))) := by
  rw [← hh.1, ← hd.1] at hT ⊢
  exact execEncode_delivers hh (hh.1 ▸ hL) hT (readBuf_holds hd) hp hconv

/-- Settles O47: the ends of ENCODE that raise an error. -/
theorem encodeChecksInOrder : Obligations.EncodeChecksInOrder := by
  unfold Obligations.EncodeChecksInOrder
  rintro s L T rfl rfl
  exact ⟨fun h => ⟨_, execEncode_emptyHrp h, rfl⟩, fun h hT => ⟨_, execEncode_tooLong h hT, rfl⟩,
    fun hrp k v h hT hh hbad => ⟨_, execEncode_unprintable hh h hT (firstUnprintable_lowestBad hbad), rfl⟩⟩

/-- How ENCODE ends for a capacity, an HRP, and the length of a payload. -/
inductive EncodeEnds (cap : Nat) (hrp : List Byte) (n : Nat) : Prop
  | emptyHrp (h : hrp.length = 0)
  | tooLong (h : 0 < hrp.length) (hT : cap < stringLength hrp.length n)
  | unprintable {k : Nat} {c : Byte} (h : 0 < hrp.length) (hT : stringLength hrp.length n ≤ cap)
      (hbad : firstUnprintable hrp 0 = some (k, c))
  | delivers (h : 0 < hrp.length) (hT : stringLength hrp.length n ≤ cap) (hp : firstUnprintable hrp 0 = none)

theorem encodeEnds (cap : Nat) (hrp : List Byte) (n : Nat) : EncodeEnds cap hrp n := by
  obtain h | h := Nat.eq_zero_or_pos hrp.length
  · exact .emptyHrp h
  obtain hT | hT := Nat.lt_or_ge cap (stringLength hrp.length n)
  · exact .tooLong h hT
  cases e : firstUnprintable hrp 0 with
  | some kc => exact .unprintable h hT e
  | none => exact .delivers h hT e

/-! ### The encoded string (R183, R184) -/

/-- The six checksum symbols of an encode. -/
def checksumOf (h : List Byte) (syms : List (BitVec 5)) : List (BitVec 5) := (unpack6 (encodePolymod h syms ^^^ 1#30)).toList

/-- All symbols after the separator: those of the data elements, then the checksum. -/
def stringSymbols (h ds : List Byte) : List (BitVec 5) := ds.map symbolOf ++ checksumOf h (ds.map symbolOf)

/-- The string that ENCODE writes. -/
def encodedText (h ds : List Byte) : List Byte := h ++ separator :: (stringSymbols h ds).map alphaChar

theorem encodedString_eq (h ds : List Byte) :
    encodedString h (ds.map symbolOf) (checksumOf h (ds.map symbolOf)) = encodedText h ds := by
  simp [encodedString, encodedText, stringSymbols]

theorem checksumOf_length (h : List Byte) (syms : List (BitVec 5)) : (checksumOf h syms).length = 6 :=
  Vector.length_toList

theorem checksumOf_eq (h : List Byte) (syms : List (BitVec 5)) :
    checksumOf h syms = (List.range 6).map (checksumSymbol (encodePolymod h syms ^^^ 1#30)) :=
  calc checksumOf h syms = (List.range 6).map (packedSymbol (encodePolymod h syms ^^^ 1#30)) := rfl
    _ = _ := List.map_congr_left fun i _ => (checksumSymbol_eq _ i).symm

theorem stringSymbols_length (h ds : List Byte) : (stringSymbols h ds).length = ds.length + 6 := by
  rw [stringSymbols, List.length_append, List.length_map, checksumOf_length]

theorem encodedText_length (h ds : List Byte) : (encodedText h ds).length = h.length + 1 + ds.length + 6 := by
  rw [encodedText, List.length_append, List.length_cons, List.length_map, stringSymbols_length]
  omega

theorem encodedText_length_payload {h dat ds : List Byte} (hconv : convert 8 5 true dat = .ok ds) :
    (encodedText h ds).length = stringLength h.length dat.length := by
  rw [encodedText_length, convert_length (by decide) hconv]
  rfl

theorem encodedText_getElem?_separator (h ds : List Byte) : (encodedText h ds)[h.length]? = some separator := by
  simp [encodedText]

/-- Behind the separator stand characters of the alphabet. -/
theorem mem_of_encodedText_after {h ds : List Byte} {k : Nat} {v : Byte} (hk : h.length < k)
    (hv : (encodedText h ds)[k]? = some v) : ∃ b, alphaChar b = v := by
  obtain ⟨j, rfl⟩ : ∃ j, k = h.length + (j + 1) := ⟨k - h.length - 1, by omega⟩
  rw [encodedText, List.getElem?_append_right (Nat.le_add_right ..), Nat.add_sub_cancel_left, List.getElem?_cons_succ] at hv
  obtain ⟨b, -, hb⟩ := List.mem_map.1 (List.mem_of_getElem? hv)
  exact ⟨b, hb⟩

/-! ### Its characters (R184) -/

/-- A printable character that is no upper-case letter. -/
def LowerPrintable (c : Byte) : Prop := Printable c ∧ ¬ (0x41 ≤ c.toNat ∧ c.toNat ≤ 0x5A)

theorem lowerPrintable_fold {c : Byte} (h : Printable c) : LowerPrintable (fold c) := by
  rw [← lower_eq_fold]
  by_cases hc : 0x41 ≤ c.toNat ∧ c.toNat ≤ 0x5A
  · have := lower_toNat_of_upper hc
    exact ⟨⟨by omega, by omega⟩, by omega⟩
  · rw [lower, if_neg hc]
    exact ⟨h, hc⟩

theorem fold_of_lowerPrintable {c : Byte} (h : LowerPrintable c) : fold c = c := if_neg h.2

theorem lowerPrintable_separator : LowerPrintable separator := by
  unfold LowerPrintable Printable
  decide

theorem lowerPrintable_alphaChar (b : BitVec 5) : LowerPrintable (alphaChar b) := by
  unfold LowerPrintable Printable
  revert b
  decide

theorem alphaChar_ne_separator (b : BitVec 5) : alphaChar b ≠ separator := by
  revert b
  decide

theorem encodedText_lowerPrintable {hrp : List Byte} (h : ∀ x ∈ hrp, Printable x) (ds : List Byte) :
    ∀ x ∈ encodedText (hrp.map fold) ds, LowerPrintable x := by
  refine List.forall_mem_append.2 ⟨List.forall_mem_map.2 fun x hx => lowerPrintable_fold (h x hx), ?_⟩
  exact List.forall_mem_cons.2 ⟨lowerPrintable_separator, List.forall_mem_map.2 fun b _ => lowerPrintable_alphaChar b⟩

/-- As codes: the characters after the HRP come from the alphabet string (R33). -/
theorem alphabetCodes_getD (b : BitVec 5) : alphabetCodes.getD b.toNat 0 = (alphaChar b).toNat := by
  rw [List.getD_eq_getElem?_getD, alphabetCodes_getElem?]
  rfl

theorem encodedText_codes (h ds : List Byte) :
    (encodedText h ds).map BitVec.toNat =
      h.map BitVec.toNat ++ [0x31] ++ (stringSymbols h ds).map (fun b => alphabetCodes.getD b.toNat 0) := by
  simp only [alphabetCodes_getD]
  simp [encodedText, separator]

/-! ### The state that a success leaves (R185) -/

section
variable (s : State) (h ds : List Byte)

theorem encodeResults_lenOf {m T : Nat} (hm : m < 2 ^ 14) (hT : T < 2 ^ 14) (b : Buf) :
    (s.encodeResults h ds m T).lenOf b = if b = .str then T else if b = .sym then m else s.lenOf b := by
  refine (lenOf_setLen _ .str b T).trans ?_
  have hsym := lenOf_setLen (s.writeSeq .sym 0 ds) .sym b m
  rw [Nat.mod_eq_of_lt hm] at hsym
  rw [Nat.mod_eq_of_lt hT]
  exact congrArg (ite _ T) hsym

theorem encodeResults_element {m T : Nat} (hm : ds.length = m) (hT : (encodedText h ds).length = T) (b : Buf) (k : Nat) :
    (s.encodeResults h ds m T).element b k =
      if b = .str ∧ k < T then (encodedText h ds)[k]? else if b = .sym ∧ k < m then ds[k]? else s.element b k := by
  have hstr := element_writeSeq (s.writeSeq .sym 0 ds) .str b 0 k (encodedText h ds)
  have hsym := element_writeSeq s .sym b 0 k ds
  simp only [Nat.zero_le, true_and, Nat.zero_add, Nat.sub_zero] at hstr hsym
  rw [← hm, ← hT, ← hsym, ← hstr, ← encodedString_eq]
  rfl

/-- STR holds the string. -/
theorem encodeResults_holds {h dat ds : List Byte} (hconv : convert 8 5 true dat = .ok ds)
    (hT : stringLength h.length dat.length < 2 ^ 14) :
    (s.encodeResults h ds (symbolCount dat.length) (stringLength h.length dat.length)).Holds .str (encodedText h ds) := by
  have hlen := encodedText_length_payload (h := h) hconv
  have hds := convert_length (by decide) hconv
  have hm : symbolCount dat.length < 2 ^ 14 := by unfold stringLength at hT; omega
  refine ⟨(encodeResults_lenOf s h ds hm hT .str).trans hlen.symm, fun k hk => ?_⟩
  exact (encodeResults_element s h ds hds hlen .str k).trans (if_pos ⟨rfl, hlen ▸ hk⟩)

end

/-- What a successful ENCODE of a written HRP has done (R180 to R184). -/
theorem encode_succeeded {s t : State} {hrp : List Byte} (hs : s.Inv) (hh : s.Holds .hrp hrp) (ht : exec .encode s = .next t)
    (hok : Succeeded t) :
    ∃ dat ds, s.ReadsAs .dat dat ∧ convert 8 5 true dat = .ok ds ∧ 0 < hrp.length ∧ (∀ x ∈ hrp, Printable x) ∧
      t.Holds .str (encodedText (hrp.map fold) ds) := by
  have fails {f : Failure} (e : exec .encode s = .next (s.encodeFailed.raise f)) : False := by
    obtain rfl := Host.Outcome.next.inj (e.symm.trans ht)
    exact not_succeeded_raise _ f hok
  cases encodeEnds s.config.cap hrp (s.lenOf .dat) with
  | emptyHrp h => exact (fails (execEncode_emptyHrp (hh.1.trans h))).elim
  | tooLong h hT => exact (fails (execEncode_tooLong (hh.1 ▸ h) (hh.1 ▸ hT))).elim
  | unprintable h hT hbad => exact (fails (execEncode_unprintable hh (hh.1 ▸ h) (hh.1 ▸ hT) hbad)).elim
  | delivers h hT hp =>
    obtain ⟨dat, d, hread, hreads⟩ := readBuf_spec s .dat
    obtain ⟨ds, hconv, -⟩ := convert_payload dat
    obtain rfl := Host.Outcome.next.inj ((execEncode_delivers hh (hh.1 ▸ h) (hh.1 ▸ hT) hread hp hconv).symm.trans ht)
    refine ⟨dat, ds, hreads, hconv, h, printable_of_firstUnprintable hp, ?_⟩
    have hlen : stringLength (s.lenOf .hrp) (s.lenOf .dat) = stringLength (hrp.map fold).length dat.length := by
      rw [List.length_map, ← hh.1, hreads.1]
    have hcap := hs.cap_legal.2
    rw [← hreads.1] at hT
    rw [hlen, ← hreads.1]
    exact holds_respond (encodeResults_holds _ hconv (by rw [List.length_map]; omega)) _

/-- Settles O46: the end of ENCODE that delivers, its string as codes, and what it writes. -/
theorem encodeWritesString : Obligations.EncodeWritesString := by
  unfold Obligations.EncodeWritesString
  refine ⟨decodesAs_row (k := 23) rfl, ?_⟩
  rintro s hrp h dat ds syms cks c m T hs hh hd hL hp rfl hTeq hT hheq hconv hsyms hc hcks
  obtain rfl : h = hrp.map fold := hheq.trans (List.map_congr_left fun x _ => lower_eq_fold x)
  obtain rfl : syms = ds.map symbolOf := hsyms.trans (List.map_congr_left fun x _ => symbolOf_eq x)
  rw [expansion_eq] at hc
  obtain rfl : c = encodePolymod (hrp.map fold) (ds.map symbolOf) := hc
  rw [← checksumOf_eq] at hcks
  obtain rfl : T = stringLength hrp.length dat.length := hTeq
  have hcap := hs.cap_legal.2
  have hlen : (encodedText (hrp.map fold) ds).length = stringLength hrp.length dat.length := by
    rw [encodedText_length_payload hconv, List.length_map]
  have hds : ds.length = symbolCount dat.length := convert_length (by decide) hconv
  have hlt : symbolCount dat.length < stringLength hrp.length dat.length := by unfold stringLength; omega
  refine ⟨_, encodedText (hrp.map fold) ds,
    execEncode_delivers_written hh hd hL hT (firstUnprintable_eq_none hp 0) hconv,
    hcks ▸ encodedText_codes _ _, hlen, hds, rfl, hcks.symm, fun b => ?_, fun b k => ?_⟩
  · rw [lenOf_respond]
    exact encodeResults_lenOf s _ ds (by omega) (by omega) b
  · rw [element_respond]
    exact encodeResults_element s _ ds hds hlen b k

/-- Settles O48: the string is the folded HRP, the separator, and characters of the alphabet. -/
theorem encodeOutputCharacters : Obligations.EncodeOutputCharacters := by
  unfold Obligations.EncodeOutputCharacters
  intro s t hs hw ht hok
  obtain ⟨hrp, hh⟩ := written_holds hw
  obtain ⟨-, ds, -, -, -, hp, hlen, htext⟩ := encode_succeeded hs hh ht hok
  have hL : s.lenOf .hrp = (hrp.map fold).length := by rw [hh.1, List.length_map]
  rw [hL, hlen]
  refine ⟨?_, fun k hk => ?_⟩
  · rw [htext _ (by rw [encodedText_length]; omega), encodedText_getElem?_separator]
    rfl
  · obtain ⟨v, hv⟩ : ∃ v, (encodedText (hrp.map fold) ds)[k]? = some v := ⟨_, List.getElem?_eq_getElem hk⟩
    obtain ⟨hprint, hcase⟩ := encodedText_lowerPrintable hp ds v (List.mem_of_getElem? hv)
    refine ⟨v, (htext k hk).trans hv, hprint, hcase, fun hafter => ?_⟩
    obtain ⟨b, rfl⟩ := mem_of_encodedText_after hafter hv
    exact alphaChar_ne_separator b

end Sys2Proof.Proofs

/-!
PROOFS. DECODE inverts ENCODE (R188): the five steps of DECODE on an encoded string find the lower-cased HRP, the symbols, a
polymod of 1, and the payload.
-/

namespace Sys2Proof.Proofs

open Sys2Proof Sys2Proof.Machine Sys2Proof.Laws Sys2Proof.Claims

/-! ### The strict conversion inverts the padded one (R100) -/

/-- Groups that fit are known by their number and the value they spell. -/
theorem groupsValue_inj {w : Nat} {xs ys : List Byte} (hx : Fits w xs) (hy : Fits w ys) (hlen : xs.length = ys.length)
    (h : groupsValue w xs = groupsValue w ys) : xs = ys := by
  induction xs generalizing ys with
  | nil => exact (List.length_eq_zero_iff.1 hlen.symm).symm
  | cons x xs ih =>
    obtain ⟨y, ys, rfl⟩ := List.exists_cons_of_length_eq_add_one hlen.symm
    obtain ⟨-, hxs⟩ := fits_cons.1 hx
    obtain ⟨-, hys⟩ := fits_cons.1 hy
    have hlen' : xs.length = ys.length := Nat.succ.inj hlen
    rw [groupsValue_cons, groupsValue_cons, hlen'] at h
    have hlt := groupsValue_lt hys
    have hlt' := groupsValue_lt hxs
    rw [hlen'] at hlt'
    have hmod := congrArg (· % 2 ^ (w * ys.length)) h
    simp only [Nat.mul_add_mod_self_right, Nat.mod_eq_of_lt hlt, Nat.mod_eq_of_lt hlt'] at hmod
    rw [hmod] at h
    have hhead := Nat.mul_right_cancel (Nat.two_pow_pos _) (Nat.add_right_cancel h)
    rw [BitVec.eq_of_toNat_eq hhead, ih hxs hys hlen' hmod]

/-- The zeros that padding added, fewer than five, are all that the payload's bytes leave over. -/
theorem convert_strict_of_padded {dat ds : List Byte} (h : convert 8 5 true dat = .ok ds) :
    convert 5 8 false ds = .ok dat := by
  obtain ⟨ds', h', hfits, hlen, hvalue⟩ := convert_payload dat
  obtain rfl := Except.ok.inj (h.symm.trans h')
  unfold symbolCount at hlen
  have hleft : ds.length * 5 % 8 = 5 * ds.length - dat.length * 8 := by omega
  have hzero : leftOver 5 8 ds = 0 := by
    rw [leftOver_eq_zero_iff (by decide), hvalue, hleft]
    exact Nat.mul_mod_left _ _
  rw [convert_strict_zero (by decide) hfits (by omega) hzero]
  refine congrArg Except.ok (groupsValue_inj (groups_lt (by decide) (by decide) _ _) (fits_bytes dat) ?_ ?_)
  · rw [wholeGroups_length (by decide)]
    omega
  · rw [groupsValue_wholeGroups (by decide) hfits (by decide), hvalue, hleft, Nat.mul_div_cancel _ (Nat.two_pow_pos _)]

/-! ### Steps 2 and 3 (R193, R194) -/

theorem lastSeparator_of_notMem {xs : List Byte} (h : separator ∉ xs) (k : Nat) (best : Option Nat) :
    lastSeparator xs k best = best := by
  induction xs generalizing k with
  | nil => rfl
  | cons x xs ih =>
    rw [lastSeparator, if_neg (List.ne_of_not_mem_cons h).symm, ih (List.not_mem_of_not_mem_cons h)]

/-- A separator with none behind it is the last one. -/
theorem lastSeparator_append (pre : List Byte) {body : List Byte} (h : separator ∉ body) (k : Nat) (best : Option Nat) :
    lastSeparator (pre ++ separator :: body) k best = some (k + pre.length) := by
  induction pre generalizing k best with
  | nil => exact lastSeparator_of_notMem h (k + 1) _
  | cons x pre ih =>
    refine (ih (k + 1) _).trans ?_
    rw [List.length_cons, Nat.add_right_comm, Nat.add_assoc]

theorem mapCharacters_alphaChar (syms : List (BitVec 5)) (k : Nat) : mapCharacters (syms.map alphaChar) k = .ok syms := by
  induction syms generalizing k with
  | nil => rfl
  | cons b syms ih => simp only [List.map_cons, mapCharacters, revLookup_alphaChar, ih]

/-! ### Steps 4 and 5 (R195, R196) -/

/-- R140, R183: the checksum makes the polymod 1. -/
theorem polymod_stringSymbols (h ds : List Byte) : polymod (expand h ++ stringSymbols h ds) = 1#30 := by
  have hchk : encodePolymod h (ds.map symbolOf) =
      polyFeed (polyFeed 1#30 (expand h ++ ds.map symbolOf)) (List.replicate 6 0#5) := polyFeed_append _ _ _
  rw [stringSymbols, checksumOf, hchk, ← List.append_assoc, polymod, polyFeed_append]
  exact polyFeed_checksum _

/-- Elements that fit five bits are the symbols they hold. -/
theorem map_zext8_symbolOf {ds : List Byte} (h : Fits 5 ds) : (ds.map symbolOf).map zext8 = ds := by
  have hback (x : Byte) (hx : x.toNat < 2 ^ 5) : zext8 (symbolOf x) = x := by
    refine BitVec.eq_of_toNat_eq ?_
    simp only [zext8, symbolOf, BitVec.toNat_setWidth]
    omega
  rw [List.map_map]
  exact (List.map_congr_left fun x hx => hback x (h x hx)).trans (List.map_id' ds)

theorem data_of_stringSymbols {h ds : List Byte} (hfits : Fits 5 ds) :
    ((stringSymbols h ds).take ((stringSymbols h ds).length - 6)).map zext8 = ds := by
  rw [stringSymbols_length, Nat.add_sub_cancel, stringSymbols, List.take_left' (List.length_map ..),
    map_zext8_symbolOf hfits]

/-- What DECODE finds in an encoded string. -/
theorem decodeString_encodedText {h dat ds : List Byte} (hh : 0 < h.length) (hconv : convert 8 5 true dat = .ok ds) :
    decodeString (encodedText h ds) = .ok ⟨h, stringSymbols h ds, 1#30, dat⟩ := by
  obtain ⟨ds', hconv', hfits, -⟩ := convert_payload dat
  obtain rfl := Except.ok.inj (hconv.symm.trans hconv')
  have hsep : separator ∉ (stringSymbols h ds).map alphaChar := fun hmem =>
    have ⟨b, _, hb⟩ := List.mem_map.1 hmem
    alphaChar_ne_separator b hb
  have hlast : lastSeparator (encodedText h ds) 0 none = some h.length :=
    (lastSeparator_append h hsep 0 none).trans (congrArg some (Nat.zero_add _))
  have hbody : ¬ (encodedText h ds).length - 1 - h.length < 6 := by
    rw [encodedText_length]
    omega
  have htake : (encodedText h ds).take h.length = h := List.take_left' rfl
  have hdrop : (encodedText h ds).drop (h.length + 1) = (stringSymbols h ds).map alphaChar := by
    rw [encodedText, ← List.drop_drop, List.drop_left' rfl]
    rfl
  simp only [decodeString, hlast, hh.ne', if_false, hbody, htake, hdrop, decodeBody, mapCharacters_alphaChar,
    polymod_stringSymbols, ne_eq, not_true, data_of_stringSymbols hfits, convert_strict_of_padded hconv]

/-! ### DECODE on a string that is known (R190, R198) -/

theorem execDecode_unprintable {s : State} {str : List Byte} (hs : s.Holds .str str) {k : Nat} {c : Byte}
    (hbad : firstUnprintable str 0 = some (k, c)) :
    exec .decode s = .next (s.decodeFailed.raise ⟨.invalidRange, BitVec.ofNat 14 k, c⟩) := by
  simp only [exec, execDecode, readBuf_holds hs, hbad]

section
variable {s : State} {str : List Byte} (hs : s.Holds .str str) (hp : firstUnprintable str 0 = none)
include hs hp

theorem execDecode_fails {f : Failure} (e : decodeString (str.map fold) = .error f) :
    exec .decode s = .next (s.decodeFailed.raise f) := by
  simp only [exec, execDecode, readBuf_holds hs, hp, e]

theorem execDecode_delivers {r : Decoded} (e : decodeString (str.map fold) = .ok r) :
    exec .decode s = .next ((s.decodeResults r).respond (data30 ((r.hrp.length <<< 14) ||| r.payload.length))) := by
  simp only [exec, execDecode, readBuf_holds hs, hp, e]

end

theorem lenOf_lt (s : State) (b : Buf) : s.lenOf b < 2 ^ 14 := (s.len.get b).isLt

/-- A buffer written from its start on, with the length that goes with it. -/
theorem holds_replaced (s : State) (b : Buf) {vs : List Byte} (h : vs.length < 2 ^ 14) :
    ((s.writeSeq b 0 vs).setLen b vs.length).Holds b vs := by
  refine ⟨by rw [lenOf_setLen, if_pos rfl, Nat.mod_eq_of_lt h], fun k hk => ?_⟩
  exact (element_writeSeq s b b 0 k vs).trans (if_pos ⟨rfl, Nat.zero_le k, by omega⟩)

theorem decodeResults_holds_hrp (s : State) {r : Decoded} (h : r.hrp.length < 2 ^ 14) :
    (s.decodeResults r).Holds .hrp r.hrp := holds_replaced _ .hrp h

theorem decodeResults_holds_dat (s : State) {r : Decoded} (h : r.payload.length < 2 ^ 14) :
    (s.decodeResults r).Holds .dat r.payload := holds_append_other (by decide) (holds_replaced _ .dat h) 0 _

/-- DECODE on a string that ENCODE wrote. -/
theorem execDecode_encodedText {t : State} {hrp dat ds : List Byte} (ht : t.Holds .str (encodedText (hrp.map fold) ds))
    (hconv : convert 8 5 true dat = .ok ds) (hL : 0 < hrp.length) (hp : ∀ x ∈ hrp, Printable x)
    (hhrp : hrp.length < 2 ^ 14) (hdat : dat.length < 2 ^ 14) :
    ∃ u, exec .decode t = .next u ∧ Succeeded u ∧ u.Holds .hrp (hrp.map fold) ∧ u.Holds .dat dat := by
  have hclean := encodedText_lowerPrintable hp ds
  have hfold : (encodedText (hrp.map fold) ds).map fold = encodedText (hrp.map fold) ds :=
    (List.map_congr_left fun x hx => fold_of_lowerPrintable (hclean x hx)).trans (List.map_id' _)
  rw [← List.length_map fold] at hL hhrp
  have hdecoded := decodeString_encodedText hL hconv
  rw [← hfold] at hdecoded
  exact ⟨_, execDecode_delivers ht (firstUnprintable_eq_none (fun x hx => (hclean x hx).1) 0) hdecoded,
    succeeded_respond _ _, holds_respond (decodeResults_holds_hrp t hhrp) _,
    holds_respond (decodeResults_holds_dat t hdat) _⟩

/-- Settles O57: what ENCODE wrote is a string that DECODE's steps take apart again. -/
theorem decodeInvertsEncodeCommand : Obligations.DecodeInvertsEncodeCommand := by
  unfold Obligations.DecodeInvertsEncodeCommand
  intro s t hs hwh hwd ht hok
  obtain ⟨hrp, hh⟩ := written_holds hwh
  obtain ⟨dat, hd⟩ := written_holds hwd
  obtain ⟨dat', ds, hreads, hconv, hL, hp, htext⟩ := encode_succeeded hs hh ht hok
  obtain rfl := readsAs_holds hd hreads
  obtain ⟨u, hu, huok, huh, hud⟩ := execDecode_encodedText htext hconv hL hp (hh.1 ▸ lenOf_lt s .hrp)
    (hd.1 ▸ lenOf_lt s .dat)
  refine ⟨u, hu, huok, hud.1.trans hd.1.symm, fun k hk => ?_, ?_, fun k v hk hv => ?_⟩
  · rw [hd.1] at hk
    exact (hud.2 k hk).trans (hd.2 k hk).symm
  · rw [huh.1, List.length_map, hh.1]
  · rw [hh.1] at hk
    rw [hh.2 k hk] at hv
    rw [huh.2 k (by rwa [List.length_map]), List.getElem?_map, hv, lower_eq_fold]
    rfl

end Sys2Proof.Proofs

/-!
PROOFS. ENCODE and DECODE read no register but the lengths (R182, R196, R264): over known buffers, two states that differ in
the other registers come to the same end.
-/

namespace Sys2Proof.Proofs

open Sys2Proof Sys2Proof.Machine Sys2Proof.Laws Sys2Proof.Claims

/-- The state `s` with the registers of `r`, but for the lengths. -/
def withRegisters (s r : State) : State :=
  { s with chk := r.chk, acc := r.acc, bits := r.bits, cfg := r.cfg, cks := r.cks }

theorem withRegisters_holds {s : State} {b : Buf} {xs : List Byte} (h : s.Holds b xs) (r : State) :
    (withRegisters s r).Holds b xs := holds_congr rfl rfl h

theorem lenOf_raise (s : State) (f : Failure) (b : Buf) : (s.raise f).lenOf b = s.lenOf b := rfl

theorem element_raise (s : State) (f : Failure) (b : Buf) (k : Nat) : (s.raise f).element b k = s.element b k := rfl

theorem not_failed_respond (s : State) (d : BitVec 30) : ¬ Failed (s.respond d) := by
  rintro ⟨_, ⟨⟩, hE⟩
  simp [successWord] at hE

/-! ### ENCODE -/

/-- ENCODE ends alike in two states, but for `CFG` and what a failure leaves unspecified. -/
def EncodesAlike (s s' : State) : Prop :=
  ∃ t t', exec .encode s = .next t ∧ exec .encode s' = .next t' ∧
    t'.resp = t.resp ∧ (Succeeded t → t.cfg = s.cfg ∧ t' = { t with cfg := s'.cfg }) ∧
    (Failed t → t.cfg = s.cfg ∧ t'.cfg = s'.cfg ∧ (∀ b, t'.lenOf b = t.lenOf b) ∧
      ∀ b k, b = .hrp ∨ b = .dat → t.element b k = s.element b k ∧ t'.element b k = s.element b k)

/-- A failing ENCODE sets two lengths (R241). -/
theorem encodeFailed_len (s : State) : s.encodeFailed.len = (s.len.set .str 0#14).set .sym 0#14 := by
  simp [State.encodeFailed]

theorem encodeFailed_element {b : Buf} (hb : b = .hrp ∨ b = .dat) (s : State) (k : Nat) :
    s.encodeFailed.element b k = s.element b k := by
  obtain rfl | rfl := hb <;> simp [State.encodeFailed, State.element]

theorem encodeFailed_cfg (s : State) : s.encodeFailed.cfg = s.cfg := (Frame.refl .encode s).encodeFailed.cfg rfl

section
variable {s r : State}

theorem encodesAlike_fails {f : Failure} (e : exec .encode s = .next (s.encodeFailed.raise f))
    (e' : exec .encode (withRegisters s r) = .next ((withRegisters s r).encodeFailed.raise f)) :
    EncodesAlike s (withRegisters s r) := by
  refine ⟨_, _, e, e', rfl, fun hok => absurd hok (not_succeeded_raise _ f), fun _ => ?_⟩
  have hlen := (encodeFailed_len (withRegisters s r)).trans (encodeFailed_len s).symm
  simp only [raise_cfg, lenOf_raise, element_raise]
  exact ⟨encodeFailed_cfg s, encodeFailed_cfg (withRegisters s r), lenOf_congr hlen, fun _ k hb =>
    ⟨encodeFailed_element hb s k, encodeFailed_element hb (withRegisters s r) k⟩⟩

theorem encodesAlike_delivers {h ds : List Byte} {m T : Nat} {d : BitVec 30}
    (e : exec .encode s = .next ((s.encodeResults h ds m T).respond d))
    (e' : exec .encode (withRegisters s r) = .next (((withRegisters s r).encodeResults h ds m T).respond d)) :
    EncodesAlike s (withRegisters s r) :=
  ⟨_, _, e, e', rfl, fun _ => ⟨rfl, rfl⟩, fun hfail => absurd hfail (not_failed_respond _ d)⟩

/-- The capacity, the HRP and the payload tell the end of ENCODE. -/
theorem encodesAlike {hrp dat : List Byte} (hh : s.Holds .hrp hrp) (hd : s.Holds .dat dat) :
    EncodesAlike s (withRegisters s r) := by
  have hh' := withRegisters_holds hh r
  have hd' := withRegisters_holds hd r
  cases encodeEnds s.config.cap hrp (s.lenOf .dat) with
  | emptyHrp h =>
    rw [← hh.1] at h
    exact encodesAlike_fails (execEncode_emptyHrp h) (execEncode_emptyHrp h)
  | tooLong h hT =>
    rw [← hh.1] at h hT
    exact encodesAlike_fails (execEncode_tooLong h hT) (execEncode_tooLong h hT)
  | unprintable h hT hbad =>
    rw [← hh.1] at h hT
    exact encodesAlike_fails (execEncode_unprintable hh h hT hbad) (execEncode_unprintable hh' h hT hbad)
  | delivers h hT hp =>
    rw [hd.1] at hT
    obtain ⟨ds, hconv, -⟩ := convert_payload dat
    exact encodesAlike_delivers (execEncode_delivers_written hh hd h hT hp hconv)
      (execEncode_delivers_written hh' hd' h hT hp hconv)

end

/-! ### DECODE -/

/-- DECODE ends alike in two states, but for `CFG`, `CKS` and what a failure leaves unspecified. -/
def DecodesAlike (s s' : State) : Prop :=
  ∃ t t', exec .decode s = .next t ∧ exec .decode s' = .next t' ∧
    t'.resp = t.resp ∧
    (Succeeded t → t.cfg = s.cfg ∧ t.cks = s.cks ∧ t' = { t with cfg := s'.cfg, cks := s'.cks }) ∧
    (Failed t → t.cfg = s.cfg ∧ t'.cfg = s'.cfg ∧ t.cks = s.cks ∧ t'.cks = s'.cks ∧
      (∀ b, t'.lenOf b = t.lenOf b) ∧
      ∀ k, t.element .str k = s.element .str k ∧ t'.element .str k = s.element .str k)

/-- A failing DECODE sets three lengths (R241). -/
theorem decodeFailed_len (s : State) :
    s.decodeFailed.len = ((s.len.set .hrp 0#14).set .dat 0#14).set .sym 0#14 := by
  simp [State.decodeFailed]

theorem decodeFailed_element_str (s : State) (k : Nat) : s.decodeFailed.element .str k = s.element .str k := by
  simp [State.decodeFailed, State.element]

theorem decodeFailed_cfg (s : State) : s.decodeFailed.cfg = s.cfg := (Frame.refl .decode s).decodeFailed.cfg rfl

theorem decodeFailed_cks (s : State) : s.decodeFailed.cks = s.cks := (Frame.refl .decode s).decodeFailed.cks rfl

section
variable {s r : State}

theorem decodesAlike_fails {f : Failure} (e : exec .decode s = .next (s.decodeFailed.raise f))
    (e' : exec .decode (withRegisters s r) = .next ((withRegisters s r).decodeFailed.raise f)) :
    DecodesAlike s (withRegisters s r) := by
  refine ⟨_, _, e, e', rfl, fun hok => absurd hok (not_succeeded_raise _ f), fun _ => ?_⟩
  have hlen := (decodeFailed_len (withRegisters s r)).trans (decodeFailed_len s).symm
  simp only [raise_cfg, raise_cks, lenOf_raise, element_raise]
  exact ⟨decodeFailed_cfg s, decodeFailed_cfg (withRegisters s r), decodeFailed_cks s,
    decodeFailed_cks (withRegisters s r), lenOf_congr hlen, fun k =>
    ⟨decodeFailed_element_str s k, decodeFailed_element_str (withRegisters s r) k⟩⟩

/-- The string tells the end of DECODE. -/
theorem decodesAlike {str : List Byte} (hs : s.Holds .str str) : DecodesAlike s (withRegisters s r) := by
  have hs' := withRegisters_holds hs r
  cases hp : firstUnprintable str 0 with
  | some kc => exact decodesAlike_fails (execDecode_unprintable hs hp) (execDecode_unprintable hs' hp)
  | none =>
    cases e : decodeString (str.map fold) with
    | error f => exact decodesAlike_fails (execDecode_fails hs hp e) (execDecode_fails hs' hp e)
    | ok d =>
      exact ⟨_, _, execDecode_delivers hs hp e, execDecode_delivers hs' hp e, rfl, fun _ => ⟨rfl, rfl, rfl⟩,
        fun hfail => absurd hfail (not_failed_respond _ _)⟩

end

/-- Settles O49: the ends of both commands are told by the capacity and the buffers they read, and what they leave takes no
register from the state before but those that the statement names. -/
theorem encodeAndDecodeIgnoreRegisters : Obligations.EncodeAndDecodeIgnoreRegisters := by
  unfold Obligations.EncodeAndDecodeIgnoreRegisters
  intro s s' hs'
  obtain ⟨r, rfl⟩ : ∃ r, s' = withRegisters s r := ⟨s', hs'⟩
  refine ⟨fun hh hd => ?_, fun hs => ?_⟩
  · obtain ⟨hrp, hh⟩ := written_holds hh
    obtain ⟨dat, hd⟩ := written_holds hd
    exact encodesAlike hh hd
  · obtain ⟨str, hs⟩ := written_holds hs
    exact decodesAlike hs

end Sys2Proof.Proofs

/-!
PROOFS. DECODE on a string that is known (R190 to R202): the string taken apart at its last separator, the ends of the five
steps, the state that a success leaves, and that the case of the string's letters has no part in any of it.
-/

namespace Sys2Proof.Proofs

open Sys2Proof Sys2Proof.Machine Sys2Proof.Laws Sys2Proof.Claims

/-! ### Step 2: the last separator (R193) -/

theorem lastOne_split {f : List Byte} {p : Nat} (h : LastOne f p) :
    f = f.take p ++ separator :: f.drop (p + 1) ∧ separator ∉ f.drop (p + 1) := by
  obtain ⟨hp, hlast⟩ := h
  obtain ⟨hlt, hsep⟩ := List.getElem?_eq_some_iff.1 hp
  refine ⟨?_, fun hmem => ?_⟩
  · rw [separator, ← hsep, List.getElem_cons_drop, List.take_append_drop]
  · obtain ⟨j, hj⟩ := List.mem_iff_getElem?.1 hmem
    rw [List.getElem?_drop] at hj
    exact hlast (p + 1 + j) (by omega) hj

theorem lastSeparator_of_lastOne {f : List Byte} {p : Nat} (h : LastOne f p) : lastSeparator f 0 none = some p := by
  obtain ⟨hsplit, hbody⟩ := lastOne_split h
  obtain ⟨hlt, -⟩ := List.getElem?_eq_some_iff.1 h.1
  have hlast := lastSeparator_append (f.take p) hbody 0 none
  rwa [← hsplit, Nat.zero_add, List.length_take_of_le hlt.le] at hlast

theorem decodeString_noSeparator {f : List Byte} (h : separator ∉ f) :
    decodeString f = .error ⟨.noSeparator, 0#14, 0#8⟩ := by
  rw [decodeString, lastSeparator_of_notMem h]

theorem decodeString_separatorFirst {f : List Byte} (h : LastOne f 0) :
    decodeString f = .error ⟨.separatorFirst, 0#14, 0#8⟩ := by
  simp only [decodeString, lastSeparator_of_lastOne h, if_true]

section
variable {f : List Byte} {p : Nat} (h : LastOne f p)
include h

theorem decodeString_shortBody (hp : 0 < p) (hK : f.length - 1 - p < 6) :
    decodeString f = .error (failureAt .shortBody p (f.length - 1 - p)) := by
  simp only [decodeString, lastSeparator_of_lastOne h, hp.ne', hK, if_false, if_true]

theorem decodeString_body (hp : 0 < p) (hK : 6 ≤ f.length - 1 - p) :
    decodeString f = decodeBody (f.take p) (f.drop (p + 1)) (p + 1) := by
  simp only [decodeString, lastSeparator_of_lastOne h, hp.ne', Nat.not_lt_of_le hK, if_false]

end

/-! ### Step 3: the alphabet (R194) -/

/-- The mapping ends at the first character outside the alphabet. -/
theorem mapCharacters_append {pre : List Byte} (h : ∀ x ∈ pre, x.toNat ∈ alphabetCodes) {v : Byte}
    (hv : v.toNat ∉ alphabetCodes) (post : List Byte) (k : Nat) :
    mapCharacters (pre ++ v :: post) k = .error ⟨.badChar, BitVec.ofNat 14 (k + pre.length), v⟩ := by
  induction pre generalizing k with
  | nil => simp only [List.nil_append, mapCharacters, revLookup_eq_none_iff.2 hv, List.length_nil, Nat.add_zero]
  | cons x pre ih =>
    obtain ⟨hx, hpre⟩ := List.forall_mem_cons.1 h
    obtain ⟨b, rfl⟩ := mem_alphabetCodes_iff.1 hx
    simp only [List.cons_append, mapCharacters, revLookup_alphaChar, ih hpre]
    rw [List.length_cons, Nat.add_right_comm, Nat.add_assoc]

theorem decodeBody_badChar {body : List Byte} {k : Nat} {v : Byte}
    (hbad : LowestBad (fun x => x.toNat ∉ alphabetCodes) body k v) (h : List Byte) (n : Nat) :
    decodeBody h body n = .error ⟨.badChar, BitVec.ofNat 14 (n + k), v⟩ := by
  obtain ⟨pre, post, rfl, rfl, hv, hpre⟩ := lowestBad_split hbad
  rw [decodeBody, mapCharacters_append (fun x hx => not_not.1 (hpre x hx)) hv]

/-- Characters are known by their codes. -/
theorem eq_map_alphaChar {body : List Byte} {syms : List (BitVec 5)}
    (h : body.map BitVec.toNat = syms.map (fun b => alphabetCodes.getD b.toNat 0)) : body = syms.map alphaChar := by
  refine List.map_injective_iff.2 (fun _ _ => BitVec.eq_of_toNat_eq) (h.trans ?_)
  rw [List.map_map]
  exact List.map_congr_left fun b _ => alphabetCodes_getD b

/-- Behind its last separator the string spells at least six symbols: step 2 succeeds, and step 3 sees their characters. -/
theorem decodeString_symbols {f : List Byte} {p : Nat} {syms : List (BitVec 5)} (h : LastOne f p) (hp : 0 < p)
    (hn : 6 ≤ syms.length)
    (hcodes : (f.drop (p + 1)).map BitVec.toNat = syms.map (fun b => alphabetCodes.getD b.toNat 0)) :
    decodeString f = decodeBody (f.take p) (syms.map alphaChar) (p + 1) := by
  have hlen := congrArg List.length hcodes
  simp only [List.length_map, List.length_drop] at hlen
  rw [decodeString_body h hp (by omega), eq_map_alphaChar hcodes]

/-! ### Steps 4 and 5: the checksum and the strict conversion (R195, R196) -/

theorem asElements_eq (syms : List (BitVec 5)) : asElements syms = syms.map zext8 :=
  List.map_congr_left fun x _ => BitVec.ofNat_toNat 8 x

theorem feed_expansion_eq (h : List Byte) (syms : List (BitVec 5)) :
    feed 1#30 (expansion h ++ syms) = polymod (expand h ++ syms) := by
  rw [expansion_eq]
  rfl

section
variable {h : List Byte} {syms : List (BitVec 5)} (k : Nat)

theorem decodeBody_invalidChecksum (hchk : feed 1#30 (expansion h ++ syms) ≠ 1#30) :
    decodeBody h (syms.map alphaChar) k = .error ⟨.invalidChecksum, 0#14, 0#8⟩ := by
  rw [feed_expansion_eq] at hchk
  simp only [decodeBody, mapCharacters_alphaChar, if_pos hchk]

variable {D : Nat} (hD : syms.length = D + 6) (hchk : feed 1#30 (expansion h ++ syms) = 1#30)
include hD hchk

theorem decodeBody_convertFails {e : ConvError} (hconv : convert 5 8 false (asElements (syms.take D)) = .error e) :
    decodeBody h (syms.map alphaChar) k = .error (decodeConvFailure e) := by
  rw [feed_expansion_eq] at hchk
  rw [asElements_eq] at hconv
  simp only [decodeBody, mapCharacters_alphaChar, hchk, ne_eq, not_true, if_false, hD, Nat.add_sub_cancel, hconv]

theorem decodeBody_delivers {payload : List Byte} (hconv : convert 5 8 false (asElements (syms.take D)) = .ok payload) :
    decodeBody h (syms.map alphaChar) k = .ok ⟨h, syms, 1#30, payload⟩ := by
  rw [feed_expansion_eq] at hchk
  rw [asElements_eq] at hconv
  simp only [decodeBody, mapCharacters_alphaChar, hchk, ne_eq, not_true, if_false, hD, Nat.add_sub_cancel, hconv]

end

/-! ### The ends of DECODE that raise an error -/

theorem map_lower_eq (xs : List Byte) : xs.map lower = xs.map fold := List.map_congr_left fun x _ => lower_eq_fold x

section
variable {s : State} {str : List Byte} (hs : s.Holds .str str) (hp : ∀ x ∈ str, Printable x)
include hs hp

/-- A printable string in which a step from 2 on fails. -/
theorem execDecode_printable_fails {e : Failure} (he : decodeString (str.map lower) = .error e) :
    exec .decode s = .next (s.decodeFailed.raise e) :=
  execDecode_fails hs (firstUnprintable_eq_none hp 0) (map_lower_eq str ▸ he)

/-- A printable string in which every step succeeds. -/
theorem execDecode_printable_delivers {r : Decoded} (he : decodeString (str.map lower) = .ok r) :
    exec .decode s = .next ((s.decodeResults r).respond (data30 ((r.hrp.length <<< 14) ||| r.payload.length))) :=
  execDecode_delivers hs (firstUnprintable_eq_none hp 0) (map_lower_eq str ▸ he)

end

/-- Settles O50: the range check finds the lowest unprintable character. -/
theorem decodeChecksRangeFirst : Obligations.DecodeChecksRangeFirst := by
  unfold Obligations.DecodeChecksRangeFirst
  exact fun s str k v hs hbad => ⟨_, execDecode_unprintable hs (firstUnprintable_lowestBad hbad), rfl⟩

/-- Settles O51: the three ends of step 2. -/
theorem decodeLocatesSeparator : Obligations.DecodeLocatesSeparator := by
  unfold Obligations.DecodeLocatesSeparator
  rintro s str f hs hp rfl
  exact ⟨fun h => ⟨_, execDecode_printable_fails hs hp (decodeString_noSeparator h), rfl⟩,
    fun h => ⟨_, execDecode_printable_fails hs hp (decodeString_separatorFirst h), rfl⟩,
    fun p h hpos hK => ⟨_, execDecode_printable_fails hs hp (decodeString_shortBody h hpos hK), rfl⟩⟩

/-- Settles O52: step 3 ends at the first character that is not in the alphabet. -/
theorem decodeMapsCharacters : Obligations.DecodeMapsCharacters := by
  unfold Obligations.DecodeMapsCharacters
  rintro s str f p k v hs hp rfl h hpos hK hbad
  have he := (decodeString_body h hpos hK).trans (decodeBody_badChar hbad _ _)
  exact ⟨_, execDecode_printable_fails hs hp he, rfl⟩

/-- Settles O53: step 3 gives the symbols, whose polymod step 4 compares with 1. -/
theorem decodeVerifiesChecksum : Obligations.DecodeVerifiesChecksum := by
  unfold Obligations.DecodeVerifiesChecksum
  rintro s str f p syms hs hp rfl h hpos hn hcodes hchk
  have he := (decodeString_symbols h hpos hn hcodes).trans (decodeBody_invalidChecksum _ hchk)
  exact ⟨_, execDecode_printable_fails hs hp he, rfl⟩

/-- Settles O54: the strict conversion of the data symbols, in closed form. -/
theorem decodeConvertsStrictly : Obligations.DecodeConvertsStrictly := by
  unfold Obligations.DecodeConvertsStrictly
  rintro s str f p D N r syms hs hp rfl h hpos hD hcodes hchk hr rfl
  have hfits : Fits 5 (asElements (syms.take D)) := fun v hv => Nat.lt_succ_of_le (asElements_fits _ v hv)
  have hlen : (asElements (syms.take D)).length * 5 % 8 = r := by
    rw [asElements, List.length_map, List.length_take_of_le (by omega), Nat.mul_comm, hr]
  have hfails {e : ConvError} (he : convert 5 8 false (asElements (syms.take D)) = .error e) :=
    execDecode_printable_fails hs hp
      ((decodeString_symbols h hpos (by omega) hcodes).trans (decodeBody_convertFails _ hD hchk he))
  refine ⟨fun h5 => ?_, fun h5 hne => ?_⟩
  · rw [← hlen] at h5 ⊢
    exact ⟨_, hfails (convert_strict_residual (by decide) hfits h5), rfl⟩
  · rw [← hlen] at h5 hne ⊢
    rw [← leftOver_eq (by decide)]
    exact ⟨_, hfails (convert_strict_nonzero (by decide) hfits h5 fun hz => hne ((leftOver_eq_zero_iff (by decide)).1 hz)),
      rfl⟩

/-! ### The state that a success leaves (R197, R198) -/

section
variable (s : State) (r : Decoded)

theorem decodeResults_lenOf (hh : r.hrp.length < 2 ^ 14) (hd : r.payload.length < 2 ^ 14)
    (hs : r.syms.length - 6 < 2 ^ 14) (b : Buf) :
    (s.decodeResults r).lenOf b =
      if b = .hrp then r.hrp.length else if b = .dat then r.payload.length
      else if b = .sym then r.syms.length - 6 else s.lenOf b := by
  have hsym := lenOf_setLen s .sym b (r.syms.length - 6)
  have hdat := lenOf_setLen (s.setLen .sym (r.syms.length - 6)) .dat b r.payload.length
  have hhrp := lenOf_setLen ((s.setLen .sym (r.syms.length - 6)).setLen .dat r.payload.length) .hrp b r.hrp.length
  rw [Nat.mod_eq_of_lt hs] at hsym
  rw [Nat.mod_eq_of_lt hd, hsym] at hdat
  rw [Nat.mod_eq_of_lt hh, hdat] at hhrp
  exact hhrp

theorem decodeResults_element (b : Buf) (k : Nat) :
    (s.decodeResults r).element b k =
      if b = .hrp ∧ k < r.hrp.length then r.hrp[k]?
      else if b = .dat ∧ k < r.payload.length then r.payload[k]?
      else if b = .sym ∧ k < r.syms.length then (asElements r.syms)[k]?
      else s.element b k := by
  have hsym := element_writeSeq s .sym b 0 k (asElements r.syms)
  have hdat := element_writeSeq (s.writeSeq .sym 0 (asElements r.syms)) .dat b 0 k r.payload
  have hhrp := element_writeSeq ((s.writeSeq .sym 0 (asElements r.syms)).writeSeq .dat 0 r.payload) .hrp b 0 k r.hrp
  simp only [Nat.zero_le, true_and, Nat.zero_add, Nat.sub_zero] at hsym hdat hhrp
  rw [hdat, hsym, asElements_eq, List.length_map] at hhrp
  rw [asElements_eq]
  exact hhrp

end

/-- The two lengths of the answer, side by side (R197). -/
theorem decodeData_eq {n : Nat} (hn : n < 2 ^ 14) (p : Nat) : data30 (p <<< 14 ||| n) = BitVec.ofNat 30 (2 ^ 14 * p + n) := by
  rw [data30, Nat.shiftLeft_eq, Nat.mul_comm, or_eq_add 14 hn (Nat.dvd_mul_right ..)]

/-- Settles O55: all five steps succeed, and what is written are their results. -/
theorem decodeDeliversHrpAndPayload : Obligations.DecodeDeliversHrpAndPayload := by
  unfold Obligations.DecodeDeliversHrpAndPayload
  refine ⟨decodesAs_row (k := 24) rfl, ?_⟩
  rintro s str f payload p D syms - hs hp rfl h hpos hD hcodes hchk hconv
  have hdecoded := (decodeString_symbols h hpos (by omega) hcodes).trans (decodeBody_delivers _ hD hchk hconv)
  obtain ⟨hhrp, hsyms, hdat⟩ := decodeString_lengths hdecoded
  have hstr : (str.map lower).length < 2 ^ 14 := by rw [List.length_map, ← hs.1]; exact lenOf_lt s .str
  have hp_le : p ≤ (str.map lower).length := (List.getElem?_eq_some_iff.1 h.1).1.le
  have htake : ((str.map lower).take p).length = p := List.length_take_of_le hp_le
  have hrun := execDecode_printable_delivers hs hp hdecoded
  rw [htake, decodeData_eq (by omega)] at hrun
  refine ⟨_, hrun, ?_, rfl, fun b => ?_, fun b k => ?_⟩
  · rw [convert_length (by decide) hconv, asElements, List.length_map, List.length_take_of_le (by omega), if_neg (by decide),
      Nat.mul_comm]
  · rw [lenOf_respond, decodeResults_lenOf _ _ (by omega) (by omega) (by omega)]
    simp only [htake, hD, Nat.add_sub_cancel]
    cases b <;> rfl
  · rw [element_respond, decodeResults_element, htake, hD]
    by_cases hb : b = .hrp ∧ k < p
    · rw [if_pos hb, if_pos hb, List.getElem?_take_of_lt hb.2]
    · rw [if_neg hb, if_neg hb]

/-! ### Folding has no part in what DECODE does (R201) -/

theorem printable_lower_iff (c : Byte) : Printable (lower c) ↔ Printable c := by
  by_cases hc : 0x41 ≤ c.toNat ∧ c.toNat ≤ 0x5A
  · rw [Printable, Printable, lower_toNat_of_upper hc]
    omega
  · rw [lower, if_neg hc]

theorem lower_of_unprintable {c : Byte} (h : ¬ Printable c) : lower c = c :=
  if_neg fun hc => h ⟨by omega, by omega⟩

/-- The range check may as well look at the folded string. -/
theorem firstUnprintable_map_lower (xs : List Byte) (k : Nat) : firstUnprintable (xs.map lower) k = firstUnprintable xs k := by
  induction xs generalizing k with
  | nil => rfl
  | cons x xs ih =>
    by_cases hx : Printable x
    · exact (if_pos ((printable_lower_iff x).2 hx)).trans ((ih (k + 1)).trans (if_pos hx).symm)
    · rw [List.map_cons, lower_of_unprintable hx]
      exact (if_neg hx).trans (if_neg hx).symm

/-- The state `s` with other elements in STR. -/
def withStr (s : State) (m : Memory) : State := { s with mem := { s.mem with str := m } }

/-- DECODE ends alike in two states, but for the elements of STR and what a failure leaves unspecified. -/
def DecodesAlikeButStr (s s' : State) : Prop :=
  ∃ t t', exec .decode s = .next t ∧ exec .decode s' = .next t' ∧ t'.resp = t.resp ∧
    (Succeeded t → t' = { t with mem := { t.mem with str := s'.mem.str } }) ∧
    (Failed t → (∀ b, t'.lenOf b = t.lenOf b) ∧ t.cfg = s.cfg ∧ t'.cfg = s.cfg ∧ t.cks = s.cks ∧ t'.cks = s.cks ∧
      ∀ k, t.element .str k = s.element .str k ∧ t'.element .str k = s'.element .str k)

section
variable {s : State} {m : Memory}

theorem decodesAlikeButStr_fails {f : Failure} (e : exec .decode s = .next (s.decodeFailed.raise f))
    (e' : exec .decode (withStr s m) = .next ((withStr s m).decodeFailed.raise f)) :
    DecodesAlikeButStr s (withStr s m) := by
  refine ⟨_, _, e, e', rfl, fun hok => absurd hok (not_succeeded_raise _ f), fun _ => ?_⟩
  have hlen := (decodeFailed_len (withStr s m)).trans (decodeFailed_len s).symm
  simp only [raise_cfg, raise_cks, lenOf_raise, element_raise]
  exact ⟨lenOf_congr hlen, decodeFailed_cfg s, decodeFailed_cfg (withStr s m), decodeFailed_cks s,
    decodeFailed_cks (withStr s m), fun k =>
    ⟨decodeFailed_element_str s k, decodeFailed_element_str (withStr s m) k⟩⟩

theorem decodesAlikeButStr_delivers {r : Decoded} {d : BitVec 30}
    (e : exec .decode s = .next ((s.decodeResults r).respond d))
    (e' : exec .decode (withStr s m) = .next (((withStr s m).decodeResults r).respond d)) :
    DecodesAlikeButStr s (withStr s m) :=
  ⟨_, _, e, e', rfl, fun _ => rfl, fun hfail => absurd hfail (not_failed_respond _ d)⟩

/-- The fold of the string tells the end of DECODE. -/
theorem decodesAlikeButStr {str str' : List Byte} (hs : s.Holds .str str) (hs' : (withStr s m).Holds .str str')
    (hfold : str.map lower = str'.map lower) : DecodesAlikeButStr s (withStr s m) := by
  have hrange : firstUnprintable str' 0 = firstUnprintable str 0 := by
    rw [← firstUnprintable_map_lower, ← hfold, firstUnprintable_map_lower]
  rw [map_lower_eq, map_lower_eq] at hfold
  cases hp : firstUnprintable str 0 with
  | some kc =>
    exact decodesAlikeButStr_fails (execDecode_unprintable hs hp) (execDecode_unprintable hs' (hrange.trans hp))
  | none =>
    have hp' := hrange.trans hp
    cases e : decodeString (str.map fold) with
    | error f =>
      have e' : decodeString (str'.map fold) = .error f := by rw [← hfold, e]
      exact decodesAlikeButStr_fails (execDecode_fails hs hp e) (execDecode_fails hs' hp' e')
    | ok r =>
      have e' : decodeString (str'.map fold) = .ok r := by rw [← hfold, e]
      exact decodesAlikeButStr_delivers (execDecode_delivers hs hp e) (execDecode_delivers hs' hp' e')

end

/-- Settles O56: neither the range check nor the later steps see more of the string than its fold. -/
theorem decodeIgnoresCase : Obligations.DecodeIgnoresCase := by
  unfold Obligations.DecodeIgnoresCase
  intro s s' str str' hs hs' hfold heq
  obtain ⟨m, rfl⟩ : ∃ m, s' = withStr s m := ⟨s'.mem.str, heq⟩
  exact decodesAlikeButStr hs hs' hfold

end Sys2Proof.Proofs

/-!
PROOFS. SRST, LD, ST, GETLEN, SETLEN (spec/45_buffer_and_system.md R210 to R214): their encodings by their rows of the opcode
map, the two branches of each operand check, and what one write leaves of the other elements and lengths.
-/

namespace Sys2Proof.Proofs

open Sys2Proof Sys2Proof.Machine Sys2Proof.Laws Sys2Proof.Claims

/-! ### The encodings (R29, R73) -/

/-- The buffer numbers of R29 are those that the decoder reads. -/
theorem bufNamed_eq_bufOfCode : bufNamed = bufOfCode :=
  funext (by decide : ∀ c, bufNamed c = bufOfCode c)

/-! ### SRST (R214) -/

/-- Settles O16: what SRST leaves has the fields of the reset state, whose values O12 gives. -/
theorem srstRestoresReset : Obligations.SrstRestoresReset := by
  unfold Obligations.SrstRestoresReset
  refine ⟨decodesAs_row (k := 0) rfl, fun s => ?_⟩
  obtain ⟨-, -, -, -, -, -, -, hlen, hcks, hmem⟩ := resetValues
  exact ⟨s.resetBlock.respond 0#30, rfl, rfl, rfl, rfl, rfl, rfl, hlen, hcks, hmem⟩

/-! ### LD and ST (R210, R211) -/

/-- LD of an element that exists answers what one read of it gives, and leaves what the read leaves. -/
theorem exec_ld_inside {s : State} {idx : BitVec 14} (h : idx.toNat < s.config.cap) (b : Buf) :
    exec (.ld b idx) s = .next ((s.memRead b idx.toNat).2.respond (zext30 (s.memRead b idx.toNat).1)) := if_pos h

/-- Settles O17: the index check; then the one read, of a known element or of a free value. -/
theorem ldReadsElement : Obligations.LdReadsElement := by
  unfold Obligations.LdReadsElement
  rw [bufNamed_eq_bufOfCode]
  refine ⟨decodesAs_row (k := 1) rfl, fun s b idx => ⟨fun h => if_neg (Nat.not_lt_of_le h), fun h v hv => ?_,
    fun h hv => ?_⟩⟩
  · rw [exec_ld_inside h, memRead_known hv]
    rfl
  · rw [exec_ld_inside h, memRead_free hv]
    exact ⟨_, _, rfl⟩

theorem exec_st_inside {s : State} {idx : BitVec 14} (h : idx.toNat < s.config.cap) (b : Buf) (v : Byte) :
    exec (.st b idx v) s = .next ((s.memWrite b idx.toNat v).respond 0#30) := if_pos h

/-- Settles O18: the index check; then the one write, which leaves every other element. -/
theorem stWritesElement : Obligations.StWritesElement := by
  unfold Obligations.StWritesElement
  rw [bufNamed_eq_bufOfCode]
  refine ⟨decodesAs_row (k := 2) rfl, fun s b idx v => ⟨fun h => if_neg (Nat.not_lt_of_le h), fun h => ?_⟩⟩
  exact ⟨_, exec_st_inside h b v, rfl, fun b' k => element_memWrite s b b' idx.toNat k v⟩

/-! ### GETLEN and SETLEN (R212, R213) -/

/-- Settles O19: the length register is the number that `lenOf` reads. -/
theorem getlenReadsLength : Obligations.GetlenReadsLength := by
  unfold Obligations.GetlenReadsLength
  rw [bufNamed_eq_bufOfCode]
  refine ⟨decodesAs_row (k := 3) rfl, fun s b => ?_⟩
  have hdata : BitVec.ofNat 30 (s.lenOf b) = zext30 (s.len.get b) := BitVec.ofNat_toNat 30 _
  rw [hdata]
  rfl

theorem exec_setlen_inside {s : State} {n : BitVec 14} (h : n.toNat ≤ s.config.cap) (b : Buf) :
    exec (.setlen b n) s = .next ((s.setLen b n.toNat).respond 0#30) := if_pos h

/-- Settles O20: the range check; then the one length, which holds every 14-bit number. -/
theorem setlenWritesLength : Obligations.SetlenWritesLength := by
  unfold Obligations.SetlenWritesLength
  rw [bufNamed_eq_bufOfCode]
  refine ⟨decodesAs_row (k := 4) rfl, fun s b n => ⟨fun h => if_neg (Nat.not_le_of_lt h), fun h => ?_⟩⟩
  refine ⟨_, exec_setlen_inside h b, rfl, fun b' => ?_⟩
  rw [lenOf_respond, lenOf_setLen, Nat.mod_eq_of_lt n.isLt]

end Sys2Proof.Proofs

/-!
PROOFS. Failures (spec/60_exceptions.md): which pairs of a kind and a sub-code occur (R231), which kinds ENCODE and DECODE
report (R232), and what a failing command leaves (R240, R241).
-/

namespace Sys2Proof.Proofs

open Sys2Proof Sys2Proof.Machine Sys2Proof.Laws Sys2Proof.Claims

/-! ### The pairs of R231 -/

theorem Answered.raised {t : State} (h : Answered (.next t)) (hf : Failed t) :
    ∃ (u : State) (f : Failure), t = u.raise f := by
  cases h with
  | respond u d => exact absurd hf (not_failed_respond u d)
  | raise u f => exact ⟨u, f, rfl⟩

/-- Each cause has one of the listed pairs in its failure word. -/
theorem failureWord_mem_errorPairs (f : Failure) :
    (((failureWord f).extractLsb' 28 3).toNat, ((failureWord f).extractLsb' 24 4).toNat) ∈ errorPairs := by
  obtain ⟨-, hkind, hsub, -⟩ := failureWordLayout f
  rw [hkind, hsub]
  cases f.cause <;> decide

/-- Settles O9: a command that fails has raised a failure, whose cause is one of the 19. -/
theorem onlyListedErrorsOccur : Obligations.OnlyListedErrorsOccur := by
  unfold Obligations.OnlyListedErrorsOccur
  intro i s t r ht hr hE
  have hans := exec_answered i s
  rw [ht] at hans
  obtain ⟨u, f, rfl⟩ := hans.raised ⟨r, hr, hE⟩
  obtain rfl := Option.some.inj hr
  exact failureWord_mem_errorPairs f

/-! ### What DECODE's steps can report (R190, R232) -/

/-- The kinds of DECODE. -/
def DecodeKind (k : Kind) : Prop := k = .invalidRange ∨ k = .decoding ∨ k = .invalidChecksum

theorem DecodeKind.decoding : DecodeKind .decoding := .inr (.inl rfl)

theorem mapCharacters_cause {cs : List Byte} {k : Nat} {f : Failure} (h : mapCharacters cs k = .error f) :
    f.cause = .badChar := by
  induction cs generalizing k with
  | nil => cases h
  | cons c cs ih =>
    unfold mapCharacters at h
    split at h
    · obtain rfl := Except.error.inj h
      rfl
    · split at h
      · rename_i e
        obtain rfl := Except.error.inj h
        exact ih e
      · cases h

/-- Symbols fit the five bits that the strict conversion takes of each. -/
theorem fits_zext8 (syms : List (BitVec 5)) : Fits 5 (syms.map zext8) := by
  intro x hx
  obtain ⟨v, -, rfl⟩ := List.mem_map.1 hx
  rw [zext8, BitVec.toNat_setWidth]
  exact (Nat.mod_le _ _).trans_lt v.isLt

/-- On symbols the strict conversion fails at its end only, with an error that DECODE reports as its own (R232). -/
theorem convert_symbols_kind {syms : List (BitVec 5)} {e : ConvError}
    (h : convert 5 8 false (syms.map zext8) = .error e) : causeKind (decodeConvFailure e).cause = .decoding := by
  rw [convert_fits (by decide) (fits_zext8 syms), if_neg (by decide)] at h
  split at h
  · obtain rfl := Except.error.inj h
    rfl
  · split at h
    · obtain rfl := Except.error.inj h
      rfl
    · cases h

theorem decodeBody_kind {h body : List Byte} {k : Nat} {f : Failure} (e : decodeBody h body k = .error f) :
    DecodeKind (causeKind f.cause) := by
  unfold decodeBody at e
  split at e
  · rename_i hmap
    obtain rfl := Except.error.inj e
    rw [mapCharacters_cause hmap]
    exact .decoding
  · dsimp only at e
    split at e
    · obtain rfl := Except.error.inj e
      exact .inr (.inr rfl)
    · split at e
      · rename_i hconv
        obtain rfl := Except.error.inj e
        rw [convert_symbols_kind hconv]
        exact .decoding
      · cases e

theorem decodeString_kind {str : List Byte} {f : Failure} (e : decodeString str = .error f) :
    DecodeKind (causeKind f.cause) := by
  unfold decodeString at e
  split at e
  · obtain rfl := Except.error.inj e
    exact .decoding
  · split at e
    · obtain rfl := Except.error.inj e
      exact .decoding
    · split at e
      · obtain rfl := Except.error.inj e
        exact .decoding
      · exact decodeBody_kind e

/-! ### How ENCODE and DECODE fail, over any buffers -/

/-- If the last command failed, it raised a failure in a state such that the two satisfy `P`. -/
def FailsAs (P : State → Failure → Prop) (t : State) : Prop := Failed t → ∃ u f, P u f ∧ t = u.raise f

theorem FailsAs.respond {P : State → Failure → Prop} (t : State) (d : BitVec 30) : FailsAs P (t.respond d) :=
  fun hf => absurd hf (not_failed_respond t d)

theorem FailsAs.raise {P : State → Failure → Prop} {u : State} {f : Failure} (h : P u f) : FailsAs P (u.raise f) :=
  fun _ => ⟨u, f, h, rfl⟩

/-- A failure of ENCODE, raised from `s`: up to it only free values have been drawn. -/
def EncodeRaises (s u : State) (f : Failure) : Prop :=
  causeKind f.cause = .encoding ∧ ∃ d, u = ({ s with draws := d } : State).encodeFailed

/-- A failure of DECODE, raised from `s`. -/
def DecodeRaises (s u : State) (f : Failure) : Prop :=
  DecodeKind (causeKind f.cause) ∧ ∃ d, u = ({ s with draws := d } : State).decodeFailed

/-- The three checks of R181 fail; the conversion of a payload does not. -/
theorem execEncode_failsAs (s : State) : Leaves (FailsAs (EncodeRaises s)) (execEncode s) := by
  obtain ⟨seen, d1, h1, -⟩ := readBuf_spec s .hrp
  obtain ⟨copy, d2, h2, -⟩ := readBuf_spec { s with draws := d1 } .hrp
  obtain ⟨dat, d3, h3, -⟩ := readBuf_spec { s with draws := d2 } .dat
  obtain ⟨ds, hconv, -⟩ := convert_payload dat
  refine .ite (fun _ => .next (.raise ⟨rfl, s.draws, rfl⟩)) fun _ =>
    .ite (fun _ => .next (.raise ⟨rfl, s.draws, rfl⟩)) fun _ => ?_
  simp only [h1, h2, h3, hconv]
  split
  · exact .next (.raise ⟨rfl, d1, rfl⟩)
  · exact .next (.respond _ _)

/-- The range check fails, or a later step. -/
theorem execDecode_failsAs (s : State) : Leaves (FailsAs (DecodeRaises s)) (execDecode s) := by
  obtain ⟨seen, d1, h1, -⟩ := readBuf_spec s .str
  obtain ⟨copy, d2, h2, -⟩ := readBuf_spec { s with draws := d1 } .str
  simp only [execDecode, h1, h2]
  split
  · exact .next (.raise ⟨.inl rfl, d1, rfl⟩)
  · split
    · rename_i f e
      exact .next (.raise ⟨decodeString_kind e, d2, rfl⟩)
    · exact .next (.respond _ _)

theorem failureWord_kind (f : Failure) : (failureWord f).extractLsb' 28 3 = kindCode (causeKind f.cause) :=
  (failureWordLayout f).2.1

/-- Settles O10: the kind in the failure word is that of the failure raised. -/
theorem kindsOfEncodeAndDecode : Obligations.KindsOfEncodeAndDecode := by
  unfold Obligations.KindsOfEncodeAndDecode
  refine ⟨fun s t r ht hr hE => ?_, fun s t r ht hr hE => ?_⟩
  · obtain ⟨u, f, ⟨hkind, -⟩, rfl⟩ := execDecode_failsAs s t ht ⟨r, hr, hE⟩
    obtain rfl := Option.some.inj hr
    rw [failureWord_kind]
    obtain h | h | h := hkind <;> rw [h] <;> decide
  · obtain ⟨u, f, ⟨hkind, -⟩, rfl⟩ := execEncode_failsAs s t ht ⟨r, hr, hE⟩
    obtain rfl := Option.some.inj hr
    rw [failureWord_kind, hkind]
    rfl

/-! ### A failing primitive command (R240) -/

/-- If the last command failed, all of the state but the response and the count of free values is as in `s`. -/
def KeepsIfFailed (s t : State) : Prop := Failed t → t = { s with draws := t.draws, resp := t.resp }

theorem KeepsIfFailed.respond (s t : State) (d : BitVec 30) : KeepsIfFailed s (t.respond d) :=
  fun hf => absurd hf (not_failed_respond t d)

theorem KeepsIfFailed.raise (s : State) (d : Nat) (f : Failure) :
    KeepsIfFailed s (({ s with draws := d } : State).raise f) := fun _ => rfl

/-- A command that checks its operands and raises its failure in the state before it. -/
theorem keepsIfFailed_ite {c : Prop} [Decidable c] (s t : State) (d : BitVec 30) (f : Failure) :
    Leaves (KeepsIfFailed s) (if c then .next (t.respond d) else .next (s.raise f)) :=
  .ite (fun _ => .next (.respond s t d)) fun _ => .next (.raise s s.draws f)

theorem execCvPush_keepsIfFailed (v : Byte) (s : State) : Leaves (KeepsIfFailed s) (execCvPush v s) := by
  unfold execCvPush
  split
  · exact .next (.respond s _ _)
  · rename_i t f e
    rw [pushGroup_fail e]
    exact .next (.raise s s.draws f)

/-- How a flush ends: with an error, raised after at most one draw of a free value (log 8); with nothing or with one group
appended, and the converter cleared. -/
inductive FlushEnds (s : State) : Res Nat → Prop
  | fails (d : Nat) (f : Failure) : FlushEnds s (.fail { s with draws := d } f)
  | clears (d : Nat) : FlushEnds s (.ok ({ s with draws := d } : State).clearConverter 0)
  | appends (d r : Nat) : FlushEnds s (.ok (flushed { s with draws := d } r) 1)

theorem flushGroup_ends (s : State) : FlushEnds s (flushGroup s) := by
  obtain ⟨r, d, hr, -, -⟩ := paddedResidual_spec s
  cases hp : s.cfg.pad with
  | true =>
    obtain hB | hB := Nat.eq_zero_or_pos s.bits.toNat
    · rw [flushGroup_padEmpty hp hB]
      exact .clears s.draws
    · obtain hfull | hroom := Nat.lt_or_ge s.config.cap (s.lenOf (dstBuf s.cfg) + 1)
      · rw [flushGroup_padFull hp hB hfull]
        exact .fails s.draws _
      · rw [flushGroup_padRoom hr hp hB hroom]
        exact .appends d r
  | false =>
    obtain hB | hB := Nat.lt_or_ge s.bits.toNat s.cfg.fromBits.toNat
    · obtain hz | hne := eq_or_ne r 0
      · rw [flushGroup_strictZero hr hp hB hz]
        exact .clears d
      · rw [flushGroup_strictNonzero hr hp hB hne]
        exact .fails d _
    · rw [flushGroup_strictResidual hp hB]
      exact .fails s.draws _

theorem flushGroup_fail {s t : State} {f : Failure} (h : flushGroup s = .fail t f) : ∃ d, t = { s with draws := d } := by
  have hends := flushGroup_ends s
  rw [h] at hends
  cases hends with
  | fails d f => exact ⟨d, rfl⟩

theorem execCvFlush_keepsIfFailed (s : State) : Leaves (KeepsIfFailed s) (execCvFlush s) := by
  unfold execCvFlush
  split
  · exact .next (.respond s _ _)
  · rename_i t f e
    obtain ⟨d, rfl⟩ := flushGroup_fail e
    exact .next (.raise s d f)

/-- Commands that write nothing keep the state by their frame; of the others, some cannot fail, and the rest raise their
failure before they write. -/
theorem exec_keepsIfFailed {i : Instr} (hi : isPrimitive i = true) (s : State) : Leaves (KeepsIfFailed s) (exec i s) := by
  cases i with
  | ld _ _ | getlen _ | cvRd | cvRdcfg | pmRd | ckRd _ | alEnc _ | alDec _ | alFold _ =>
    exact fun t ht _ => exec_frame _ s t ht
  | srst | cvInit | pmInit | pmStep _ => exact .next (.respond s _ _)
  | st _ _ _ | setlen _ _ | cvCfg _ _ _ _ => exact keepsIfFailed_ite s _ _ _
  | cvPush v => exact execCvPush_keepsIfFailed v s
  | cvFlush => exact execCvFlush_keepsIfFailed s
  | cvRun | pmHrp | pmSym | ckCreate | ckVerify | encode | decode => cases hi

/-- Settles O59: what every primitive command does. -/
theorem failingPrimitiveKeepsState : Obligations.FailingPrimitiveKeepsState := by
  unfold Obligations.FailingPrimitiveKeepsState
  intro i s t hi ht hf
  exact exec_keepsIfFailed hi s t ht hf

/-! ### A failing buffer-walking command (R241) -/

theorem encodeFailed_lenOf (s : State) (b : Buf) :
    s.encodeFailed.lenOf b = if b = .str ∨ b = .sym then 0 else s.lenOf b := by
  cases b <;> simp [State.lenOf, encodeFailed_len]

theorem encodeFailed_forgets (s : State) (b : Buf) (k : Nat) :
    s.encodeFailed.element b k = if b = .str ∨ b = .sym then none else s.element b k := by
  cases b <;> simp [State.element, State.encodeFailed]

theorem decodeFailed_lenOf (s : State) (b : Buf) :
    s.decodeFailed.lenOf b = if b = .str then s.lenOf .str else 0 := by
  cases b <;> simp [State.lenOf, decodeFailed_len]

theorem decodeFailed_forgets (s : State) (b : Buf) (k : Nat) :
    s.decodeFailed.element b k = if b = .str then s.element .str k else none := by
  cases b <;> simp [State.element, State.decodeFailed]

theorem runFailed_lenOf (s : State) (b : Buf) : s.runFailed.lenOf b = if b = dstBuf s.cfg then 0 else s.lenOf b :=
  lenOf_setLen s _ b 0

theorem runFailed_element (s : State) (b : Buf) (k : Nat) :
    s.runFailed.element b k = if b = dstBuf s.cfg then none else s.element b k :=
  element_forgetBuf s _ b k

/-- The converter in `t` selects its buffers as in `s`, and all buffers but the destination are as in `s`. -/
def KeepsOthers (s t : State) : Prop :=
  t.cfg = s.cfg ∧ ∀ b, b ≠ dstBuf s.cfg → t.len.get b = s.len.get b ∧ t.mem.get b = s.mem.get b

/-- Writing the length and the elements of the destination keeps the other buffers. -/
theorem KeepsOthers.write {s t u : State} (h : KeepsOthers s t) {n : BitVec 14} {m : Memory} (hcfg : u.cfg = t.cfg)
    (hlen : u.len = t.len.set (dstBuf t.cfg) n) (hmem : u.mem = t.mem.set (dstBuf t.cfg) m) : KeepsOthers s u := by
  obtain ⟨hsel, hbuf⟩ := h
  rw [hsel] at hlen hmem
  refine ⟨hcfg.trans hsel, fun b hb => ?_⟩
  rw [hlen, hmem, banks_get_set_ne _ _ hb, banks_get_set_ne _ _ hb]
  exact hbuf b hb

theorem KeepsOthers.initConverter {s t : State} (h : KeepsOthers s t) : KeepsOthers s t.initConverter :=
  h.write rfl rfl (banks_set_get t.mem _).symm

theorem pushGroup_keepsOthers {s : State} (t : State) (v : Byte) (h : KeepsOthers s t) :
    Ends (KeepsOthers s) (pushGroup t v) := by
  obtain ⟨-, e⟩ | ⟨-, e⟩ | ⟨-, -, acc, em, -, -, e⟩ := pushGroup_cases t v
  · rw [e]
    exact h
  · rw [e]
    exact h
  · rw [e]
    exact h.write rfl rfl rfl

theorem FlushEnds.keepsOthers {s t : State} {r : Res Nat} (hends : FlushEnds t r) (h : KeepsOthers s t) :
    Ends (KeepsOthers s) r := by
  cases hends with
  | fails d f => exact h
  | clears d => exact h
  | appends d r => exact h.write rfl rfl rfl

/-- What a failing CV.RUN leaves of the buffers. -/
def RunDiscards (s t : State) : Prop :=
  (∀ b, t.lenOf b = if b = dstBuf s.cfg then 0 else s.lenOf b) ∧
    ∀ b k, t.element b k = if b = dstBuf s.cfg then none else s.element b k

theorem KeepsOthers.runFailed {s t : State} (h : KeepsOthers s t) : RunDiscards s t.runFailed := by
  obtain ⟨hsel, hbuf⟩ := h
  refine ⟨fun b => ?_, fun b k => ?_⟩
  · rw [runFailed_lenOf, hsel]
    exact ite_congr rfl (fun _ => rfl) fun hb => congrArg BitVec.toNat (hbuf b hb).1
  · rw [runFailed_element, hsel]
    exact ite_congr rfl (fun _ => rfl) fun hb => congrArg (Memory.read · k) (hbuf b hb).2

/-- CV.RUN's pushes and its flush touch no buffer but the destination, which a failure discards. -/
theorem execCvRun_discards (s : State) : Leaves (fun t => Failed t → RunDiscards s t) (execCvRun s) := by
  have hread : KeepsOthers s (s.readBuf (srcBuf s.cfg)).2 := by
    obtain ⟨xs, d, h, -⟩ := readBuf_spec s (srcBuf s.cfg)
    rw [h]
    exact ⟨rfl, fun b _ => ⟨rfl, rfl⟩⟩
  exact execCvRun_leaves pushGroup_keepsOthers (fun t h => (flushGroup_ends t).keepsOthers h)
    (fun t f h _ => h.runFailed) (fun t d _ hf => absurd hf (not_failed_respond t d)) hread.initConverter

/-- Settles O60: the frame of each command, the invariant for `BITS`, and what the three that write buffers discard. -/
theorem failingWalkLeaves : Obligations.FailingWalkLeaves := by
  unfold Obligations.FailingWalkLeaves
  intro s t hs hf
  have hframe (i : Instr) := exec_frame i s t
  have hbits {i : Instr} (ht : exec i s = .next t) : t.bits.toNat ≤ 7 := (exec_inv i hs t ht).bits_small
  refine ⟨fun ht => ⟨hframe .cvRun ht, hbits ht, execCvRun_discards s t ht hf⟩, hframe .pmSym, hframe .ckCreate,
    hframe .ckVerify, fun ht => ⟨hframe .encode ht, hbits ht, ?_⟩, fun ht => ⟨hframe .decode ht, hbits ht, ?_⟩⟩
  · obtain ⟨_, f, ⟨-, d, rfl⟩, rfl⟩ := execEncode_failsAs s t ht hf
    exact ⟨encodeFailed_lenOf { s with draws := d }, encodeFailed_forgets { s with draws := d }⟩
  · obtain ⟨_, f, ⟨-, d, rfl⟩, rfl⟩ := execDecode_failsAs s t ht hf
    exact ⟨decodeFailed_lenOf { s with draws := d }, decodeFailed_forgets { s with draws := d }⟩

end Sys2Proof.Proofs

/-!
PROOFS. The hardware reset and SRST (spec/70_reset_and_hazards.md R260, spec/45_buffer_and_system.md R214): both put the
block's own fields back to their reset values, and they differ in what stands at the port.
-/

namespace Sys2Proof.Proofs

open Sys2Proof Sys2Proof.Machine

theorem exec_srst (s : State) : exec .srst s = .next (s.resetBlock.respond 0#30) := rfl

/-- Whatever SRST would answer, a hardware reset differs from it at the port only (log 3). -/
theorem hardReset_eq_respond (s : State) (rest : List Input) (d : BitVec 30) :
    s.hardReset rest = { s.resetBlock.respond d with inputs := rest, resp := none } := rfl

/-- Settles O13: SRST answers 0 from the reset block, and the step on a hardware reset leaves that same block; that it
leaves no response is the model's choice (log 3). -/
theorem hardwareResetIsSrst : Obligations.HardwareResetIsSrst := by
  unfold Obligations.HardwareResetIsSrst
  refine ⟨exec_srst, fun s rest hin => ?_⟩
  exact ⟨s.hardReset rest, s.resetBlock.respond 0#30, step_hardReset hin, exec_srst s, hardReset_eq_respond s rest 0#30⟩

end Sys2Proof.Proofs
